-- ==== Sys2Proof/Word.lean ====
section
/-!
DEFINITION. Word types of the UCONV codec: 32-bit registers and command words (10_state R16, 30_encoding R51),
8-bit bytes of buffer memory (20_memory R35).
-/

namespace Sys2Proof

/-- A register value or a command word: 32 bits (R16, R51). -/
abbrev Word := BitVec 32

/-- One byte of buffer memory (R35). -/
abbrev Byte := BitVec 8

end Sys2Proof
end

