-- ==== Sys2Proof/Config.lean ====
section
/-!
DEFINITION. What an implementation fixes (00_scope R7, 70_reset_and_hazards R129: parameters are arguments of the machine, not
state) and the free values of what the spec leaves open (93_implementation_defined U1, U2, U6, U7). The opaque constants have
no body: nothing can prove a value of one.
-/

namespace Sys2Proof

/-- How a channel is reduced for RGB565 (R7, 44_fixed R98). -/
inductive Rgb565Quant where
  /-- keep the top bits -/
  | truncate
  /-- the palette quantiser -/
  | round
  deriving DecidableEq, Repr

/-- The parameters of an instance (00_scope R7, with the identity value of 70_reset_and_hazards R129): the arguments of the
machine (`execWith`, `stepWith`, `machine`). -/
structure Params where
  /-- `ADDR_BITS`, the width of a buffer-memory byte address. -/
  addrBits : Nat
  /-- `REG_BASE`, the host address of the register block. The spec gives no width of the host's address space, and none is
  chosen here: it is a natural number (log entry 6). -/
  regBase : Nat
  /-- `INDEX_CHECK`, whether out-of-range indices fault in planar encode and in fixed encode and decode at BPP ≤ 8. -/
  indexCheck : Bool
  /-- `RGB565_QUANT`. -/
  rgb565Quant : Rgb565Quant
  /-- `BF_FIELDS`, the number of BitLayout field descriptors: at most the eight that the register map has offsets for (10_state
  R16, U18). Log entry 6 (DEDUCED, unsafe for other values). -/
  bfFields : Fin 9
  /-- The container version the viewer expects (R27). The block accepts every version, so no command reads it. -/
  viewerVersion : BitVec 16
  /-- The identity value (R1, R129). No register reports it. -/
  identity : String
  deriving DecidableEq, Repr

/-- `BF_FIELDS` in this spec (R7, D37). -/
def Config.bfFields : Fin 9 := 8

/-- The identity string (R1, D1). -/
def Config.identity : String := "UCONV-CODEC/spec-1"

/-- `REG_BASE` of the platform: OPEN (R7, R16, D2). No step reads it. That it is some natural number, with no width of the host's
address space, is the model's (DESIGN CHOICE, safe: log entry 6). -/
opaque Config.regBase : Nat

/-- The container version the viewer expects: OPEN (R7, R27, D21). -/
opaque Config.viewerVersion : BitVec 16

/-- The values this spec gives the parameters (R7; D6, D16, D17, D37); the open ones are opaque. Log entry 6 (DEDUCED, unsafe for
other values). -/
def Config.params : Params :=
  { addrBits := 32, regBase := Config.regBase, indexCheck := true, rgb565Quant := .truncate,
    bfFields := Config.bfFields, viewerVersion := Config.viewerVersion, identity := Config.identity }

/-- The content of buffer memory at power-on, by address: unspecified (10_state R34, U7). A free value. Log entry 1 (DESIGN CHOICE, safe). -/
opaque Config.powerOnByte : Nat → Byte

/-- The byte that draw number `n` of `Unspec` leaves at an address (00_scope R11, 60_exceptions R117, U1). A free value.
Log entry 2 (DESIGN CHOICE, safe). -/
opaque Config.unspecByte : Nat → Nat → Byte

/-- The value that draw number `n` gives a host read, while BUSY = 1, of a register the running command writes (10_state R18,
U2). A free value. Log entry 2 (DESIGN CHOICE, safe). -/
opaque Config.busyRead : Nat → Word

/-- Whether draw number `n` leaves the new value (true) or the old one (false) in the byte at an address when a reset abandons
a running command (70 R128, U6). A free choice. Log entry 2 (DESIGN CHOICE, safe). -/
opaque Config.resetKeepsNew : Nat → Nat → Bool

/-- The value that draw number `n` gives RESULT_LEN after a success whose length does not fit in its 32 bits, which no rule states
(10_state R26; possible only at ADDR_BITS above 32). A free value. Log entry 13 (DESIGN CHOICE, safe). -/
opaque Config.longResultLen : Nat → Word

end Sys2Proof
end

