-- ==== Sys2Proof/Syntax.lean ====
section
/-!
DEFINITION. The seventeen commands of the opcode map (30_encoding R53). A command word carries no operand fields and no
immediates (R55): every operand is read from a register when the command runs, so no constructor has an argument.
-/

namespace Sys2Proof

/-- The commands of 30_encoding R53, one constructor per row of the opcode table. -/
inductive Instr where
  /-- NOP, 45_container R112. -/
  | nop
  /-- PAL_ENC_STE, 41_palette R80. -/
  | palEncSte
  /-- PAL_ENC_TT, 41_palette R81. -/
  | palEncTt
  /-- PAL_ENC_FALCON, 41_palette R82. -/
  | palEncFalcon
  /-- PAL_DEC_STE, 41_palette R84. -/
  | palDecSte
  /-- PAL_DEC_TT, 41_palette R85. -/
  | palDecTt
  /-- PAL_DEC_FALCON, 41_palette R86. -/
  | palDecFalcon
  /-- PIX_ENC_PLANAR, 42_planar R88. -/
  | pixEncPlanar
  /-- PIX_ENC_PACKED, 43_packed R93. -/
  | pixEncPacked
  /-- PIX_ENC_FIXED, 44_fixed R101. -/
  | pixEncFixed
  /-- PIX_DEC_PLANAR, 42_planar R89. -/
  | pixDecPlanar
  /-- PIX_DEC_PACKED, 43_packed R94. -/
  | pixDecPacked
  /-- PIX_DEC_FIXED, 44_fixed R102. -/
  | pixDecFixed
  /-- BF_PACK, 40_bitlayout R70. -/
  | bfPack
  /-- BF_UNPACK, 40_bitlayout R71. -/
  | bfUnpack
  /-- HDR_ENC, 45_container R107. -/
  | hdrEnc
  /-- HDR_DEC, 45_container R108. -/
  | hdrDec
  deriving DecidableEq, Repr

end Sys2Proof
end

