-- ==== Sys2Proof/WellFormed.lean ====
section
/-!
DEFINITION. The CMD32 format (30_encoding R51) as fields, and which field values are a command (R52). An `Instr` itself has
no operand (R55), so nothing about it can be ill-formed; what can be ill-formed is the word that the host writes to CMD.
-/

namespace Sys2Proof

/-- The fields of the one command format `CMD32` (R51): FAMILY 7:4, FUNC 3:0, RSVD 31:8. -/
structure CmdWord where
  family : BitVec 4
  func : BitVec 4
  rsvd : BitVec 24
  deriving DecidableEq, Repr

/-- The number of functions rule R52 assigns to each family, with the lowest function number: the palette families start at
variant code 1 ("code 0 spells no palette command"), every other family at 0; family 7 and above assign none. -/
def familyFuncs (family : BitVec 4) : Nat × Nat :=
  match family.toNat with
  | 0 => (0, 1)
  | 1 => (1, 3)
  | 2 => (1, 3)
  | 3 => (0, 3)
  | 4 => (0, 3)
  | 5 => (0, 2)
  | 6 => (0, 2)
  | _ => (0, 0)

/-- The reserved field must be 0 (R51). -/
def CmdWord.rsvdZero (c : CmdWord) : Bool := c.rsvd == 0

/-- The family has the function (R52). -/
def CmdWord.funcAssigned (c : CmdWord) : Bool :=
  let lo := (familyFuncs c.family).1
  let n := (familyFuncs c.family).2
  decide (lo ≤ c.func.toNat) && decide (c.func.toNat < lo + n)

/-- The word is one of the defined commands (R51, R52). -/
def CmdWord.wellFormed (c : CmdWord) : Bool := c.rsvdZero && c.funcAssigned

/-- Every instruction is well formed: it has no operand that could be out of range (R55). Written out by constructor so that
a later instruction with operands cannot slip past. -/
def Instr.wellFormed : Instr → Bool
  | .nop | .palEncSte | .palEncTt | .palEncFalcon | .palDecSte | .palDecTt | .palDecFalcon
  | .pixEncPlanar | .pixEncPacked | .pixEncFixed | .pixDecPlanar | .pixDecPacked | .pixDecFixed
  | .bfPack | .bfUnpack | .hdrEnc | .hdrDec => true

end Sys2Proof
end

