-- ==== Sys2Proof/Decode.lean ====
section
/-!
DEFINITION. The command decoder and encoder. "A decoder matches the whole 32-bit word against this table, with mask 0xFFFFFFFF"
(30_encoding R53). A word outside the table decodes to nothing; the engine ends it with IllegalCommand (R54).
-/

namespace Sys2Proof

/-- The opcode map of R53, row by row in its order. -/
def opcodeMap : List (Word × Instr) :=
  [ (0x00000000#32, .nop),
    (0x00000011#32, .palEncSte),
    (0x00000012#32, .palEncTt),
    (0x00000013#32, .palEncFalcon),
    (0x00000021#32, .palDecSte),
    (0x00000022#32, .palDecTt),
    (0x00000023#32, .palDecFalcon),
    (0x00000030#32, .pixEncPlanar),
    (0x00000031#32, .pixEncPacked),
    (0x00000032#32, .pixEncFixed),
    (0x00000040#32, .pixDecPlanar),
    (0x00000041#32, .pixDecPacked),
    (0x00000042#32, .pixDecFixed),
    (0x00000050#32, .bfPack),
    (0x00000051#32, .bfUnpack),
    (0x00000060#32, .hdrEnc),
    (0x00000061#32, .hdrDec) ]

/-- The first row whose word is `w`. -/
def lookupOpcode (w : Word) : List (Word × Instr) → Option Instr
  | [] => none
  | row :: rows => if w = row.1 then some row.2 else lookupOpcode w rows

/-- The decoder: total on 32-bit words; `none` is an illegal command (R54). -/
def decode (w : Word) : Option Instr := lookupOpcode w opcodeMap

/-- The fields of a command word (R51). -/
def cmdFields (w : Word) : CmdWord :=
  { family := w.extractLsb' 4 4, func := w.extractLsb' 0 4, rsvd := w.extractLsb' 8 24 }

/-- The word with the given fields (R51). -/
def cmdWordOf (c : CmdWord) : Word := c.rsvd ++ c.family ++ c.func

/-- FAMILY and FUNC of each command, written from R52's table of families. -/
def opcodeOf : Instr → BitVec 4 × BitVec 4
  | .nop => (0x0#4, 0#4)
  | .palEncSte => (0x1#4, 1#4)
  | .palEncTt => (0x1#4, 2#4)
  | .palEncFalcon => (0x1#4, 3#4)
  | .palDecSte => (0x2#4, 1#4)
  | .palDecTt => (0x2#4, 2#4)
  | .palDecFalcon => (0x2#4, 3#4)
  | .pixEncPlanar => (0x3#4, 0#4)
  | .pixEncPacked => (0x3#4, 1#4)
  | .pixEncFixed => (0x3#4, 2#4)
  | .pixDecPlanar => (0x4#4, 0#4)
  | .pixDecPacked => (0x4#4, 1#4)
  | .pixDecFixed => (0x4#4, 2#4)
  | .bfPack => (0x5#4, 0#4)
  | .bfUnpack => (0x5#4, 1#4)
  | .hdrEnc => (0x6#4, 0#4)
  | .hdrDec => (0x6#4, 1#4)

/-- The encoder: FAMILY:FUNC in bits 7:0, reserved bits 0 (R51, R52). -/
def encode (i : Instr) : Word :=
  cmdWordOf { family := (opcodeOf i).1, func := (opcodeOf i).2, rsvd := 0 }

/-- The instruction the decoder reads from bits `w`, `nbits` wide: a command word is one 32-bit register value (R51), so it is
not laid out in memory; every bit at or above `nbits` is 0. -/
def decodeTableWord (nbits w : Nat) : Option Instr :=
  decode (BitVec.ofNat 32 (w % 2 ^ nbits))

end Sys2Proof
end

