-- ==== Sys2Proof/Machine/State.lean ====
section
/-!
DEFINITION. The machine's state (10_state, 70_reset_and_hazards R128) as plain data, the errors a command can report
(60_exceptions R113), and the reasons a step of the model can stop.
-/

namespace Sys2Proof.Machine

/-- A bank of eight 32-bit registers: BF_DESC0..7 or BF_VAL0..7 (10_state R30, R31; `Config.bfFields`). -/
structure Bank where
  r0 : Word
  r1 : Word
  r2 : Word
  r3 : Word
  r4 : Word
  r5 : Word
  r6 : Word
  r7 : Word
  deriving DecidableEq, Repr

/-- The errors of 60_exceptions R113. An error is not a stop of the model: it ends the command in a next state (R117). -/
inductive ErrorKind where
  | configurationError
  | badMagic
  | unsupportedDepth
  | invalidPaletteBits
  | dimensionNotAligned
  | indexOutOfRange
  | truncatedInput
  | illegalCommand
  | addressRange
  | bufferOverlap
  deriving DecidableEq, Repr

/-- An error with the information it records (R113, R117), before ERR_INFO saturates it. -/
structure CmdError where
  kind : ErrorKind
  info : Nat
  deriving DecidableEq, Repr

/-- The registers of the block, by name (10_state R16). `reserved` is any offset that holds none. -/
inductive Reg where
  | cmd
  | status
  | cfg
  | dim
  | src
  | srcLen
  | dst
  | resultLen
  | version
  | errInfo
  | bfWord
  | bfDesc (k : Fin 8)
  | bfVal (k : Fin 8)
  | reserved
  deriving DecidableEq, Repr

/-- What the host does to the block and to buffer memory (70 R138, 10_state R14), and the two marks that place the engine's
step among the host's accesses. Log entry 4 (DESIGN CHOICE, safe). -/
inductive HostEvent where
  /-- A register write, `bits` wide, of a value at a byte offset of the block (R16, R138; the bus operation `W` of 30_encoding
  R56). Only 32 bits is defined (R17), so the value is a word: an access of any other width is refused whatever it carries. -/
  | write (bits : Nat) (offset : Nat) (value : Word)
  /-- A register read, `bits` wide, at a byte offset of the block (R138; the bus operation `R` of R56). -/
  | read (bits : Nat) (offset : Nat)
  /-- The pseudo-instruction WAIT: STATUS is read until its BUSY bit is 0 (R57, R133). -/
  | wait
  /-- A write of one byte of buffer memory by the host or another bus master (R14, R34). -/
  | memWrite (addr : Nat) (value : Byte)
  /-- A read of one byte of buffer memory by the host or another bus master (R14, R34). -/
  | memRead (addr : Nat)
  /-- Reset of the whole instance (R128). -/
  | reset
  /-- Here the engine takes its step, if it has one (60_exceptions R115). -/
  | engine
  deriving DecidableEq, Repr

/-- A range of addresses whose accesses have side effects: a device's window in the platform's map (20_memory R41, R42).
Log entry 3 (DESIGN CHOICE, unsafe: empty at reset). -/
structure Window where
  base : Nat
  size : Nat
  deriving DecidableEq, Repr

/-- Why the model stops with a fault. No command raises one: the errors of R113 are next states. -/
inductive Fault where
  /-- STATUS says BUSY = 1 but PEND is invalid. Raised by the engine's step, in states no run reaches (R33). Safe. -/
  | busyWithoutCommand
  /-- A host memory access at an address at or above 2^ADDR_BITS, which does not exist (R35). Raised by the host's memory
  events. Safe. -/
  | noSuchAddress (addr : Nat)
  deriving DecidableEq, Repr

/-- Why the model refuses to go on. -/
inductive Refusal where
  /-- The instruction has no meaning in the model yet; raised by no arm of the finished model. Safe. -/
  | notModelled (mnemonic : String)
  /-- A register access that is not 32 bits wide, not at a multiple of 4 or not inside the 128-byte block: "A model refuses
  it" (R17, R137, U3). Raised by the host's register events. Safe. -/
  | badRegisterAccess (offset : Nat)
  /-- A command, or a host memory access, on memory with side effects: "A model refuses such a command" (R41, R137, U4).
  Raised by every command that touches memory and by the host's memory events. Safe. -/
  | sideEffectMemory
  /-- A host memory access into the ranges of the running command: the model gives it no move (R47 item 3, R135, U5, C6).
  Raised by the host's memory events while BUSY = 1. Safe. -/
  | rangeBreach (addr : Nat)
  deriving DecidableEq, Repr

/-- The state of one instance, with the host that drives it. -/
structure State where
  /-- CMD (R19). -/
  cmd : Word
  /-- STATUS (R20). -/
  status : Word
  /-- CFG (R21). -/
  cfg : Word
  /-- DIM (R22). -/
  dim : Word
  /-- SRC (R23). -/
  src : Word
  /-- SRC_LEN (R24). -/
  srcLen : Word
  /-- DST (R25). -/
  dst : Word
  /-- RESULT_LEN (R26). -/
  resultLen : Word
  /-- VERSION (R27). -/
  version : Word
  /-- ERR_INFO (R28). -/
  errInfo : Word
  /-- BF_WORD (R29). -/
  bfWord : Word
  /-- BF_DESC0..7 (R30). -/
  bfDesc : Bank
  /-- BF_VAL0..7 (R31). -/
  bfVal : Bank
  /-- PEND, the latched command word; `none` is invalid (R33). -/
  pend : Option Word
  /-- Buffer memory (R34, R35): the bytes written since power-on, addresses strictly rising. -/
  mem : List Host.Cell
  /-- The model's own: the host's events to come, in order. Log entry 4 (DESIGN CHOICE, safe). -/
  agenda : List HostEvent
  /-- The model's own: the values the host's reads returned, newest first. Log entry 5 (DESIGN CHOICE, safe). -/
  readLog : List Word
  /-- The model's own: how many free values have been drawn. Log entry 2 (DESIGN CHOICE, safe). -/
  draws : Nat
  /-- The platform's side-effect windows. Log entry 3 (DESIGN CHOICE, unsafe: empty at reset). -/
  windows : List Window
  deriving DecidableEq, Repr

/-- A bank of zeros. -/
def Bank.zero : Bank :=
  { r0 := 0, r1 := 0, r2 := 0, r3 := 0, r4 := 0, r5 := 0, r6 := 0, r7 := 0 }

/-- The state after reset (R128): every register 0, PEND invalid, no byte of memory written since power-on. -/
def State.reset : State :=
  { cmd := 0, status := 0, cfg := 0, dim := 0, src := 0, srcLen := 0, dst := 0, resultLen := 0, version := 0,
    errInfo := 0, bfWord := 0, bfDesc := Bank.zero, bfVal := Bank.zero, pend := none, mem := [],
    agenda := [], readLog := [], draws := 0, windows := [] }

/-- What a step answers. -/
abbrev Result := Host.Outcome State Fault Refusal

end Sys2Proof.Machine
end

