-- ==== Sys2Proof/Machine/Flags.lean ====
section
/-!
DEFINITION. The block's only flags, the fields of STATUS (10_state R20), and the three values the block ever writes to STATUS:
at issue (R19), at a successful end (60_exceptions R116) and at an error (R117).
-/

namespace Sys2Proof.Machine

/-- The code an error reports in STATUS.ERRCODE (R113). -/
def errorCode : ErrorKind → Nat
  | .configurationError => 1
  | .badMagic => 2
  | .unsupportedDepth => 3
  | .invalidPaletteBits => 4
  | .dimensionNotAligned => 5
  | .indexOutOfRange => 6
  | .truncatedInput => 7
  | .illegalCommand => 8
  | .addressRange => 9
  | .bufferOverlap => 10

/-- STATUS at issue: BUSY = 1 and nothing else (R19). -/
def statusIssued : Word := 0x00000001

/-- STATUS after a success: DONE = 1 and nothing else (R116). -/
def statusDone : Word := 0x00000002

/-- STATUS after an error: DONE = 1, ERR = 1 and the code in bits 11:8 (R117). -/
def statusError (e : ErrorKind) : Word := BitVec.ofNat 32 (6 ||| (errorCode e <<< 8))

/-- STATUS.BUSY, bit 0 (R20). -/
def busy (s : State) : Bool := s.status.getLsbD 0

/-- STATUS.DONE, bit 1 (R20). -/
def done (s : State) : Bool := s.status.getLsbD 1

/-- STATUS.ERR, bit 2 (R20). -/
def err (s : State) : Bool := s.status.getLsbD 2

/-- STATUS.ERRCODE, bits 11:8 (R20). -/
def errCode (s : State) : Nat := (s.status.extractLsb' 8 4).toNat

end Sys2Proof.Machine
end

