-- ==== Sys2Proof/Machine/Ops.lean ====
section
/-!
DEFINITION. The shared operations: buffer memory (20_memory), the register banks, how a command ends (60_exceptions R116, R117),
the order of checks (R118), and the one shape of every command that turns an input range into an output range.
-/

namespace Sys2Proof.Machine

/-! ### Buffer memory -/

/-- The canonical form of a memory with `bits`-bit addresses: addresses strictly rise and lie in the address space (R35). An
unlisted address has no value in the list, so no entry can equal it. -/
abbrev Memory.wfIn (bits : Nat) (m : List Host.Cell) : Prop :=
  m.Pairwise (fun c d => c.1 < d.1) ∧ ∀ c ∈ m, c.1 < 2 ^ bits

/-- The canonical form with the spec's ADDR_BITS. -/
abbrev Memory.wf (m : List Host.Cell) : Prop := Memory.wfIn Config.params.addrBits m

/-- The byte listed at an address; `none` where nothing has been written since power-on. -/
def memGet : List Host.Cell → Nat → Option Byte
  | [], _ => none
  | c :: m, a => if c.1 = a then some c.2 else memGet m a

/-- Consecutive bytes as cells from an address up. -/
def cellsFrom : Nat → List Byte → List Host.Cell
  | _, [] => []
  | a, b :: bs => (a, b) :: cellsFrom (a + 1) bs

/-- Memory with `bs` at `a`, `a + 1`, …, and every other byte as before (R44). -/
def memSplice (m : List Host.Cell) (a : Nat) (bs : List Byte) : List Host.Cell :=
  m.filter (fun c => decide (c.1 < a)) ++ cellsFrom a bs ++
    m.filter (fun c => decide (a + bs.length ≤ c.1))

/-- The byte a read of an address returns: the last value written (R41), or the unspecified content at power-on (R34, U7).
Log entry 1 (DESIGN CHOICE, safe). -/
def readByte (s : State) (a : Nat) : Byte :=
  (memGet s.mem a).getD (Config.powerOnByte a)

/-- `MemRead8(addr)` (00_scope R11). -/
def memRead8 (s : State) (a : Nat) : Nat := (readByte s a).toNat

/-- `MemRead(addr, n)`: `n` bytes composed big-endian, the byte at `addr` most significant (R11, R37). -/
def memRead (s : State) (a : Nat) : Nat → Nat
  | 0 => 0
  | n + 1 => memRead s a n * 256 + memRead8 s (a + n)

/-- The bytes at `a`, …, `a + n − 1`, lowest address first. -/
def readBytes (s : State) (a n : Nat) : List Byte :=
  (List.range n).map (fun k => readByte s (a + k))

/-- Byte `k` of the `width`-byte big-endian representation of `v` (R11, R37). -/
def beByte (width v k : Nat) : Byte := BitVec.ofNat 8 (v / 256 ^ (width - 1 - k))

/-- Items `0 .. count − 1` of `width` bytes each, big-endian, one after another: what a loop of
`MemWrite(D + width·t, width, item t)` writes. -/
def itemBytes (width count : Nat) (item : Nat → Nat) : List Byte :=
  (List.range (count * width)).map (fun k => beByte width (item (k / width)) (k % width))

/-- The state with `bs` written at `a`. -/
def writeBytes (s : State) (a : Nat) (bs : List Byte) : State :=
  { s with mem := memSplice s.mem a bs }

/-- `Unspec([a, a + n))`: every byte of the range holds an unconstrained value (R11, U1). Log entry 2 (DESIGN CHOICE, safe). -/
def unspec (s : State) (a n : Nat) : State :=
  { s with
    mem := memSplice s.mem a ((List.range n).map (fun k => Config.unspecByte s.draws (a + k)))
    draws := s.draws + 1 }

/-- Memory after a reset abandons a command: each byte is the new or the old one (70 R128, U6); only bytes the command would
have written differ, so only those are chosen. Log entry 2 (DESIGN CHOICE, safe). -/
def memMix (draw : Nat) (old new : List Host.Cell) : List Host.Cell :=
  new.filterMap fun c =>
    if Config.resetKeepsNew draw c.1 then some c else (memGet old c.1).map (fun b => (c.1, b))

/-! ### Address ranges -/

/-- Whether `[a, a + n)` and `[b, b + m)` are both nonempty and share an address (R43). -/
def rangesMeet (a n b m : Nat) : Bool :=
  decide (n ≠ 0) && decide (m ≠ 0) && decide (a < b + m) && decide (b < a + n)

/-- Whether `[a, a + n)` is nonempty and reaches beyond the top of the address space (R42). -/
def beyondTop (p : Params) (a n : Nat) : Bool := decide (n ≠ 0) && decide (2 ^ p.addrBits < a + n)

/-- Whether `[a, a + n)` covers memory with side effects (R41, R137). Log entry 3 (DESIGN CHOICE, unsafe: empty at reset). -/
def touchesWindow (s : State) (a n : Nat) : Bool :=
  s.windows.any (fun w => rangesMeet a n w.base w.size)

/-! ### Register banks -/

/-- Register `k` of a bank. -/
def bankGet (b : Bank) (k : Fin 8) : Word :=
  match k.val with
  | 0 => b.r0
  | 1 => b.r1
  | 2 => b.r2
  | 3 => b.r3
  | 4 => b.r4
  | 5 => b.r5
  | 6 => b.r6
  | _ => b.r7

/-- A bank with register `k` written. -/
def bankSet (b : Bank) (k : Fin 8) (v : Word) : Bank :=
  match k.val with
  | 0 => { b with r0 := v }
  | 1 => { b with r1 := v }
  | 2 => { b with r2 := v }
  | 3 => { b with r3 := v }
  | 4 => { b with r4 := v }
  | 5 => { b with r5 := v }
  | 6 => { b with r6 := v }
  | _ => { b with r7 := v }

/-- The bank whose register `k` is `f k`. -/
def bankOf (f : Fin 8 → Word) : Bank :=
  { r0 := f 0, r1 := f 1, r2 := f 2, r3 := f 3, r4 := f 4, r5 := f 5, r6 := f 6, r7 := f 7 }

/-! ### The end of a command -/

/-- A command is issued (R19): CMD and PEND hold the word, STATUS says BUSY. -/
def issue (s : State) (v : Word) : State :=
  { s with cmd := v, status := statusIssued, pend := some v }

/-- `raise E(info)` (R117): the one way an error ends a command. ERR_INFO saturates at 0xFFFFFFFF. PEND is valid only while
BUSY = 1 (R33): log entry 9 (DEDUCED, safe). -/
def raise (e : CmdError) (s : State) : State :=
  { s with
    resultLen := 0
    errInfo := BitVec.ofNat 32 (min e.info 0xFFFFFFFF)
    status := statusError e.kind
    pend := none }

/-- Whether a length fits in RESULT_LEN, a 32-bit register (10_state R26). At ADDR_BITS = 32 every length that
passes the checks does (20_memory R42, R43). -/
def lenFits (n : Nat) : Bool := decide (n < 2 ^ 32)

/-- The end of a command that raised nothing (R116), with the RESULT_LEN its rule writes (R26). Of a length that does not fit the
spec does not say what RESULT_LEN then holds: it holds a free value. Log entry 13 (DESIGN CHOICE, safe). -/
def finish (resultLen : Nat) (s : State) : State :=
  { s with
    resultLen := if lenFits resultLen then BitVec.ofNat 32 resultLen else Config.longResultLen s.draws
    errInfo := 0
    status := statusDone
    pend := none
    draws := if lenFits resultLen then s.draws else s.draws + 1 }

/-! ### Checks -/

/-- One check of a command rule: whether it fails, and the error it then raises (R12, R118). -/
structure Check where
  fails : Bool
  error : CmdError
  deriving DecidableEq, Repr

/-- "A command reports exactly one error: the first check that fails in its own rule's order" (R118). -/
def firstFailure : List Check → Option CmdError
  | [] => none
  | c :: cs => if c.fails then some c.error else firstFailure cs

/-- `TruncatedInput`, `AddressRange` (input before output) and `BufferOverlap`, in the order of R118 (R24, R42, R43). -/
def lengthChecks (p : Params) (s : State) (inLen outLen : Nat) : List Check :=
  [ ⟨decide (s.srcLen.toNat < inLen), .truncatedInput, inLen⟩,
    ⟨beyondTop p s.src.toNat inLen, .addressRange, 1⟩,
    ⟨beyondTop p s.dst.toNat outLen, .addressRange, 2⟩,
    ⟨rangesMeet s.src.toNat inLen s.dst.toNat outLen, .bufferOverlap, 0⟩ ]

/-! ### Commands from an input range to an output range -/

/-- What a command rule of 41 to 45 says of a command that writes buffer memory: its configuration checks in order, its input
length, its output as `count` big-endian items of `width` bytes, and the first offending pixel where it has a data check. -/
structure Transform where
  config : List Check
  inLen : Nat
  width : Nat
  count : Nat
  item : Nat → Nat
  badPixel : Option Nat

/-- `out_len` of a command (R42). -/
def outLen (t : Transform) : Nat := t.count * t.width

/-- Runs such a command: the checks in R118's order, then the data error (which first makes the output range unspecified, R117),
then the output at DST and RESULT_LEN. A command on side-effect memory is refused before it touches memory (R41). -/
def runTransform (p : Params) (t : Transform) (s : State) : Result :=
  match firstFailure (t.config ++ lengthChecks p s t.inLen (outLen t)) with
  | some e => .next (raise e s)
  | none =>
    if touchesWindow s s.src.toNat t.inLen || touchesWindow s s.dst.toNat (outLen t) then
      .refused .sideEffectMemory
    else
      match t.badPixel with
      | some q => .next (raise ⟨.indexOutOfRange, q⟩ (unspec s s.dst.toNat (outLen t)))
      | none =>
        .next (finish (outLen t)
          (writeBytes s s.dst.toNat (itemBytes t.width t.count t.item)))

end Sys2Proof.Machine
end

