-- ==== Sys2Proof/Machine/Operands.lean ====
section
/-!
DEFINITION. The operands of the commands (30_encoding R55): the fields of CFG, DIM, VERSION and the descriptors, the pixel
format (45_container R104), the sets of legal depths and pairs, the channel arithmetic (41_palette R75, R76), and the generic
bit-field functions (40_bitlayout R65) that the palette commands and BF_PACK, BF_UNPACK share.
-/

namespace Sys2Proof.Machine

/-! ### Fields -/

/-- `v[hi:lo]` (00_scope R9). -/
def slice (v hi lo : Nat) : Nat := v / 2 ^ lo % 2 ^ (hi + 1 - lo)

/-- `mask(w)` (R10). -/
def mask (w : Nat) : Nat := 2 ^ w - 1

/-- CFG.BPP (10_state R21). -/
def cfgBpp (s : State) : Nat := slice s.cfg.toNat 7 0

/-- CFG.BPC, the raw byte (R21). -/
def cfgBpc (s : State) : Nat := slice s.cfg.toNat 15 8

/-- CFG.PALBITS (R21). -/
def cfgPalBits (s : State) : Nat := slice s.cfg.toNat 23 16

/-- CFG.PALKIND (R21). -/
def cfgPalKind (s : State) : Nat := slice s.cfg.toNat 25 24

/-- CFG.SRC_ALPHA (R21). -/
def cfgSrcAlpha (s : State) : Nat := slice s.cfg.toNat 26 26

/-- DIM.WIDTH (R22). -/
def dimWidth (s : State) : Nat := slice s.dim.toNat 15 0

/-- DIM.HEIGHT (R22). -/
def dimHeight (s : State) : Nat := slice s.dim.toNat 31 16

/-- `N = WIDTH × HEIGHT`, computed without overflow (R22). -/
def pixelCount (s : State) : Nat := dimWidth s * dimHeight s

/-- `VERSION[15:0]` (R27). -/
def versionField (s : State) : Nat := slice s.version.toNat 15 0

/-- BF_DESCk.OFFSET (R30). -/
def descOffset (s : State) (k : Fin 8) : Nat := slice (bankGet s.bfDesc k).toNat 4 0

/-- BF_DESCk.WIDTH (R30). -/
def descWidth (s : State) (k : Fin 8) : Nat := slice (bankGet s.bfDesc k).toNat 13 8

/-- `sext_8(v)` (R10). -/
def sext8 (v : Nat) : Int := if 128 ≤ v then (v : Int) - 256 else v

/-! ### Depths and pixel formats -/

/-- The depths a pixel or header command accepts (42_planar R87, 45_container R105). -/
def pixelDepths : List Nat := [1, 2, 4, 6, 8, 16, 24, 32]

/-- The depths a palette command accepts as supported (41_palette R79). -/
def paletteDepths : List Nat := [0, 1, 2, 4, 6, 8, 16, 24, 32]

/-- The three-way pixel format of R64 and R104. -/
inductive PixelFormat where
  | packed
  | planar
  | fixed (bytes : Nat)
  deriving DecidableEq, Repr

/-- The format a bytesPerChunk value selects, by table lookup (R104); `none` is illegal. -/
def pixelFormat (k : Int) : Option PixelFormat :=
  if k = -1 then some .packed
  else if k = 0 then some .planar
  else if k = 1 then some (.fixed 1)
  else if k = 2 then some (.fixed 2)
  else if k = 3 then some (.fixed 3)
  else if k = 4 then some (.fixed 4)
  else none

/-- The legal (BPP, BPC) pairs of the fixed-chunky format (44_fixed R96). -/
def legalFixedPair (bpp : Nat) (bpc : Int) : Bool :=
  if [1, 2, 4, 6, 8].contains bpp then decide (bpc = 1)
  else if bpp = 16 then decide (bpc = 2)
  else if bpp = 24 then decide (bpc = 3)
  else if bpp = 32 then decide (bpc = 4)
  else false

/-- Whether a format allows a depth (R105 check 2). -/
def formatAllows (f : PixelFormat) (bpp : Nat) : Bool :=
  match f with
  | .packed => [1, 2, 4].contains bpp
  | .planar => [1, 2, 4, 6, 8].contains bpp
  | .fixed k => legalFixedPair bpp k

/-- `UnsupportedDepth` with ERR_INFO = BPP (R79, R87, R92, R97, R105). -/
def depthCheck (depths : List Nat) (bpp : Nat) : Check :=
  ⟨!depths.contains bpp, .unsupportedDepth, bpp⟩

/-- `DimensionNotAligned` with ERR_INFO = WIDTH if `WIDTH mod 16 ≠ 0` (R87, R92). -/
def widthCheck (s : State) : Check :=
  ⟨decide (dimWidth s % 16 ≠ 0), .dimensionNotAligned, dimWidth s⟩

/-! ### Pixels -/

/-- Index `p` of an indexed grid at SRC: one byte a pixel (20_memory R45). -/
def srcIndex (s : State) (p : Nat) : Nat := memRead8 s (s.src.toNat + p)

/-- The smallest position `p < n` whose index is at or above `2^b` (42_planar R88 check 7, 43_packed R93). -/
def firstBadIndex (s : State) (n b : Nat) : Option Nat :=
  (List.range n).find? (fun p => decide (2 ^ b ≤ srcIndex s p))

/-! ### Channel arithmetic -/

/-- The quantiser `Q_n(c)` (R75, C5). -/
def quantise (n c : Nat) : Nat := (2 * c * (2 ^ n - 1) + 255) / 510

/-- The upscaler `U_n(v)` (R76, C4). -/
def upscale (n v : Nat) : Nat := (2 * v * 255 + (2 ^ n - 1)) / (2 * (2 ^ n - 1))

/-- The reduction `R_k(c)` of a channel for RGB565 (R98, D17). -/
def reduce565 (p : Params) (k c : Nat) : Nat :=
  match p.rgb565Quant with
  | .truncate => c >>> (8 - k)
  | .round => quantise k c

/-! ### Bit-field layouts -/

/-- A field of a layout: a name, an offset and a width (R65). -/
structure BitField (ν : Type) where
  name : ν
  off : Nat
  width : Nat

/-- `BitPack(L, val)` (R65): every field keeps the low `width` bits of its value (R66). -/
def bitPack {ν : Type} (layout : List (BitField ν)) (val : ν → Nat) : Nat :=
  layout.foldl (fun w f => w ||| ((val f.name &&& mask f.width) <<< f.off)) 0

/-- The value `BitUnpack` gives one field (R65). -/
def fieldValue {ν : Type} (w : Nat) (f : BitField ν) : Nat := (w >>> f.off) &&& mask f.width

/-- `BitUnpack(L, w)` as a map from field names; a name outside the layout gives 0 (R65, 40_bitlayout R71). -/
def bitUnpack {ν : Type} [DecidableEq ν] (layout : List (BitField ν)) (w : Nat) (name : ν) : Nat :=
  match layout.find? (fun f => decide (f.name = name)) with
  | some f => fieldValue w f
  | none => 0

/-- `Cover(L)` (R67). -/
def cover {ν : Type} (layout : List (BitField ν)) : Nat :=
  layout.foldl (fun w f => w ||| (mask f.width <<< f.off)) 0

end Sys2Proof.Machine
end

