-- ==== Sys2Proof/Machine/BitLayout.lean ====
section
/-!
DEFINITION. The commands of the BitLayout unit (40_bitlayout).
-/

namespace Sys2Proof.Machine

/-- The descriptor numbers of an instance, ascending (R68): `BF_FIELDS` of them. -/
def descNumbers (p : Params) : List (Fin 8) :=
  ([0, 1, 2, 3, 4, 5, 6, 7] : List (Fin 8)).filter fun k => decide (k.val < p.bfFields.val)

/-- A descriptor is used iff its WIDTH is not 0 (R68). -/
def descUsed (s : State) (k : Fin 8) : Bool := decide (descWidth s k ≠ 0)

/-- The layout `LREG` of the descriptor registers, field names the descriptor numbers (R68). -/
def regLayout (p : Params) (s : State) : List (BitField (Fin 8)) :=
  ((descNumbers p).filter (descUsed s)).map fun k => ⟨k, descOffset s k, descWidth s k⟩

/-- Whether used descriptor `k` breaks (a) or (b) of R69. -/
def descIllegal (p : Params) (s : State) (k : Fin 8) : Bool :=
  descUsed s k &&
    (decide (32 < descWidth s k) || decide (32 < descOffset s k + descWidth s k) ||
      (descNumbers p).any fun j =>
        decide (j < k) && descUsed s j &&
          rangesMeet (descOffset s j) (descWidth s j) (descOffset s k) (descWidth s k))

/-- The smallest illegal descriptor (R69). -/
def firstIllegalDesc (p : Params) (s : State) : Option (Fin 8) := (descNumbers p).find? (descIllegal p s)

/-- BF_PACK (R70) with the given parameters: packs the value registers into BF_WORD. -/
def execBfPackWith (p : Params) (s : State) : Result :=
  match firstIllegalDesc p s with
  | some k => .next (raise ⟨.configurationError, k.val⟩ s)
  | none =>
    .next (finish 0
      { s with bfWord := BitVec.ofNat 32 (bitPack (regLayout p s) fun k => (bankGet s.bfVal k).toNat) })

/-- The value registers after BF_UNPACK (R71): an unused descriptor's value becomes 0. A value register that the instance does
not have (`BF_FIELDS`) is not written. -/
def unpackedBank (p : Params) (s : State) : Bank :=
  bankOf fun k =>
    if k ∈ descNumbers p then BitVec.ofNat 32 (bitUnpack (regLayout p s) s.bfWord.toNat k)
    else bankGet s.bfVal k

/-- BF_UNPACK (R71) with the given parameters: splits BF_WORD into the value registers. -/
def execBfUnpackWith (p : Params) (s : State) : Result :=
  match firstIllegalDesc p s with
  | some k => .next (raise ⟨.configurationError, k.val⟩ s)
  | none => .next (finish 0 { s with bfVal := unpackedBank p s })

/-- BF_PACK (R70). -/
def execBfPack (s : State) : Result := execBfPackWith Config.params s

/-- BF_UNPACK (R71). -/
def execBfUnpack (s : State) : Result := execBfUnpackWith Config.params s

end Sys2Proof.Machine
end

