-- ==== Sys2Proof/Machine/Container.lean ====
section
/-!
DEFINITION. The container header framer (45_container) over the header layout of 30_encoding R63.
-/

namespace Sys2Proof.Machine

/-- The magic "UIMG" as a big-endian number: bytes 55 49 4D 47 (R63). -/
def magicUimg : Nat := 0x55494D47

/-- The validity checks of a header with raw fields BPP, BPC, PALKIND and WIDTH, in order (R105). No check applies at BPP = 0. -/
def headerChecks (bpp bpc palKind width : Nat) : List Check :=
  if bpp = 0 then []
  else
    let format := pixelFormat (sext8 bpc)
    [ depthCheck pixelDepths bpp,
      ⟨!(format.any fun f => formatAllows f bpp), .configurationError, (bpc <<< 8) ||| bpp⟩,
      ⟨(decide (palKind ≠ 0) && decide (8 < bpp)) || (decide (palKind = 1) && decide (4 < bpp)),
        .configurationError, (palKind <<< 16) ||| bpp⟩,
      ⟨(decide (format = some .planar) || decide (format = some .packed)) && decide (width % 16 ≠ 0),
        .dimensionNotAligned, width⟩ ]

/-- The header length `H` (R106). -/
def headerLen (bpp : Nat) : Nat := if bpp = 0 then 11 else 15

/-- The palette size `P` of a container (R110). -/
def containerPaletteLen (palKind bpp : Nat) : Nat :=
  if palKind = 0 then 0 else 2 ^ bpp * (if palKind = 3 then 4 else 2)

/-- The pixel payload size `Y` of a container with `n` pixels (R110). -/
def containerPayloadLen (bpp : Nat) (f : PixelFormat) (n : Nat) : Nat :=
  if bpp = 0 then 0
  else
    match f with
    | .packed => n * bpp / 8
    | .planar => n * bpp / 8
    | .fixed k => n * k

/-- `n` big-endian bytes of a number. -/
def beBytes (n v : Nat) : List Nat := (List.range n).map fun k => v / 256 ^ (n - 1 - k) % 256

/-- The header bytes HDR_ENC writes (R107, R63). -/
def headerBytes (s : State) : List Nat :=
  beBytes 4 magicUimg ++ beBytes 2 (versionField s) ++ beBytes 2 (cfgPalKind s) ++
    [cfgBpp s] ++ [cfgBpc s] ++ [0] ++
    (if cfgBpp s = 0 then [] else beBytes 2 (dimWidth s) ++ beBytes 2 (dimHeight s))

/-- HDR_ENC (R107) as a transform: no input, the header as output. -/
def hdrEnc (s : State) : Transform :=
  { config := headerChecks (cfgBpp s) (cfgBpc s) (cfgPalKind s) (dimWidth s)
    inLen := 0
    width := 1
    count := headerLen (cfgBpp s)
    item := fun k => (headerBytes s).getD k 0
    badPixel := none }

/-- HDR_ENC (R107) with the given parameters. -/
def execHdrEncWith (p : Params) (s : State) : Result := runTransform p (hdrEnc s) s

/-- HDR_ENC (R107). -/
def execHdrEnc (s : State) : Result := execHdrEncWith Config.params s

/-- The input length of HDR_DEC, `L = min(SRC_LEN, 15)` (R108). -/
def hdrDecLen (s : State) : Nat := min s.srcLen.toNat 15

/-- The fields of a header in buffer memory (R108). -/
structure HeaderFields where
  version : Nat
  palKind : Nat
  bpp : Nat
  bpc : Nat
  width : Nat
  height : Nat
  deriving DecidableEq, Repr

/-- The header at SRC: flags bits 15:2 and byte 10 are ignored, and at BPP = 0 there is no width and no height (R108). -/
def readHeader (s : State) : HeaderFields :=
  let a := s.src.toNat
  let b := memRead8 s (a + 8)
  { version := memRead s (a + 4) 2
    palKind := slice (memRead s (a + 6) 2) 1 0
    bpp := b
    bpc := memRead8 s (a + 9)
    width := if b = 0 then 0 else memRead s (a + 11) 2
    height := if b = 0 then 0 else memRead s (a + 13) 2 }

/-- Checks 1 and 2 of R108, which read no memory. -/
def hdrDecFirstChecks (p : Params) (s : State) : List Check :=
  [ ⟨beyondTop p s.src.toNat (hdrDecLen s), .addressRange, 1⟩,
    ⟨decide (s.srcLen.toNat < 4), .truncatedInput, 4⟩ ]

/-- Checks 3 to 6 of R108, on the bytes read. -/
def hdrDecChecks (s : State) : List Check :=
  [ ⟨decide (memRead s s.src.toNat 4 ≠ magicUimg), .badMagic, memRead s s.src.toNat 4⟩,
    ⟨decide (s.srcLen.toNat < 11), .truncatedInput, 11⟩,
    ⟨decide ((readHeader s).bpp ≠ 0) && decide (s.srcLen.toNat < 15), .truncatedInput, 15⟩ ] ++
    headerChecks (readHeader s).bpp (readHeader s).bpc (readHeader s).palKind (readHeader s).width

/-- CFG with BPP, BPC and PALKIND written and every other bit kept (R108, R109). -/
def cfgWithHeader (cfg : Word) (h : HeaderFields) : Word :=
  (cfg &&& 0xFCFF0000#32) ||| BitVec.ofNat 32 (h.bpp ||| (h.bpc <<< 8) ||| (h.palKind <<< 24))

/-- The registers HDR_DEC writes on success, RESULT_LEN apart (R108). -/
def loadHeader (s : State) (h : HeaderFields) : State :=
  { s with
    cfg := cfgWithHeader s.cfg h
    version := BitVec.ofNat 32 h.version
    dim := BitVec.ofNat 32 ((h.height <<< 16) ||| h.width) }

/-- HDR_DEC (R108) with the given parameters. On any error none of CFG, DIM or VERSION changes. -/
def execHdrDecWith (p : Params) (s : State) : Result :=
  match firstFailure (hdrDecFirstChecks p s) with
  | some e => .next (raise e s)
  | none =>
    if touchesWindow s s.src.toNat (hdrDecLen s) then .refused .sideEffectMemory
    else
      match firstFailure (hdrDecChecks s) with
      | some e => .next (raise e s)
      | none => .next (finish (headerLen (readHeader s).bpp) (loadHeader s (readHeader s)))

/-- HDR_DEC (R108). -/
def execHdrDec (s : State) : Result := execHdrDecWith Config.params s

end Sys2Proof.Machine
end

