-- ==== Sys2Proof/Machine/Control.lean ====
section
/-!
DEFINITION. The control command NOP (45_container R112).
-/

namespace Sys2Proof.Machine

/-- NOP (R112): RESULT_LEN 0 and a clean end, which is how a host clears an error status. -/
def execNop (s : State) : Result := .next (finish 0 s)

end Sys2Proof.Machine
end

