-- ==== Sys2Proof/Machine/Fixed.lean ====
section
/-!
DEFINITION. The fixed-chunky pixel packer (44_fixed).
-/

namespace Sys2Proof.Machine

/-- Checks 1 and 2 of R97: there is no width check. -/
def fixedChecks (s : State) : List Check :=
  [ depthCheck pixelDepths (cfgBpp s),
    ⟨!legalFixedPair (cfgBpp s) (sext8 (cfgBpc s)), .configurationError, (cfgBpc s <<< 8) ||| cfgBpp s⟩ ]

/-- Bytes of a pixel in its grid: an index, or an R, G, B, A sample (R45, R96). -/
def gridBytes (b : Nat) : Nat := if b ≤ 8 then 1 else 4

/-- Bytes of a pixel in its chunk (R96, R97). -/
def chunkBytes (b : Nat) : Nat := if b ≤ 8 then 1 else b / 8

/-- Sample byte `c` (0 R, 1 G, 2 B, 3 A) of pixel `q` of a truecolor grid at SRC (R45). -/
def srcSample (s : State) (q c : Nat) : Nat := memRead8 s (s.src.toNat + 4 * q + c)

/-- The RGB565 word (30_encoding R62, 44_fixed R101). -/
def rgb565Word (p : Params) (r g b : Nat) : Nat :=
  (reduce565 p 5 r <<< 11) ||| (reduce565 p 6 g <<< 5) ||| reduce565 p 5 b

/-- The chunk of pixel `q` (R101); the alpha byte is opaque where the samples carry none (R99). -/
def fixedChunk (p : Params) (s : State) (q : Nat) : Nat :=
  let b := cfgBpp s
  if b ≤ 8 then srcIndex s q
  else if b = 16 then rgb565Word p (srcSample s q 0) (srcSample s q 1) (srcSample s q 2)
  else if b = 24 then (srcSample s q 0 <<< 16) ||| (srcSample s q 1 <<< 8) ||| srcSample s q 2
  else
    ((if cfgSrcAlpha s = 1 then srcSample s q 3 else 0xFF) <<< 24) |||
      (srcSample s q 0 <<< 16) ||| (srcSample s q 1 <<< 8) ||| srcSample s q 2

/-- A sample as a four-byte item in the order R, G, B, A (R102). -/
def rgbaItem (r g b a : Nat) : Nat := (r <<< 24) ||| (g <<< 16) ||| (b <<< 8) ||| a

/-- The grid item of the chunk of pixel `q` (R102, R100). -/
def fixedPixel (s : State) (q : Nat) : Nat :=
  let b := cfgBpp s
  let byte := fun c => memRead8 s (s.src.toNat + chunkBytes b * q + c)
  if b ≤ 8 then srcIndex s q
  else if b = 16 then
    let w := memRead s (s.src.toNat + 2 * q) 2
    rgbaItem (upscale 5 (slice w 15 11)) (upscale 6 (slice w 10 5)) (upscale 5 (slice w 4 0)) 0xFF
  else if b = 24 then rgbaItem (byte 0) (byte 1) (byte 2) 0xFF
  else rgbaItem (byte 1) (byte 2) (byte 3) (byte 0)

/-- The data check of R101 and R102: BPP ≤ 8 only, and only with `INDEX_CHECK`. -/
def fixedBadPixel (p : Params) (s : State) : Option Nat :=
  if cfgBpp s ≤ 8 ∧ p.indexCheck = true then firstBadIndex s (pixelCount s) (cfgBpp s) else none

/-- PIX_ENC_FIXED (R101) as a transform. -/
def pixEncFixed (p : Params) (s : State) : Transform :=
  { config := fixedChecks s
    inLen := gridBytes (cfgBpp s) * pixelCount s
    width := chunkBytes (cfgBpp s)
    count := pixelCount s
    item := fixedChunk p s
    badPixel := fixedBadPixel p s }

/-- PIX_DEC_FIXED (R102) as a transform. -/
def pixDecFixed (p : Params) (s : State) : Transform :=
  { config := fixedChecks s
    inLen := chunkBytes (cfgBpp s) * pixelCount s
    width := gridBytes (cfgBpp s)
    count := pixelCount s
    item := fixedPixel s
    badPixel := fixedBadPixel p s }

/-- PIX_ENC_FIXED (R101) with the given parameters. -/
def execPixEncFixedWith (p : Params) (s : State) : Result :=
  runTransform p (pixEncFixed p s) s

/-- PIX_ENC_FIXED (R101). -/
def execPixEncFixed (s : State) : Result := execPixEncFixedWith Config.params s

/-- PIX_DEC_FIXED (R102) with the given parameters. -/
def execPixDecFixedWith (p : Params) (s : State) : Result :=
  runTransform p (pixDecFixed p s) s

/-- PIX_DEC_FIXED (R102). -/
def execPixDecFixed (s : State) : Result := execPixDecFixedWith Config.params s

end Sys2Proof.Machine
end

