-- ==== Sys2Proof/Machine/Packed.lean ====
section
/-!
DEFINITION. The packed sub-byte pixel codec (43_packed).
-/

namespace Sys2Proof.Machine

/-- Checks 1 to 3 of R92. -/
def packedChecks (s : State) : List Check :=
  [ depthCheck pixelDepths (cfgBpp s),
    ⟨!([1, 2, 4].contains (cfgBpp s)), .configurationError, cfgBpp s⟩,
    widthCheck s ]

/-- `ppc = 8 / b`, the pixels of a chunk (R92). -/
def pixelsPerChunk (b : Nat) : Nat := 8 / b

/-- Byte `k`: its pixels in order, the first most significant (R93, R38). -/
def packedByte (b : Nat) (idx : Nat → Nat) (k : Nat) : Nat :=
  (List.range (pixelsPerChunk b)).foldl (fun x m => (x <<< b) ||| idx (k * pixelsPerChunk b + m)) 0

/-- Pixel `m` of a packed byte (R94). -/
def packedPixel (b byte m : Nat) : Nat := (byte >>> (8 - b * (m + 1))) &&& mask b

/-- PIX_ENC_PACKED (R93) as a transform. The data check does not depend on `INDEX_CHECK`. -/
def pixEncPacked (s : State) : Transform :=
  let b := cfgBpp s
  { config := packedChecks s
    inLen := pixelCount s
    width := 1
    count := pixelCount s / pixelsPerChunk b
    item := packedByte b (srcIndex s)
    badPixel := firstBadIndex s (pixelCount s) b }

/-- PIX_DEC_PACKED (R94) as a transform. Item `k·ppc + m` is pixel `m` of byte `k`. -/
def pixDecPacked (s : State) : Transform :=
  let b := cfgBpp s
  { config := packedChecks s
    inLen := pixelCount s * b / 8
    width := 1
    count := pixelCount s
    item := fun q =>
      packedPixel b (memRead8 s (s.src.toNat + q / pixelsPerChunk b)) (q % pixelsPerChunk b)
    badPixel := none }

/-- PIX_ENC_PACKED (R93) with the given parameters. -/
def execPixEncPackedWith (p : Params) (s : State) : Result := runTransform p (pixEncPacked s) s

/-- PIX_ENC_PACKED (R93). -/
def execPixEncPacked (s : State) : Result := execPixEncPackedWith Config.params s

/-- PIX_DEC_PACKED (R94) with the given parameters. -/
def execPixDecPackedWith (p : Params) (s : State) : Result := runTransform p (pixDecPacked s) s

/-- PIX_DEC_PACKED (R94). -/
def execPixDecPacked (s : State) : Result := execPixDecPackedWith Config.params s

end Sys2Proof.Machine
end

