-- ==== Sys2Proof/Machine/Palette.lean ====
section
/-!
DEFINITION. The palette register encoder and decoder (41_palette), over the word layouts of 30_encoding R58, R59 and R60.
-/

namespace Sys2Proof.Machine

/-- The palette variant, selected by the opcode (30_encoding R52, D24). -/
inductive PalVariant where
  | ste
  | tt
  | falcon
  deriving DecidableEq, Repr

/-- The channels of a colour. -/
inductive Channel where
  | r
  | g
  | b
  deriving DecidableEq, Repr

/-- The fields of a layout that splits each channel: `hi` is `*321` (STE) or `*765432` (Falcon), `lo` is `*0` or `*10`. -/
inductive SplitField where
  | hi (c : Channel)
  | lo (c : Channel)
  deriving DecidableEq, Repr

/-- STE_LAYOUT (R58): `x0` above `x321` in each nibble (D13). -/
def steLayout : List (BitField SplitField) :=
  [ ⟨.lo .r, 11, 1⟩, ⟨.hi .r, 8, 3⟩,
    ⟨.lo .g, 7, 1⟩, ⟨.hi .g, 4, 3⟩,
    ⟨.lo .b, 3, 1⟩, ⟨.hi .b, 0, 3⟩ ]

/-- TT_LAYOUT (R59). -/
def ttLayout : List (BitField Channel) :=
  [ ⟨.r, 8, 4⟩, ⟨.g, 4, 4⟩, ⟨.b, 0, 4⟩ ]

/-- FALCON_LAYOUT (R60): bytes R, G, unused, B. -/
def falconLayout : List (BitField SplitField) :=
  [ ⟨.hi .r, 26, 6⟩, ⟨.lo .r, 24, 2⟩,
    ⟨.hi .g, 18, 6⟩, ⟨.lo .g, 16, 2⟩,
    ⟨.hi .b, 2, 6⟩, ⟨.lo .b, 0, 2⟩ ]

/-- The legal PALBITS values of a variant (R78, C1). -/
def legalPalBits : PalVariant → List Nat
  | .ste => [9, 12]
  | .tt => [9, 12]
  | .falcon => [9, 12, 18, 24]

/-- The bytes of a palette word, W in R79. -/
def palWordBytes : PalVariant → Nat
  | .ste => 2
  | .tt => 2
  | .falcon => 4

/-- `C = 2^BPP` (R46, R79). -/
def palCount (s : State) : Nat := 2 ^ cfgBpp s

/-- `n = PALBITS / 3` (R74). -/
def palDepth (s : State) : Nat := cfgPalBits s / 3

/-- Checks 1 to 3 of R79. -/
def paletteChecks (v : PalVariant) (s : State) : List Check :=
  [ depthCheck paletteDepths (cfgBpp s),
    ⟨decide (8 < cfgBpp s) || (decide (v = .ste) && decide (4 < cfgBpp s)), .configurationError, cfgBpp s⟩,
    ⟨!(legalPalBits v).contains (cfgPalBits s), .invalidPaletteBits, cfgPalBits s⟩ ]

/-- The offset of a channel in a colour-table entry (R46). -/
def channelIndex : Channel → Nat
  | .r => 0
  | .g => 1
  | .b => 2

/-- A channel of colour-table entry `k` at SRC (R46). -/
def srcChannel (s : State) (k : Nat) (c : Channel) : Nat :=
  memRead8 s (s.src.toNat + 3 * k + channelIndex c)

/-- A colour-table entry as a three-byte item, R first (R84, R85, R86). -/
def rgbItem (out : Channel → Nat) : Nat := (out .r <<< 16) ||| (out .g <<< 8) ||| out .b

/-- The transform of an encode command: C entries of 3 bytes to C words of W bytes (R79). -/
def palEncTransform (v : PalVariant) (word : Nat → (Channel → Nat) → Nat) (s : State) : Transform :=
  { config := paletteChecks v s
    inLen := 3 * palCount s
    width := palWordBytes v
    count := palCount s
    item := fun k => word (palDepth s) (srcChannel s k)
    badPixel := none }

/-- The transform of a decode command: C words of W bytes to C entries of 3 bytes (R79). -/
def palDecTransform (v : PalVariant) (chan : Nat → Nat → Channel → Nat) (s : State) : Transform :=
  { config := paletteChecks v s
    inLen := palWordBytes v * palCount s
    width := 3
    count := palCount s
    item := fun k =>
      let w := memRead s (s.src.toNat + palWordBytes v * k) (palWordBytes v)
      rgbItem (fun c => upscale (palDepth s) (chan (palDepth s) w c))
    badPixel := none }

/-- The STE word of a colour at `n` bits a channel (R80). -/
def steWord (n : Nat) (colour : Channel → Nat) : Nat :=
  bitPack steLayout fun
    | .hi c => if n = 4 then quantise n (colour c) >>> 1 else quantise n (colour c)
    | .lo c => if n = 4 then quantise n (colour c) &&& 1 else 0

/-- The TT word of a colour (R81). -/
def ttWord (n : Nat) (colour : Channel → Nat) : Nat :=
  bitPack ttLayout fun c => quantise n (colour c) <<< (4 - n)

/-- The Falcon long of a colour (R82). -/
def falconWord (n : Nat) (colour : Channel → Nat) : Nat :=
  bitPack falconLayout fun
    | .hi c =>
      if n = 8 then quantise n (colour c) >>> 2
      else if n = 6 then quantise n (colour c)
      else quantise n (colour c) <<< (6 - n)
    | .lo c => if n = 8 then quantise n (colour c) &&& 3 else 0

/-- The n-bit value of a channel of an STE word (R84). -/
def steChannel (n w : Nat) (c : Channel) : Nat :=
  if n = 4 then (bitUnpack steLayout w (.hi c) <<< 1) ||| bitUnpack steLayout w (.lo c)
  else bitUnpack steLayout w (.hi c)

/-- The n-bit value of a channel of a TT word (R85). -/
def ttChannel (n w : Nat) (c : Channel) : Nat := bitUnpack ttLayout w c >>> (4 - n)

/-- The n-bit value of a channel of a Falcon long (R86). -/
def falconChannel (n w : Nat) (c : Channel) : Nat :=
  if n = 8 then (bitUnpack falconLayout w (.hi c) <<< 2) ||| bitUnpack falconLayout w (.lo c)
  else if n = 6 then bitUnpack falconLayout w (.hi c)
  else bitUnpack falconLayout w (.hi c) >>> (6 - n)

/-- PAL_ENC_STE (R80) as a transform. -/
def palEncSte (s : State) : Transform := palEncTransform .ste steWord s

/-- PAL_ENC_TT (R81) as a transform. -/
def palEncTt (s : State) : Transform := palEncTransform .tt ttWord s

/-- PAL_ENC_FALCON (R82) as a transform. -/
def palEncFalcon (s : State) : Transform := palEncTransform .falcon falconWord s

/-- PAL_DEC_STE (R84) as a transform. -/
def palDecSte (s : State) : Transform := palDecTransform .ste steChannel s

/-- PAL_DEC_TT (R85) as a transform. -/
def palDecTt (s : State) : Transform := palDecTransform .tt ttChannel s

/-- PAL_DEC_FALCON (R86) as a transform. -/
def palDecFalcon (s : State) : Transform := palDecTransform .falcon falconChannel s

/-- PAL_ENC_STE (R80) with the given parameters. -/
def execPalEncSteWith (p : Params) (s : State) : Result := runTransform p (palEncSte s) s

/-- PAL_ENC_STE (R80). -/
def execPalEncSte (s : State) : Result := execPalEncSteWith Config.params s

/-- PAL_ENC_TT (R81) with the given parameters. -/
def execPalEncTtWith (p : Params) (s : State) : Result := runTransform p (palEncTt s) s

/-- PAL_ENC_TT (R81). -/
def execPalEncTt (s : State) : Result := execPalEncTtWith Config.params s

/-- PAL_ENC_FALCON (R82) with the given parameters. -/
def execPalEncFalconWith (p : Params) (s : State) : Result := runTransform p (palEncFalcon s) s

/-- PAL_ENC_FALCON (R82). -/
def execPalEncFalcon (s : State) : Result := execPalEncFalconWith Config.params s

/-- PAL_DEC_STE (R84) with the given parameters. -/
def execPalDecSteWith (p : Params) (s : State) : Result := runTransform p (palDecSte s) s

/-- PAL_DEC_STE (R84). -/
def execPalDecSte (s : State) : Result := execPalDecSteWith Config.params s

/-- PAL_DEC_TT (R85) with the given parameters. -/
def execPalDecTtWith (p : Params) (s : State) : Result := runTransform p (palDecTt s) s

/-- PAL_DEC_TT (R85). -/
def execPalDecTt (s : State) : Result := execPalDecTtWith Config.params s

/-- PAL_DEC_FALCON (R86) with the given parameters. -/
def execPalDecFalconWith (p : Params) (s : State) : Result := runTransform p (palDecFalcon s) s

/-- PAL_DEC_FALCON (R86). -/
def execPalDecFalcon (s : State) : Result := execPalDecFalconWith Config.params s

end Sys2Proof.Machine
end

