-- ==== Sys2Proof/Machine/Planar.lean ====
section
/-!
DEFINITION. The bitplane interleaver (42_planar).
-/

namespace Sys2Proof.Machine

/-- Checks 1 to 3 of R87. -/
def planarChecks (s : State) : List Check :=
  [ depthCheck pixelDepths (cfgBpp s),
    ⟨[16, 24, 32].contains (cfgBpp s), .configurationError, cfgBpp s⟩,
    widthCheck s ]

/-- Plane `j` of run `g`: bit `15 − i` is bit `j` of pixel `16g + i` (R88, R38). -/
def planeWord (idx : Nat → Nat) (g j : Nat) : Nat :=
  (List.range 16).foldl (fun w i => w ||| (((idx (16 * g + i) >>> j) &&& 1) <<< (15 - i))) 0

/-- The index of pixel `i` of a run whose plane words are `w` (R89). -/
def pixelOfPlanes (b : Nat) (w : Nat → Nat) (i : Nat) : Nat :=
  (List.range b).foldl (fun x j => x ||| (((w j >>> (15 - i)) &&& 1) <<< j)) 0

/-- PIX_ENC_PLANAR (R88) as a transform. Item `g·b + j` is plane `j` of run `g`. The data check is there only with
`INDEX_CHECK` (R90). -/
def pixEncPlanar (p : Params) (s : State) : Transform :=
  let b := cfgBpp s
  { config := planarChecks s
    inLen := pixelCount s
    width := 2
    count := pixelCount s / 16 * b
    item := fun t => planeWord (srcIndex s) (t / b) (t % b)
    badPixel := if p.indexCheck then firstBadIndex s (pixelCount s) b else none }

/-- PIX_DEC_PLANAR (R89) as a transform. Item `16g + i` is pixel `i` of run `g`. -/
def pixDecPlanar (s : State) : Transform :=
  let b := cfgBpp s
  { config := planarChecks s
    inLen := pixelCount s * b / 8
    width := 1
    count := pixelCount s
    item := fun q =>
      pixelOfPlanes b (fun j => memRead s (s.src.toNat + 2 * (q / 16 * b + j)) 2) (q % 16)
    badPixel := none }

/-- PIX_ENC_PLANAR (R88) with the given parameters. -/
def execPixEncPlanarWith (p : Params) (s : State) : Result :=
  runTransform p (pixEncPlanar p s) s

/-- PIX_ENC_PLANAR (R88). -/
def execPixEncPlanar (s : State) : Result := execPixEncPlanarWith Config.params s

/-- PIX_DEC_PLANAR (R89) with the given parameters. -/
def execPixDecPlanarWith (p : Params) (s : State) : Result := runTransform p (pixDecPlanar s) s

/-- PIX_DEC_PLANAR (R89). -/
def execPixDecPlanar (s : State) : Result := execPixDecPlanarWith Config.params s

end Sys2Proof.Machine
end

