-- ==== Sys2Proof/Machine/HostBus.lean ====
section
/-!
DEFINITION. The host's side of the machine: the register block (10_state R16 to R19), accesses to buffer memory (20_memory R35,
R47), reset (70 R128), the engine's step (60_exceptions R115), and which of host and engine moves next (log entry 4).
-/

namespace Sys2Proof.Machine

/-! ### The register block -/

/-- Register `k` of a bank that has `BF_FIELDS` registers; the offset of one that the instance lacks is reserved. -/
def bankRegAt (p : Params) (reg : Fin 8 → Reg) (k : Nat) : Reg :=
  if k < p.bfFields.val then reg (Fin.ofNat 8 k) else .reserved

/-- The register at a byte offset of the block (R16). -/
def regAt (p : Params) (offset : Nat) : Reg :=
  if offset = 0x00 then .cmd
  else if offset = 0x04 then .status
  else if offset = 0x08 then .cfg
  else if offset = 0x0C then .dim
  else if offset = 0x10 then .src
  else if offset = 0x14 then .srcLen
  else if offset = 0x18 then .dst
  else if offset = 0x1C then .resultLen
  else if offset = 0x20 then .version
  else if offset = 0x24 then .errInfo
  else if offset = 0x28 then .bfWord
  else if 0x30 ≤ offset ∧ offset < 0x50 then bankRegAt p .bfDesc ((offset - 0x30) / 4)
  else if 0x50 ≤ offset ∧ offset < 0x70 then bankRegAt p .bfVal ((offset - 0x50) / 4)
  else .reserved

/-- The host address of an offset of the block (R16). -/
def regAddress (p : Params) (offset : Nat) : Nat := p.regBase + offset

/-- Whether an access is one the block defines: 32 bits, at a multiple of 4, inside the 128 bytes (R16, R17). -/
def legalAccess (bits offset : Nat) : Bool :=
  decide (bits = 32) && decide (offset % 4 = 0) && decide (offset < 128)

/-- The bits of a register that a host write stores: "A write of a reserved bit inside a register is ignored" (R17); CMD stores
every bit (R19); a read-only register and a reserved offset store none. -/
def writeMask : Reg → Word
  | .cmd => 0xFFFFFFFF
  | .status => 0
  | .cfg => 0x07FFFFFF
  | .dim => 0xFFFFFFFF
  | .src => 0xFFFFFFFF
  | .srcLen => 0xFFFFFFFF
  | .dst => 0xFFFFFFFF
  | .resultLen => 0
  | .version => 0x0000FFFF
  | .errInfo => 0
  | .bfWord => 0xFFFFFFFF
  | .bfDesc _ => 0x00003F1F
  | .bfVal _ => 0xFFFFFFFF
  | .reserved => 0

/-- The content of a register (R16); a reserved offset reads 0 (R17). -/
def regValue (s : State) : Reg → Word
  | .cmd => s.cmd
  | .status => s.status
  | .cfg => s.cfg
  | .dim => s.dim
  | .src => s.src
  | .srcLen => s.srcLen
  | .dst => s.dst
  | .resultLen => s.resultLen
  | .version => s.version
  | .errInfo => s.errInfo
  | .bfWord => s.bfWord
  | .bfDesc k => bankGet s.bfDesc k
  | .bfVal k => bankGet s.bfVal k
  | .reserved => 0

/-- A host write of a register while BUSY = 0 (R17, R19): a write to CMD issues a command. -/
def writeReg (s : State) (r : Reg) (v : Word) : State :=
  match r with
  | .cmd => issue s v
  | .status => s
  | .cfg => { s with cfg := v &&& writeMask .cfg }
  | .dim => { s with dim := v }
  | .src => { s with src := v }
  | .srcLen => { s with srcLen := v }
  | .dst => { s with dst := v }
  | .resultLen => s
  | .version => { s with version := v &&& writeMask .version }
  | .errInfo => s
  | .bfWord => { s with bfWord := v }
  | .bfDesc k => { s with bfDesc := bankSet s.bfDesc k (v &&& writeMask (.bfDesc k)) }
  | .bfVal k => { s with bfVal := bankSet s.bfVal k v }
  | .reserved => s

/-- The command the engine is running or about to run, if PEND holds one of the opcode map. -/
def running (s : State) : Option Instr := s.pend.bind decode

/-- Whether the running command writes a register (R18): RESULT_LEN and ERR_INFO always; CFG, DIM and VERSION for HDR_DEC;
BF_WORD for BF_PACK; BF_VALk for BF_UNPACK. -/
def runningWrites (i : Option Instr) : Reg → Bool
  | .resultLen => true
  | .errInfo => true
  | .cfg => decide (i = some .hdrDec)
  | .dim => decide (i = some .hdrDec)
  | .version => decide (i = some .hdrDec)
  | .bfWord => decide (i = some .bfPack)
  | .bfVal _ => decide (i = some .bfUnpack)
  | _ => false

/-- Records a value the host's read returned. Log entry 5 (DESIGN CHOICE, safe). -/
def recordRead (v : Word) (s : State) : State := { s with readLog := v :: s.readLog }

/-- A host read of a register (R17, R18): no side effect on the block; while BUSY = 1 a register the running command writes
reads as an unspecified value, and every other register as its
value. Log entries 2 (DESIGN CHOICE, safe), 9 (DEDUCED, unsafe: BF_WORD, BF_VALk and VERSION under other commands) and 12
(DEDUCED, unsafe: a read after the engine's step and before one of BUSY = 0). -/
def readReg (s : State) (r : Reg) : State :=
  if busy s && runningWrites (running s) r then
    { recordRead (Config.busyRead s.draws) s with draws := s.draws + 1 }
  else recordRead (regValue s r) s

/-- A register write event (R17, R18): refused where the access is not defined, ignored while BUSY = 1. -/
def hostWrite (p : Params) (s : State) (bits offset : Nat) (v : Word) : Result :=
  if legalAccess bits offset then
    .next (if busy s then s else writeReg s (regAt p offset) v)
  else .refused (.badRegisterAccess offset)

/-- A register read event. -/
def hostRead (p : Params) (s : State) (bits offset : Nat) : Result :=
  if legalAccess bits offset then .next (readReg s (regAt p offset))
  else .refused (.badRegisterAccess offset)

/-! ### Buffer memory -/

/-- The transform of a command that writes buffer memory; `none` for NOP, BF_PACK, BF_UNPACK and HDR_DEC, which write none. -/
def transformOf (i : Instr) (s : State) (p : Params := Config.params) : Option Transform :=
  match i with
  | .nop => none
  | .palEncSte => some (palEncSte s)
  | .palEncTt => some (palEncTt s)
  | .palEncFalcon => some (palEncFalcon s)
  | .palDecSte => some (palDecSte s)
  | .palDecTt => some (palDecTt s)
  | .palDecFalcon => some (palDecFalcon s)
  | .pixEncPlanar => some (pixEncPlanar p s)
  | .pixEncPacked => some (pixEncPacked s)
  | .pixEncFixed => some (pixEncFixed p s)
  | .pixDecPlanar => some (pixDecPlanar s)
  | .pixDecPacked => some (pixDecPacked s)
  | .pixDecFixed => some (pixDecFixed p s)
  | .bfPack => none
  | .bfUnpack => none
  | .hdrEnc => some (hdrEnc s)
  | .hdrDec => none

/-- `N·b/8` bytes, with a last part of a byte counted as a byte; it is a whole number once the width check passes (42_planar R87,
43_packed R92). Log entry 7 (DEDUCED, safe). -/
def bitBytes (n b : Nat) : Nat := (n * b + 7) / 8

/-- The bytes of `n` chunks of the fixed-chunky formats; no length where R97's table gives none. -/
def fixedChunkLen (n b : Nat) : Nat :=
  if b ≤ 8 then n else if b = 16 then 2 * n else if b = 24 then 3 * n else if b = 32 then 4 * n else 0

/-- The bytes of the grid of the fixed-chunky formats (R97). -/
def fixedGridLen (n b : Nat) : Nat :=
  if b ≤ 8 then n else if b = 16 ∨ b = 24 ∨ b = 32 then 4 * n else 0

/-- The input and output lengths that a command's rule defines (20_memory R42 and the table after R46; 41_palette R79, 42_planar
R87, 43_packed R92, 44_fixed R97, 45_container R107, R108), whether or not its configuration is legal. Log entry 7 (DEDUCED,
safe). -/
def commandRanges (i : Instr) (s : State) : Nat × Nat :=
  let n := pixelCount s
  let b := cfgBpp s
  let c := 2 ^ b
  match i with
  | .nop => (0, 0)
  | .palEncSte => (3 * c, 2 * c)
  | .palEncTt => (3 * c, 2 * c)
  | .palEncFalcon => (3 * c, 4 * c)
  | .palDecSte => (2 * c, 3 * c)
  | .palDecTt => (2 * c, 3 * c)
  | .palDecFalcon => (4 * c, 3 * c)
  | .pixEncPlanar => (n, bitBytes n b)
  | .pixEncPacked => (n, bitBytes n b)
  | .pixEncFixed => (fixedGridLen n b, fixedChunkLen n b)
  | .pixDecPlanar => (bitBytes n b, n)
  | .pixDecPacked => (bitBytes n b, n)
  | .pixDecFixed => (fixedChunkLen n b, fixedGridLen n b)
  | .bfPack => (0, 0)
  | .bfUnpack => (0, 0)
  | .hdrEnc => (0, headerLen b)
  | .hdrDec => (hdrDecLen s, 0)

/-- The ranges of the running command; none while BUSY = 0 or for an illegal word, which has no rule (R54). -/
def runningRanges (s : State) : Nat × Nat :=
  if busy s then
    match running s with
    | some i => commandRanges i s
    | none => (0, 0)
  else (0, 0)

/-- Whether the host may not read an address now: it lies in the running command's output range (R47 item 3, R135). -/
def readBreaches (s : State) (a : Nat) : Bool :=
  rangesMeet a 1 s.dst.toNat (runningRanges s).2

/-- Whether the host may not write an address now: it lies in the running command's input or output range (R47, R135). -/
def writeBreaches (s : State) (a : Nat) : Bool :=
  rangesMeet a 1 s.src.toNat (runningRanges s).1 || rangesMeet a 1 s.dst.toNat (runningRanges s).2

/-- A host or bus-master write of one byte of buffer memory (R14, R34, R35, R41). -/
def hostMemWrite (p : Params) (s : State) (a : Nat) (b : Byte) : Result :=
  if 2 ^ p.addrBits ≤ a then .fault (.noSuchAddress a)
  else if touchesWindow s a 1 then .refused .sideEffectMemory
  else if writeBreaches s a then .refused (.rangeBreach a)
  else .next (writeBytes s a [b])

/-- A host or bus-master read of one byte of buffer memory; the byte is recorded as a word. R47 item 2 and 70 R133 promise a
command's bytes to a host only after it has read BUSY = 0; here they are seen from the engine's step on, whether or not the host
has read BUSY = 0, as R139 reads. Log entry 12 (DEDUCED, unsafe). -/
def hostMemRead (p : Params) (s : State) (a : Nat) : Result :=
  if 2 ^ p.addrBits ≤ a then .fault (.noSuchAddress a)
  else if touchesWindow s a 1 then .refused .sideEffectMemory
  else if readBreaches s a then .refused (.rangeBreach a)
  else .next (recordRead ((readByte s a).zeroExtend 32) s)

/-! ### The engine and reset -/

/-- Runs a command word (R115): a word outside the opcode map raises IllegalCommand with the word in ERR_INFO (R54). `run` is
the meaning of the commands. -/
def runWord (run : Instr → State → Result) (w : Word) (s : State) : Result :=
  match decode w with
  | some i => run i s
  | none => .next (raise ⟨.illegalCommand, w.toNat⟩ s)

/-- The engine's one step while BUSY = 1 (R115). -/
def engineStep (run : Instr → State → Result) (s : State) : Result :=
  match s.pend with
  | some w => runWord run w s
  | none => .fault .busyWithoutCommand

/-- Every register at its reset value and PEND invalid (R128); buffer memory is given, and what is the host's or the platform's
stays. -/
def resetWith (s : State) (mem : List Host.Cell) (draws : Nat) : State :=
  { State.reset with
    mem := mem, agenda := s.agenda, readLog := s.readLog, draws := draws, windows := s.windows }

/-- Reset of the instance (R128). Where no command is pending buffer memory is unchanged; a running command is abandoned, and
each byte it would have written holds its old or its new value. A command the model refuses to run it also refuses to abandon.
Log entry 9 (DEDUCED, safe). -/
def resetBlock (run : Instr → State → Result) (s : State) : Result :=
  match (if busy s then s.pend else none) with
  | none => .next (resetWith s s.mem s.draws)
  | some w =>
    match runWord run w s with
    | .next t => .next (resetWith s (memMix t.draws s.mem t.mem) (t.draws + 1))
    | .fault f => .fault f
    | .refused r => .refused r

/-! ### Who moves next -/

/-- One host event, taken off the agenda already. The marks `wait` and `engine` are `advance`'s. -/
def hostEvent (p : Params) (run : Instr → State → Result) (s : State) : HostEvent → Result
  | .write bits offset v => hostWrite p s bits offset v
  | .read bits offset => hostRead p s bits offset
  | .wait => .next (readReg s .status)
  | .memWrite a b => hostMemWrite p s a b
  | .memRead a => hostMemRead p s a
  | .reset => resetBlock run s
  | .engine => .next s

/-- One step of the machine. The engine moves while BUSY = 1 where the agenda says so (`engine`, or a WAIT that has not seen
BUSY = 0 yet) or holds nothing more; else the host's next event is taken; else the block is idle and holds its state
(60_exceptions R127). Log entry 4 (DESIGN CHOICE, safe). -/
def advance (p : Params) (run : Instr → State → Result) (s : State) : Result :=
  match s.agenda with
  | [] => if busy s then engineStep run s else .next s
  | .engine :: rest =>
    if busy s then engineStep run { s with agenda := rest } else .next { s with agenda := rest }
  | .wait :: rest =>
    if busy s then engineStep run s else hostEvent p run { s with agenda := rest } .wait
  | event :: rest => hostEvent p run { s with agenda := rest } event

/-! ### The machine with its parameters -/

/-- The meaning of every command for an instance with the given parameters (00_scope R7, 70 R129); `exec` is this at the spec's
values. -/
def execWith (p : Params) (i : Instr) (s : State) : Result :=
  match i with
  | .nop => execNop s
  | .palEncSte => execPalEncSteWith p s
  | .palEncTt => execPalEncTtWith p s
  | .palEncFalcon => execPalEncFalconWith p s
  | .palDecSte => execPalDecSteWith p s
  | .palDecTt => execPalDecTtWith p s
  | .palDecFalcon => execPalDecFalconWith p s
  | .pixEncPlanar => execPixEncPlanarWith p s
  | .pixEncPacked => execPixEncPackedWith p s
  | .pixEncFixed => execPixEncFixedWith p s
  | .pixDecPlanar => execPixDecPlanarWith p s
  | .pixDecPacked => execPixDecPackedWith p s
  | .pixDecFixed => execPixDecFixedWith p s
  | .bfPack => execBfPackWith p s
  | .bfUnpack => execBfUnpackWith p s
  | .hdrEnc => execHdrEncWith p s
  | .hdrDec => execHdrDecWith p s

/-- One step of an instance with the given parameters. -/
def stepWith (p : Params) (s : State) : Result := advance p (execWith p) s

/-- The machine of an instance with the given parameters (R7, R129). Reset is the same for all of them (R128). -/
def machine (p : Params) : Host.Core :=
  { State := State, Fault := Fault, Refusal := Refusal, step := stepWith p, reset := State.reset }

/-- The state in which the host has just issued the word `w` (R19) and the engine's step comes next. Log entry 8 (DEDUCED, safe). -/
def issueNow (s : State) (w : Word) : State :=
  { issue s w with agenda := .engine :: s.agenda }

/-! ### Host assembly (30_encoding R56, R57) -/

/-- `WRITE <REG>, <value>` at the register's offset (R56). -/
def asmWrite (offset : Nat) (v : Word) : HostEvent := .write 32 offset v

/-- `READ <REG>` (R56). -/
def asmRead (offset : Nat) : HostEvent := .read 32 offset

/-- `MEM <addr>: <bytes>`: buffer memory content in a start state (R56). -/
def asmMem (s : State) (a : Nat) (bs : List Byte) : State := writeBytes s a bs

/-- `CMD <MNEMONIC>` (R57). -/
def asmCmd (i : Instr) : HostEvent := asmWrite 0x00 (encode i)

/-- `SETCFG bpp=a, bpc=b, palbits=c, palkind=d, alpha=e` (R57); `bpc` may be negative. -/
def asmSetCfg (bpp : Nat) (bpc : Int) (palBits palKind alpha : Nat) : HostEvent :=
  asmWrite 0x08 (BitVec.ofNat 32
    ((alpha <<< 26) ||| (palKind <<< 24) ||| (palBits <<< 16) ||| ((bpc % 256).toNat <<< 8) ||| bpp))

/-- `SETDIM w, h` (R57). -/
def asmSetDim (w h : Nat) : HostEvent := asmWrite 0x0C (BitVec.ofNat 32 ((h <<< 16) ||| w))

/-- `SETDESC k, off, w` (R57). -/
def asmSetDesc (k off w : Nat) : HostEvent :=
  asmWrite (0x30 + 4 * k) (BitVec.ofNat 32 ((w <<< 8) ||| off))

end Sys2Proof.Machine
end

