-- ==== Sys2Proof/Machine/Dispatch.lean ====
section
/-!
DEFINITION. The one match over the commands: each arm is one call of the command's meaning.
-/

namespace Sys2Proof.Machine

def exec (i : Instr) (s : State) : Host.Outcome State Fault Refusal :=
  match i with
  | .nop => Sys2Proof.Machine.execNop s
  | .palEncSte => Sys2Proof.Machine.execPalEncSte s
  | .palEncTt => Sys2Proof.Machine.execPalEncTt s
  | .palEncFalcon => Sys2Proof.Machine.execPalEncFalcon s
  | .palDecSte => Sys2Proof.Machine.execPalDecSte s
  | .palDecTt => Sys2Proof.Machine.execPalDecTt s
  | .palDecFalcon => Sys2Proof.Machine.execPalDecFalcon s
  | .pixEncPlanar => Sys2Proof.Machine.execPixEncPlanar s
  | .pixEncPacked => Sys2Proof.Machine.execPixEncPacked s
  | .pixEncFixed => Sys2Proof.Machine.execPixEncFixed s
  | .pixDecPlanar => Sys2Proof.Machine.execPixDecPlanar s
  | .pixDecPacked => Sys2Proof.Machine.execPixDecPacked s
  | .pixDecFixed => Sys2Proof.Machine.execPixDecFixed s
  | .bfPack => Sys2Proof.Machine.execBfPack s
  | .bfUnpack => Sys2Proof.Machine.execBfUnpack s
  | .hdrEnc => Sys2Proof.Machine.execHdrEnc s
  | .hdrDec => Sys2Proof.Machine.execHdrDec s

end Sys2Proof.Machine
end

