-- ==== Sys2Proof/Machine/Step.lean ====
section
/-!
DEFINITION. The step of the machine, and the state whose next step runs a given command word.
-/

namespace Sys2Proof.Machine

/-- One step of the host and the block (`advance`), with the commands' meanings and the spec's parameters. -/
def step (s : State) : Host.Outcome State Fault Refusal := advance Config.params exec s

/-- `s` with the command word `w`, `nbits` wide, issued and the engine's step next (`issueNow`): the block fetches no
instruction, it runs the word latched by a CMD write (10_state R32). Log entry 8 (DEDUCED, safe). -/
def State.withFetchWord (s : State) (nbits w : Nat) : State :=
  issueNow s (BitVec.ofNat 32 (w % 2 ^ nbits))

end Sys2Proof.Machine
end

