-- ==== Sys2Proof/Safety.lean ====
section
/-!
DEFINITION. The terms that claims use: how a command ended, what a usable pair of buffers is, and the invariant of the machine.
-/

namespace Sys2Proof.Machine

/-- The command ended without an error and reports `len` in RESULT_LEN (60_exceptions R116, 10_state R26). -/
structure Succeeded (t : State) (len : Nat) : Prop where
  status : t.status = 0x00000002#32
  errInfo : t.errInfo = 0
  resultLen : t.resultLen.toNat = len
  pend : t.pend = none

/-- The command ended with error code `code` and information `info` (R117, R113). -/
structure Failed (t : State) (code info : Nat) : Prop where
  status : t.status.toNat = 6 + 256 * code
  errInfo : t.errInfo.toNat = min info 0xFFFFFFFF
  resultLen : t.resultLen = 0
  pend : t.pend = none

/-- Every register a command reads or writes, but for RESULT_LEN, ERR_INFO, STATUS and PEND, is the same in both states, and so
is what belongs to the host and the platform. -/
structure SameRegisters (s t : State) : Prop where
  cmd : t.cmd = s.cmd
  cfg : t.cfg = s.cfg
  dim : t.dim = s.dim
  src : t.src = s.src
  srcLen : t.srcLen = s.srcLen
  dst : t.dst = s.dst
  version : t.version = s.version
  bfWord : t.bfWord = s.bfWord
  bfDesc : t.bfDesc = s.bfDesc
  bfVal : t.bfVal = s.bfVal
  agenda : t.agenda = s.agenda
  readLog : t.readLog = s.readLog
  windows : t.windows = s.windows

/-- Every byte of memory outside `[a, a + n)` reads the same in both states (20_memory R44). -/
def SameOutside (s t : State) (a n : Nat) : Prop :=
  ∀ x, ¬(a ≤ x ∧ x < a + n) → readByte t x = readByte s x

/-- The buffers of a command that needs `inLen` bytes at SRC and writes `outLen` bytes at DST: the input is long enough (R24),
both ranges lie in the address space (R42), they share no byte (R43), and neither covers side-effect memory (R41). -/
structure RangesUsable (s : State) (inLen outLen : Nat) : Prop where
  enough : inLen ≤ s.srcLen.toNat
  srcTop : s.src.toNat + inLen ≤ 2 ^ 32
  dstTop : s.dst.toNat + outLen ≤ 2 ^ 32
  apart : inLen = 0 ∨ outLen = 0 ∨ s.src.toNat + inLen ≤ s.dst.toNat ∨ s.dst.toNat + outLen ≤ s.src.toNat
  srcPlain : touchesWindow s s.src.toNat inLen = false
  dstPlain : touchesWindow s s.dst.toNat outLen = false

/-- The command ends with an error and changes nothing but RESULT_LEN, ERR_INFO, STATUS and PEND: every error but a data error
(R117). -/
def CommandFails (i : Instr) (s : State) (code info : Nat) : Prop :=
  ∃ t, exec i s = .next t ∧ Failed t code info ∧ SameRegisters s t ∧ t.mem = s.mem ∧ t.draws = s.draws

/-- The command ends without an error, writes `outLen` bytes at DST and nothing else of memory, changes no register but
RESULT_LEN, ERR_INFO, STATUS and PEND, and its end state satisfies `post` (R44, R116). -/
def CommandWrites (i : Instr) (s : State) (outLen : Nat) (post : State → Prop) : Prop :=
  ∃ t, exec i s = .next t ∧ Succeeded t outLen ∧ SameRegisters s t ∧ SameOutside s t s.dst.toNat outLen ∧
    t.draws = s.draws ∧ post t

/-- A read of the register block at offset `off` finds `w`: the map of 10_state R16, offset by offset, with 0 at a reserved offset
(R17). -/
structure RegisterHolds (s : State) (off : Nat) (w : Word) : Prop where
  cmd : off = 0x00 → w = s.cmd
  status : off = 0x04 → w = s.status
  cfg : off = 0x08 → w = s.cfg
  dim : off = 0x0C → w = s.dim
  src : off = 0x10 → w = s.src
  srcLen : off = 0x14 → w = s.srcLen
  dst : off = 0x18 → w = s.dst
  resultLen : off = 0x1C → w = s.resultLen
  version : off = 0x20 → w = s.version
  errInfo : off = 0x24 → w = s.errInfo
  bfWord : off = 0x28 → w = s.bfWord
  bfDesc : ∀ k : Fin 8, off = 0x30 + 4 * k.val → w = bankGet s.bfDesc k
  bfVal : ∀ k : Fin 8, off = 0x50 + 4 * k.val → w = bankGet s.bfVal k
  reserved : off = 0x2C ∨ 0x70 ≤ off → w = 0

/-- The address lies in the input range of the command that is running (20_memory R42, R47 item 3). -/
def InRunningInput (s : State) (a : Nat) : Prop :=
  busy s = true ∧ ∃ i, s.pend = some (encode i) ∧ s.src.toNat ≤ a ∧ a < s.src.toNat + (commandRanges i s).1

/-- The address lies in the output range of the command that is running. -/
def InRunningOutput (s : State) (a : Nat) : Prop :=
  busy s = true ∧ ∃ i, s.pend = some (encode i) ∧ s.dst.toNat ≤ a ∧ a < s.dst.toNat + (commandRanges i s).2

/-- The depths of 42_planar R87 and 45_container R105. -/
abbrev PixelDepth (b : Nat) : Prop := b ∈ [1, 2, 4, 6, 8, 16, 24, 32]

/-- The depths of an indexed grid. -/
abbrev IndexDepth (b : Nat) : Prop := b ∈ [1, 2, 4, 6, 8]

/-- The raw BPC byte names a format that allows the depth (R105 check 2; R104, 44_fixed R96). -/
abbrev HeaderFormat (bpp bpc : Nat) : Prop :=
  (bpc = 0xFF ∧ bpp ∈ [1, 2, 4]) ∨ (bpc = 0 ∧ IndexDepth bpp) ∨ (bpc = 1 ∧ IndexDepth bpp) ∨
    (bpc = 2 ∧ bpp = 16) ∨ (bpc = 3 ∧ bpp = 24) ∨ (bpc = 4 ∧ bpp = 32)

/-- The palette kind does not fit the depth (R105 check 3). -/
abbrev HeaderKindBad (bpp kind : Nat) : Prop := (kind ≠ 0 ∧ 8 < bpp) ∨ (kind = 1 ∧ 4 < bpp)

/-- The width is unaligned in a planar or packed format (R105 check 4). -/
abbrev HeaderWidthBad (bpc width : Nat) : Prop := (bpc = 0 ∨ bpc = 0xFF) ∧ width % 16 ≠ 0

/-- A header that passes every check of R105. -/
abbrev HeaderValid (bpp bpc kind width : Nat) : Prop :=
  bpp = 0 ∨ (PixelDepth bpp ∧ HeaderFormat bpp bpc ∧ ¬HeaderKindBad bpp kind ∧ ¬HeaderWidthBad bpc width)

/-- The error R105 gives a header: the first check that fails, with its code and information. -/
abbrev HeaderError (bpp bpc kind width code info : Nat) : Prop :=
  bpp ≠ 0 ∧
    ((¬PixelDepth bpp ∧ code = 3 ∧ info = bpp) ∨
     (PixelDepth bpp ∧ ¬HeaderFormat bpp bpc ∧ code = 1 ∧ info = bpc * 256 + bpp) ∨
     (PixelDepth bpp ∧ HeaderFormat bpp bpc ∧ HeaderKindBad bpp kind ∧ code = 1 ∧ info = kind * 65536 + bpp) ∨
     (PixelDepth bpp ∧ HeaderFormat bpp bpc ∧ ¬HeaderKindBad bpp kind ∧ HeaderWidthBad bpc width ∧ code = 5 ∧
       info = width))

/-- Used descriptor `k` breaks (a) or (b) of 40_bitlayout R69. -/
abbrev DescriptorBad (s : State) (k : Fin 8) : Prop :=
  descWidth s k ≠ 0 ∧
    (32 < descWidth s k ∨ 32 < descOffset s k + descWidth s k ∨
      ∃ j : Fin 8, j < k ∧ descWidth s j ≠ 0 ∧ descOffset s j < descOffset s k + descWidth s k ∧
        descOffset s k < descOffset s j + descWidth s j)

/-- The layout of the descriptor registers is legal (R69). -/
abbrev LayoutLegal (s : State) : Prop := ∀ k : Fin 8, ¬DescriptorBad s k

/-- Bit `i` of the word lies in field `k` (R65). -/
abbrev InField (s : State) (k : Fin 8) (i : Nat) : Prop :=
  descOffset s k ≤ i ∧ i < descOffset s k + descWidth s k

/-- STATUS is one of the values the block ever writes: idle since reset, issued, done, or done with one of the ten errors
(10_state R20, 60_exceptions R113, R116, R117). -/
abbrev StatusLegal (w : Word) : Prop :=
  w = 0x000#32 ∨ w = 0x001#32 ∨ w = 0x002#32 ∨ w = 0x106#32 ∨ w = 0x206#32 ∨ w = 0x306#32 ∨ w = 0x406#32 ∨
    w = 0x506#32 ∨ w = 0x606#32 ∨ w = 0x706#32 ∨ w = 0x806#32 ∨ w = 0x906#32 ∨ w = 0xA06#32

/-- The invariant of the machine: STATUS is legal (so BUSY = 1 implies DONE = ERR = 0, and ERR = 1 implies DONE = 1 and
ERRCODE ≠ 0, R20); PEND is valid exactly while BUSY = 1 and then equals CMD (R19, R33); every reserved bit is 0 (R17, R21, R27,
R30); after an error RESULT_LEN is 0 and without one ERR_INFO is 0 (R26, R28); memory is in its canonical form. -/
structure Inv (s : State) : Prop where
  statusLegal : StatusLegal s.status
  pendBusy : s.pend = if busy s then some s.cmd else none
  cfgReserved : s.cfg &&& 0xF8000000#32 = 0
  versionReserved : s.version &&& 0xFFFF0000#32 = 0
  descReserved : ∀ k : Fin 8, bankGet s.bfDesc k &&& 0xFFFFC0E0#32 = 0
  errorResultLen : err s = true → s.resultLen = 0
  successErrInfo : done s = true → err s = false → s.errInfo = 0
  memWf : Memory.wf s.mem

/-- A run of `k` steps meets no fault and no refusal. -/
def SafeRun : Nat → State → Prop
  | 0, _ => True
  | k + 1, s => ∃ t, step s = .next t ∧ SafeRun k t

end Sys2Proof.Machine
end

