-- ==== Sys2Proof/Certificates/Slice0/Obligations.lean ====
section
/-!
DEFINITION. The statements for the provers, from the numbered rules of spec/. Each docstring names its rule. The terms
(`CommandWrites`, `CommandFails`, `RangesUsable`, `HeaderValid`, `Inv` and so on) are those of Sys2Proof/Safety.lean.
-/

open Sys2Proof Sys2Proof.Machine

/-! ### Encoding -/

/-- The decoder reads exactly the words of R53's opcode map, a word decodes exactly when its CMD32 fields are well formed (R51,
R52), and the encoder, written from R52's families, agrees with it. -/
def Obligations.DecodeAndEncodeAgree : Prop :=
  (∀ (w : Word) (i : Instr), decode w = some i ↔
    (w.toNat, i) ∈ [(0x00, Instr.nop), (0x11, .palEncSte), (0x12, .palEncTt), (0x13, .palEncFalcon), (0x21, .palDecSte),
      (0x22, .palDecTt), (0x23, .palDecFalcon), (0x30, .pixEncPlanar), (0x31, .pixEncPacked), (0x32, .pixEncFixed),
      (0x40, .pixDecPlanar), (0x41, .pixDecPacked), (0x42, .pixDecFixed), (0x50, .bfPack), (0x51, .bfUnpack),
      (0x60, .hdrEnc), (0x61, .hdrDec)]) ∧
  (∀ i : Instr, decode (encode i) = some i) ∧
  (∀ w : Word, (decode w).isSome = (cmdFields w).wellFormed)

/-- A few words of R53, one per family, decode to the commands they stand for, and a few illegal ones of R54 to none. -/
def Obligations.SampleWordsDecode : Prop :=
  decode 0x00000000#32 = some .nop ∧ decode 0x00000012#32 = some .palEncTt ∧
  decode 0x00000023#32 = some .palDecFalcon ∧ decode 0x00000031#32 = some .pixEncPacked ∧
  decode 0x00000042#32 = some .pixDecFixed ∧ decode 0x00000051#32 = some .bfUnpack ∧
  decode 0x00000061#32 = some .hdrDec ∧ decode 0x00000010#32 = none ∧ decode 0x00000014#32 = none ∧
  decode 0x00000130#32 = none

/-! ### Steps -/

/-- While BUSY = 1 and the engine's turn has come, the step runs the command in PEND (R115): with the host's events used up, at
the mark `engine`, or while a WAIT polls. -/
def Obligations.StepRunsThePendingCommand : Prop :=
  ∀ (s : State) (w : Word) (i : Instr), busy s = true → s.pend = some w → decode w = some i →
    (s.agenda = [] → step s = exec i s) ∧
    (∀ rest, s.agenda = .engine :: rest → step s = exec i { s with agenda := rest }) ∧
    (∀ rest, s.agenda = .wait :: rest → step s = exec i s)

/-- A word outside the opcode map of R53 ends with IllegalCommand and the word in ERR_INFO, and nothing else changes, at each of
the engine's turns (R54, R115). The turns are the model's: the host's events used up, the mark `engine`, and a WAIT that polls (log
entry 4); that PEND is then invalid is read from R33 (log entry 9). -/
def Obligations.IllegalWordRaisesIllegalCommand : Prop :=
  ∀ (s : State) (w : Word), busy s = true → s.pend = some w →
    w.toNat ∉ [0x00, 0x11, 0x12, 0x13, 0x21, 0x22, 0x23, 0x30, 0x31, 0x32, 0x40, 0x41, 0x42, 0x50, 0x51, 0x60, 0x61] →
    let ended := { s with status := 0x806#32, errInfo := w, resultLen := 0, pend := none }
    decode w = none ∧
      (s.agenda = [] → step s = .next ended) ∧
      (∀ rest, s.agenda = .engine :: rest → step s = .next { ended with agenda := rest }) ∧
      (∀ rest, s.agenda = .wait :: rest → step s = .next ended)

/-- With BUSY = 0 and no host event the block holds all its state (R127). -/
def Obligations.IdleBlockHoldsItsState : Prop :=
  ∀ s : State, busy s = false → s.agenda = [] → step s = .next s

/-- A host write to CMD while BUSY = 0 issues the command: CMD, STATUS and PEND change, nothing else (R19). -/
def Obligations.CmdWriteIssuesTheCommand : Prop :=
  ∀ (s : State) (v : Word) (rest : List HostEvent), busy s = false → s.agenda = .write 32 0x00 v :: rest →
    step s = .next { s with cmd := v, status := 0x00000001#32, pend := some v, agenda := rest }

/-- Host writes are ignored while BUSY = 1, at every register, CMD included (R18). -/
def Obligations.WritesWhileBusyAreIgnored : Prop :=
  ∀ (s : State) (off : Nat) (v : Word) (rest : List HostEvent), busy s = true → off % 4 = 0 → off < 128 →
    s.agenda = .write 32 off v :: rest → step s = .next { s with agenda := rest }

/-- A register written and read back while BUSY = 0 gives the value written, less the reserved bits; a read-only register gives
its own value and a reserved offset 0 (R17). CMD is apart: its write issues a command. The value read is that of the field R16
puts at the offset. -/
def Obligations.RegisterWriteThenRead : Prop :=
  ∀ (s : State) (off : Nat) (v : Word), busy s = false → off % 4 = 0 → 0 < off → off < 128 →
    s.agenda = [.write 32 off v, .read 32 off] →
    ∃ t u r, step s = .next t ∧ step t = .next u ∧ u.readLog = r :: s.readLog ∧ RegisterHolds t off r ∧
      r =
        (if off = 0x04 then s.status
         else if off = 0x1C then s.resultLen
         else if off = 0x24 then s.errInfo
         else if off = 0x2C ∨ 0x70 ≤ off then 0
         else if off = 0x08 then v &&& 0x07FFFFFF#32
         else if off = 0x20 then v &&& 0x0000FFFF#32
         else if 0x30 ≤ off ∧ off < 0x50 then v &&& 0x00003F1F#32
         else v)

/-- What a write to one register while BUSY = 0 does: the field that R16 puts at the offset takes the value less its reserved
bits, and nothing else of the state changes; a write to a read-only register or a reserved offset changes nothing (R16, R17). -/
def Obligations.RegisterWriteFrame : Prop :=
  ∀ (s : State) (off : Nat) (v : Word) (rest : List HostEvent), busy s = false → off % 4 = 0 → 0 < off → off < 128 →
    s.agenda = .write 32 off v :: rest →
    ∃ t, step s = .next t ∧
      (off = 0x08 → t = { s with agenda := rest, cfg := v &&& 0x07FFFFFF#32 }) ∧
      (off = 0x0C → t = { s with agenda := rest, dim := v }) ∧
      (off = 0x10 → t = { s with agenda := rest, src := v }) ∧
      (off = 0x14 → t = { s with agenda := rest, srcLen := v }) ∧
      (off = 0x18 → t = { s with agenda := rest, dst := v }) ∧
      (off = 0x20 → t = { s with agenda := rest, version := v &&& 0x0000FFFF#32 }) ∧
      (off = 0x28 → t = { s with agenda := rest, bfWord := v }) ∧
      (∀ k : Fin 8, off = 0x30 + 4 * k.val →
        t = { s with agenda := rest, bfDesc := t.bfDesc } ∧ bankGet t.bfDesc k = v &&& 0x00003F1F#32 ∧
        ∀ j : Fin 8, j ≠ k → bankGet t.bfDesc j = bankGet s.bfDesc j) ∧
      (∀ k : Fin 8, off = 0x50 + 4 * k.val →
        t = { s with agenda := rest, bfVal := t.bfVal } ∧ bankGet t.bfVal k = v ∧
        ∀ j : Fin 8, j ≠ k → bankGet t.bfVal j = bankGet s.bfVal j) ∧
      (off = 0x04 ∨ off = 0x1C ∨ off = 0x24 ∨ off = 0x2C ∨ 0x70 ≤ off → t = { s with agenda := rest })

/-- A register read changes nothing of the block: only the host's record, and the draw counter where the value is unspecified
(R17). With BUSY = 0 it records the field R16 puts at the offset, so a read of CMD the last command word accepted (R19), and draws
nothing; WAIT then records STATUS (R57). -/
def Obligations.RegisterReadsHaveNoSideEffect : Prop :=
  ∀ (s : State) (rest : List HostEvent),
    (∀ off, off % 4 = 0 → off < 128 → s.agenda = .read 32 off :: rest →
      ∃ v d, step s = .next { s with agenda := rest, readLog := v :: s.readLog, draws := d } ∧
        (busy s = false → RegisterHolds s off v ∧ d = s.draws)) ∧
    (s.agenda = .wait :: rest → busy s = false →
      step s = .next { s with agenda := rest, readLog := s.status :: s.readLog })

/-- What a read returns while BUSY = 1 (R18): a register the running command writes reads as a free value, every other register
as the field R16 puts at the offset. -/
def Obligations.ReadsWhileBusy : Prop :=
  ∀ (s : State) (off : Nat) (rest : List HostEvent), busy s = true → off % 4 = 0 → off < 128 →
    s.agenda = .read 32 off :: rest →
    ∃ t v, step s = .next t ∧ t.readLog = v :: s.readLog ∧
      if off = 0x1C ∨ off = 0x24 ∨
          ((off = 0x08 ∨ off = 0x0C ∨ off = 0x20) ∧ s.pend = some 0x61#32) ∨
          (off = 0x28 ∧ s.pend = some 0x50#32) ∨
          (0x50 ≤ off ∧ off < 0x70 ∧ s.pend = some 0x51#32)
      then v = Config.busyRead s.draws
      else RegisterHolds s off v

/-- A register access of any width other than 32 bits, not at a multiple of 4 or not inside the block is refused (R17, R137). -/
def Obligations.UndefinedRegisterAccessIsRefused : Prop :=
  ∀ (s : State) (bits off : Nat) (v : Word) (rest : List HostEvent),
    (bits ≠ 32 ∨ off % 4 ≠ 0 ∨ 128 ≤ off) →
    (s.agenda = .write bits off v :: rest → step s = .refused (.badRegisterAccess off)) ∧
    (s.agenda = .read bits off :: rest → step s = .refused (.badRegisterAccess off))

/-- A host access to a byte that exists, is plain memory and lies in no range the running command forbids (R41, R35, R47): a write
changes that byte and nothing else of the state, a read records the byte and changes nothing else, and a read after a write
records the byte written. -/
def Obligations.HostMemoryWriteThenRead : Prop :=
  ∀ (s : State) (a : Nat) (b : Byte) (rest : List HostEvent), a < 2 ^ 32 → touchesWindow s a 1 = false →
    ¬InRunningOutput s a →
    (s.agenda = .memRead a :: rest →
      step s = .next { s with agenda := rest, readLog := (readByte s a).zeroExtend 32 :: s.readLog }) ∧
    (¬InRunningInput s a → s.agenda = .memWrite a b :: rest →
      ∃ t, step s = .next t ∧ t = { s with agenda := rest, mem := t.mem } ∧ readByte t a = b ∧
        (∀ x, x ≠ a → readByte t x = readByte s x) ∧
        (∀ rest', rest = .memRead a :: rest' →
          step t = .next { t with agenda := rest', readLog := b.zeroExtend 32 :: s.readLog }))

/-- The model gives no move to a host access into the ranges of the running command, whichever command it is and whether or not its
configuration is legal: a read of its output range, or a write of its input or output range (R47, R135). -/
def Obligations.AccessToRunningRangesHasNoMove : Prop :=
  ∀ (s : State) (a : Nat) (b : Byte) (rest : List HostEvent), a < 2 ^ 32 → touchesWindow s a 1 = false →
    (InRunningOutput s a → s.agenda = .memRead a :: rest → step s = .refused (.rangeBreach a)) ∧
    (InRunningInput s a ∨ InRunningOutput s a → s.agenda = .memWrite a b :: rest →
      step s = .refused (.rangeBreach a))

/-! ### Reset -/

/-- The state after reset, as R128's table gives it. The values of the model's own fields are its choice (log entries 3, 4, 5)
and are not stated. -/
def Obligations.ResetStateIsTheTable : Prop :=
  let s := State.reset
  s.cmd = 0 ∧ s.status = 0 ∧ s.cfg = 0 ∧ s.dim = 0 ∧ s.src = 0 ∧ s.srcLen = 0 ∧ s.dst = 0 ∧ s.resultLen = 0 ∧
  s.version = 0 ∧ s.errInfo = 0 ∧ s.bfWord = 0 ∧ (∀ k, bankGet s.bfDesc k = 0) ∧ (∀ k, bankGet s.bfVal k = 0) ∧
  s.pend = none

/-- Reset sets every register to 0 and PEND to invalid from every state but one whose running command the model refuses; with no
command pending, or an illegal word, memory is unchanged, and a byte that an abandoned command would have written holds its old or
its new value (R128). Where the model refuses the running command, the reset is refused in the same way (log entry 9). -/
def Obligations.ResetFromAnyState : Prop :=
  ∀ (s : State) (rest : List HostEvent), s.agenda = .reset :: rest →
    (busy s = false ∨ s.pend = none ∨ s.windows = [] ∨ (∃ w, s.pend = some w ∧ decode w = none) ∨
      (∃ w i u, s.pend = some w ∧ decode w = some i ∧ exec i { s with agenda := rest } = .next u) →
      ∃ t, step s = .next t ∧
        t.cmd = 0 ∧ t.status = 0 ∧ t.cfg = 0 ∧ t.dim = 0 ∧ t.src = 0 ∧ t.srcLen = 0 ∧ t.dst = 0 ∧ t.resultLen = 0 ∧
        t.version = 0 ∧ t.errInfo = 0 ∧ t.bfWord = 0 ∧ (∀ k, bankGet t.bfDesc k = 0) ∧ (∀ k, bankGet t.bfVal k = 0) ∧
        t.pend = none ∧ t.agenda = rest ∧ t.readLog = s.readLog ∧ t.windows = s.windows ∧
        (busy s = false ∨ s.pend = none → t.mem = s.mem) ∧
        (∀ w, s.pend = some w → decode w = none → ∀ a, readByte t a = readByte s a) ∧
        (∀ w i u, busy s = true → s.pend = some w → decode w = some i → exec i { s with agenda := rest } = .next u →
          ∀ a, readByte t a = readByte s a ∨ readByte t a = readByte u a)) ∧
    (∀ w i r, busy s = true → s.pend = some w → decode w = some i → exec i { s with agenda := rest } = .refused r →
      step s = .refused r)

/-! ### The invariant -/

/-- The invariant holds at reset. -/
def Obligations.InvariantHoldsAtReset : Prop := Inv State.reset

/-- Every step keeps the invariant: STATUS legal, PEND valid exactly while BUSY, reserved bits 0, the error registers consistent,
memory canonical (R17, R20, R33). -/
def Obligations.EveryStepKeepsTheInvariant : Prop :=
  ∀ s t : State, Inv s → step s = .next t → Inv t

/-! ### The end of a command -/

/-- Every command ends: with no side-effect memory in the platform's map, exec answers a next state with BUSY = 0 and DONE = 1,
and without an error STATUS is 2 and ERR_INFO 0 (R115, R116, R139). -/
def Obligations.EveryCommandEnds : Prop :=
  ∀ (i : Instr) (s : State), s.windows = [] →
    ∃ t, exec i s = .next t ∧ busy t = false ∧ done t = true ∧ t.pend = none ∧
      (err t = false → t.status = 0x00000002#32 ∧ t.errInfo = 0)

/-- What an error leaves (R117): RESULT_LEN 0, STATUS 6 with a code from 1 to 10, no other register changed, memory unchanged
unless the error is IndexOutOfRange, and then unchanged outside the output range. -/
def Obligations.ErrorsChangeNothingElse : Prop :=
  ∀ (i : Instr) (s t : State), exec i s = .next t → err t = true →
    t.resultLen = 0 ∧ (∃ c, 1 ≤ c ∧ c ≤ 10 ∧ errCode t = c ∧ t.status.toNat = 6 + 256 * c) ∧ SameRegisters s t ∧
      t.pend = none ∧ (errCode t ≠ 6 → t.mem = s.mem) ∧
      (errCode t = 6 → ∃ tr, transformOf i s = some tr ∧ SameOutside s t s.dst.toNat (outLen tr))

/-- The depth check comes first: BPP 3, 5 or 7 gives UnsupportedDepth for every encode and every pixel or palette decode, whatever
else is wrong (R118). -/
def Obligations.UnsupportedDepthComesFirst : Prop :=
  ∀ (i : Instr) (s : State),
    i ∈ [.palEncSte, .palEncTt, .palEncFalcon, .palDecSte, .palDecTt, .palDecFalcon, .pixEncPlanar, .pixEncPacked,
      .pixEncFixed, .pixDecPlanar, .pixDecPacked, .pixDecFixed, .hdrEnc] →
    cfgBpp s ∈ [3, 5, 7] → CommandFails i s 3 (cfgBpp s)

/-- The length and range errors of a command with a legal configuration, in order: TruncatedInput with in_len, AddressRange 1 and
2, BufferOverlap; an empty range is never out of bounds (R24, R42, R43). -/
def Obligations.LengthErrorsInOrder : Prop :=
  ∀ (i : Instr) (s : State) (tr : Transform), transformOf i s = some tr → firstFailure tr.config = none →
    let srcOver := tr.inLen ≠ 0 ∧ 2 ^ 32 < s.src.toNat + tr.inLen
    let dstOver := outLen tr ≠ 0 ∧ 2 ^ 32 < s.dst.toNat + outLen tr
    (s.srcLen.toNat < tr.inLen → CommandFails i s 7 tr.inLen) ∧
    (tr.inLen ≤ s.srcLen.toNat → srcOver → CommandFails i s 9 1) ∧
    (tr.inLen ≤ s.srcLen.toNat → ¬srcOver → dstOver → CommandFails i s 9 2) ∧
    (tr.inLen ≤ s.srcLen.toNat → ¬srcOver → ¬dstOver →
      (∃ a, (s.src.toNat ≤ a ∧ a < s.src.toNat + tr.inLen) ∧ (s.dst.toNat ≤ a ∧ a < s.dst.toNat + outLen tr)) →
      CommandFails i s 10 0)

/-- The input and output lengths of every command (the table after R46): they are the ranges of the duty of R47 whatever the
configuration (log entry 7), and, with a legal configuration, what a memory command reads and writes. -/
def Obligations.InputAndOutputLengths : Prop :=
  (∀ s : State,
    let n := pixelCount s
    let b := cfgBpp s
    let c := 2 ^ b
    (∀ i, i ∈ [.nop, .bfPack, .bfUnpack] → commandRanges i s = (0, 0)) ∧
    (∀ i, i ∈ [.palEncSte, .palEncTt] → commandRanges i s = (3 * c, 2 * c)) ∧
    commandRanges .palEncFalcon s = (3 * c, 4 * c) ∧
    (∀ i, i ∈ [.palDecSte, .palDecTt] → commandRanges i s = (2 * c, 3 * c)) ∧
    commandRanges .palDecFalcon s = (4 * c, 3 * c) ∧
    (n * b % 8 = 0 → ∀ i, i ∈ [.pixEncPlanar, .pixEncPacked] → commandRanges i s = (n, n * b / 8)) ∧
    (n * b % 8 = 0 → ∀ i, i ∈ [.pixDecPlanar, .pixDecPacked] → commandRanges i s = (n * b / 8, n)) ∧
    (b ≤ 8 → commandRanges .pixEncFixed s = (n, n) ∧ commandRanges .pixDecFixed s = (n, n)) ∧
    (∀ k, k ∈ [2, 3, 4] → b = 8 * k →
      commandRanges .pixEncFixed s = (4 * n, k * n) ∧ commandRanges .pixDecFixed s = (k * n, 4 * n)) ∧
    commandRanges .hdrEnc s = (0, if b = 0 then 11 else 15) ∧
    commandRanges .hdrDec s = (min s.srcLen.toNat 15, 0)) ∧
  (∀ (i : Instr) (s : State) (tr : Transform), transformOf i s = some tr → firstFailure tr.config = none →
    tr.inLen = (commandRanges i s).1 ∧ outLen tr = (commandRanges i s).2 ∧
      (i ∈ [.pixEncPlanar, .pixEncPacked, .pixDecPlanar, .pixDecPacked] → pixelCount s * cfgBpp s % 8 = 0) ∧
      (i ∈ [.pixEncFixed, .pixDecFixed] → cfgBpp s ≤ 8 ∨ cfgBpp s ∈ [16, 24, 32]))

/-- A command whose checks pass and whose input or output range covers side-effect memory is refused (R41, R137). -/
def Obligations.SideEffectMemoryIsRefused : Prop :=
  (∀ (i : Instr) (s : State) (tr : Transform), transformOf i s = some tr →
    firstFailure (tr.config ++ lengthChecks Config.params s tr.inLen (outLen tr)) = none →
    (touchesWindow s s.src.toNat tr.inLen = true ∨ touchesWindow s s.dst.toNat (outLen tr) = true) →
    exec i s = .refused .sideEffectMemory) ∧
  (∀ s : State, s.src.toNat + min s.srcLen.toNat 15 ≤ 2 ^ 32 → 4 ≤ s.srcLen.toNat →
    touchesWindow s s.src.toNat (min s.srcLen.toNat 15) = true → exec .hdrDec s = .refused .sideEffectMemory)

/-- The frame of every command that writes memory, for every next state: the registers it does not name are unchanged, and so is
every byte outside the output range (R44, R117). -/
def Obligations.MemoryCommandFrame : Prop :=
  ∀ (i : Instr) (s t : State) (tr : Transform), transformOf i s = some tr → exec i s = .next t →
    SameRegisters s t ∧ SameOutside s t s.dst.toNat (outLen tr)

/-- The frame of the commands that write no memory: NOP, BF_PACK, BF_UNPACK and HDR_DEC leave every byte and every register they
do not name (R26, R33, R70, R71, R108). -/
def Obligations.RegisterCommandFrame : Prop :=
  ∀ (i : Instr) (s t : State), i ∈ [.nop, .bfPack, .bfUnpack, .hdrDec] → exec i s = .next t →
    t.mem = s.mem ∧ t.cmd = s.cmd ∧ t.src = s.src ∧ t.srcLen = s.srcLen ∧ t.dst = s.dst ∧ t.bfDesc = s.bfDesc ∧
      t.agenda = s.agenda ∧ t.readLog = s.readLog ∧ t.draws = s.draws ∧ t.windows = s.windows ∧
      (i ≠ .bfPack → t.bfWord = s.bfWord) ∧ (i ≠ .bfUnpack → t.bfVal = s.bfVal) ∧
      (i ≠ .hdrDec → t.cfg = s.cfg ∧ t.dim = s.dim ∧ t.version = s.version)

/-! ### NOP and BitLayout -/

/-- NOP, the word 0, ends, clears the error status and writes RESULT_LEN = 0; nothing else changes (R112). -/
def Obligations.NopOnlyClearsTheStatus : Prop :=
  decode 0x00000000#32 = some .nop ∧
  ∀ s : State, exec .nop s =
    .next { s with resultLen := 0, errInfo := 0, status := 0x00000002#32, pend := none }

/-- BF_PACK with a legal layout: every bit of BF_WORD is the bit of the field that covers it, or 0 (R70, R65, R67). -/
def Obligations.BfPackPlacesEveryField : Prop :=
  ∀ s : State, LayoutLegal s →
    ∃ t, exec .bfPack s = .next t ∧ Succeeded t 0 ∧ SameRegisters { s with bfWord := t.bfWord } t ∧ t.mem = s.mem ∧
      (∀ (k : Fin 8) (i : Nat), InField s k i →
        t.bfWord.getLsbD i = (bankGet s.bfVal k).getLsbD (i - descOffset s k)) ∧
      (∀ i, (∀ k : Fin 8, ¬InField s k i) → t.bfWord.getLsbD i = false)

/-- BF_UNPACK with a legal layout: value register k holds field k of BF_WORD, zero-extended, and 0 for an unused descriptor
(R71). -/
def Obligations.BfUnpackSplitsEveryField : Prop :=
  ∀ s : State, LayoutLegal s →
    ∃ t, exec .bfUnpack s = .next t ∧ Succeeded t 0 ∧ SameRegisters { s with bfVal := t.bfVal } t ∧ t.mem = s.mem ∧
      ∀ k : Fin 8, (bankGet t.bfVal k).toNat =
        s.bfWord.toNat / 2 ^ descOffset s k % 2 ^ descWidth s k

/-- An illegal layout ends BF_PACK and BF_UNPACK with ConfigurationError and the smallest illegal descriptor; with a legal one,
the empty layout and a full-width field among them, neither reports an error (R69). -/
def Obligations.IllegalLayoutNamesTheFirstDescriptor : Prop :=
  (∀ (s : State) (k : Fin 8), DescriptorBad s k → (∀ j : Fin 8, j < k → ¬DescriptorBad s j) →
    CommandFails .bfPack s 1 k.val ∧ CommandFails .bfUnpack s 1 k.val) ∧
  (∀ s : State, LayoutLegal s →
    (∃ t, exec .bfPack s = .next t ∧ err t = false) ∧ (∃ t, exec .bfUnpack s = .next t ∧ err t = false)) ∧
  (∀ s : State, (∀ k : Fin 8, descWidth s k = 0) → LayoutLegal s) ∧
  (∀ s : State, descWidth s 0 = 32 → descOffset s 0 = 0 → (∀ k : Fin 8, k ≠ 0 → descWidth s k = 0) → LayoutLegal s)

/-- Pack then unpack gives back every value cut to its field, and unpack then pack gives the word cut to the covered bits (R72). -/
def Obligations.PackAndUnpackAreInverse : Prop :=
  ∀ s : State, LayoutLegal s →
    (∀ t u, exec .bfPack s = .next t → exec .bfUnpack t = .next u →
      ∀ k : Fin 8, (bankGet u.bfVal k).toNat = (bankGet s.bfVal k).toNat % 2 ^ descWidth s k) ∧
    (∀ t u, exec .bfUnpack s = .next t → exec .bfPack t = .next u →
      ∀ i, u.bfWord.getLsbD i = true ↔ s.bfWord.getLsbD i = true ∧ ∃ k : Fin 8, InField s k i)

/-! ### Palettes -/

/-- Checks 1 to 3 of every palette command, in order (R79, R78). -/
def Obligations.PaletteChecksInOrder : Prop :=
  ∀ (i : Instr) (s : State),
    i ∈ [.palEncSte, .palEncTt, .palEncFalcon, .palDecSte, .palDecTt, .palDecFalcon] →
    let b := cfgBpp s
    let pb := cfgPalBits s
    let ste := i = .palEncSte ∨ i = .palDecSte
    let falcon := i = .palEncFalcon ∨ i = .palDecFalcon
    let depthOk := b ∈ [0, 1, 2, 4, 6, 8, 16, 24, 32]
    let countOk := b ≤ 8 ∧ (ste → b ≤ 4)
    let bitsOk := pb = 9 ∨ pb = 12 ∨ (falcon ∧ (pb = 18 ∨ pb = 24))
    (¬depthOk → CommandFails i s 3 b) ∧
    (depthOk → ¬countOk → CommandFails i s 1 b) ∧
    (depthOk → countOk → ¬bitsOk → CommandFails i s 4 pb)

/-- PAL_ENC_STE writes, for every entry, the STE word of its quantised channels: at 12 bits each nibble is the low bit above the
top three, at 9 bits it is the 3-bit value (R80, R75, R58). -/
def Obligations.PalEncSteWritesSteWords : Prop :=
  ∀ s : State, cfgBpp s ∈ [0, 1, 2, 4] → cfgPalBits s ∈ [9, 12] →
    let c := 2 ^ cfgBpp s
    let n := cfgPalBits s / 3
    let q := fun k ch => (2 * memRead8 s (s.src.toNat + 3 * k + ch) * (2 ^ n - 1) + 255) / 510
    let nibble := fun v => if n = 4 then 8 * (v % 2) + v / 2 else v
    RangesUsable s (3 * c) (2 * c) →
    CommandWrites .palEncSte s (2 * c) fun t => ∀ k, k < c →
      memRead t (s.dst.toNat + 2 * k) 2 = 256 * nibble (q k 0) + 16 * nibble (q k 1) + nibble (q k 2)

/-- PAL_ENC_TT writes each quantised channel left-aligned in its 4-bit field (R81, R75, R59). -/
def Obligations.PalEncTtWritesTtWords : Prop :=
  ∀ s : State, cfgBpp s ∈ [0, 1, 2, 4, 6, 8] → cfgPalBits s ∈ [9, 12] →
    let c := 2 ^ cfgBpp s
    let n := cfgPalBits s / 3
    let q := fun k ch => (2 * memRead8 s (s.src.toNat + 3 * k + ch) * (2 ^ n - 1) + 255) / 510
    RangesUsable s (3 * c) (2 * c) →
    CommandWrites .palEncTt s (2 * c) fun t => ∀ k, k < c →
      memRead t (s.dst.toNat + 2 * k) 2 =
        256 * (q k 0 * 2 ^ (4 - n)) + 16 * (q k 1 * 2 ^ (4 - n)) + q k 2 * 2 ^ (4 - n)

/-- PAL_ENC_FALCON writes the bytes R, G, 0, B, each quantised channel left-aligned in its byte (R82, R75, R60). -/
def Obligations.PalEncFalconWritesFalconLongs : Prop :=
  ∀ s : State, cfgBpp s ∈ [0, 1, 2, 4, 6, 8] → cfgPalBits s ∈ [9, 12, 18, 24] →
    let c := 2 ^ cfgBpp s
    let n := cfgPalBits s / 3
    let q := fun k ch => (2 * memRead8 s (s.src.toNat + 3 * k + ch) * (2 ^ n - 1) + 255) / 510
    RangesUsable s (3 * c) (4 * c) →
    CommandWrites .palEncFalcon s (4 * c) fun t => ∀ k, k < c →
      memRead8 t (s.dst.toNat + 4 * k) = q k 0 * 2 ^ (8 - n) ∧
      memRead8 t (s.dst.toNat + 4 * k + 1) = q k 1 * 2 ^ (8 - n) ∧
      memRead8 t (s.dst.toNat + 4 * k + 2) = 0 ∧
      memRead8 t (s.dst.toNat + 4 * k + 3) = q k 2 * 2 ^ (8 - n)

/-- PAL_DEC_STE writes, for every word, the upscaled value of each nibble, and ignores bits 15:12 and, at 9 bits, the top bit of
each nibble (R84, R83, R76). -/
def Obligations.PalDecSteWritesColours : Prop :=
  ∀ s : State, cfgBpp s ∈ [0, 1, 2, 4] → cfgPalBits s ∈ [9, 12] →
    let c := 2 ^ cfgBpp s
    let n := cfgPalBits s / 3
    let nibble := fun k ch => memRead s (s.src.toNat + 2 * k) 2 / 2 ^ (8 - 4 * ch) % 16
    let v := fun k ch => if n = 4 then 2 * (nibble k ch % 8) + nibble k ch / 8 else nibble k ch % 8
    RangesUsable s (2 * c) (3 * c) →
    CommandWrites .palDecSte s (3 * c) fun t => ∀ k ch, k < c → ch < 3 →
      memRead8 t (s.dst.toNat + 3 * k + ch) = (2 * v k ch * 255 + (2 ^ n - 1)) / (2 * (2 ^ n - 1))

/-- PAL_DEC_TT writes, for every word, the upscaled top n bits of each 4-bit field, and ignores bits 15:12 (R85, R83, R76). -/
def Obligations.PalDecTtWritesColours : Prop :=
  ∀ s : State, cfgBpp s ∈ [0, 1, 2, 4, 6, 8] → cfgPalBits s ∈ [9, 12] →
    let c := 2 ^ cfgBpp s
    let n := cfgPalBits s / 3
    let nibble := fun k ch => memRead s (s.src.toNat + 2 * k) 2 / 2 ^ (8 - 4 * ch) % 16
    let v := fun k ch => nibble k ch / 2 ^ (4 - n)
    RangesUsable s (2 * c) (3 * c) →
    CommandWrites .palDecTt s (3 * c) fun t => ∀ k ch, k < c → ch < 3 →
      memRead8 t (s.dst.toNat + 3 * k + ch) = (2 * v k ch * 255 + (2 ^ n - 1)) / (2 * (2 ^ n - 1))

/-- PAL_DEC_FALCON writes, for every long, the upscaled top n bits of its bytes 0, 1 and 3, and ignores byte 2 (R86, R83, R76). -/
def Obligations.PalDecFalconWritesColours : Prop :=
  ∀ s : State, cfgBpp s ∈ [0, 1, 2, 4, 6, 8] → cfgPalBits s ∈ [9, 12, 18, 24] →
    let c := 2 ^ cfgBpp s
    let n := cfgPalBits s / 3
    let byte := fun k ch => memRead8 s (s.src.toNat + 4 * k + if ch = 2 then 3 else ch)
    let v := fun k ch => byte k ch / 2 ^ (8 - n)
    RangesUsable s (4 * c) (3 * c) →
    CommandWrites .palDecFalcon s (3 * c) fun t => ∀ k ch, k < c → ch < 3 →
      memRead8 t (s.dst.toNat + 3 * k + ch) = (2 * v k ch * 255 + (2 ^ n - 1)) / (2 * (2 ^ n - 1))

/-- Encoding a decoded channel gives it back, decoding and encoding a palette word that an encoder produced gives the same word in
each variant and at each width, and decoding an encoded channel is off by at most half a step (R77). -/
def Obligations.QuantiseAndUpscaleRoundTrip : Prop :=
  (∀ n, n ∈ [3, 4, 6, 8] →
    (∀ v, v < 2 ^ n → quantise n (upscale n v) = v) ∧
    (∀ c, c < 256 → upscale n (quantise n c) ≤ c + 255 / (2 * (2 ^ n - 1)) ∧
      c ≤ upscale n (quantise n c) + 255 / (2 * (2 ^ n - 1)))) ∧
  (∀ (n : Nat) (colour : Channel → Nat), (∀ c, colour c < 256) →
    (n ∈ [3, 4] →
      steWord n (fun c => upscale n (steChannel n (steWord n colour) c)) = steWord n colour ∧
      ttWord n (fun c => upscale n (ttChannel n (ttWord n colour) c)) = ttWord n colour) ∧
    (n ∈ [3, 4, 6, 8] →
      falconWord n (fun c => upscale n (falconChannel n (falconWord n colour) c)) = falconWord n colour))

/-- Decoding an STE palette and encoding the result gives back every word cut to the bits an encoder can set: bits 11:0 at 12 bits,
the form 0RRR0GGG0BBB at 9 bits (R77, R83, R80). -/
def Obligations.StePaletteDecodeThenEncode : Prop :=
  ∀ s t u v : State, cfgBpp s ∈ [0, 1, 2, 4] → cfgPalBits s ∈ [9, 12] →
    exec .palDecSte s = .next t → err t = false →
    u.mem = t.mem → u.cfg = s.cfg → u.src = s.dst →
    exec .palEncSte u = .next v → err v = false →
    ∀ k, k < 2 ^ cfgBpp s →
      memRead v (u.dst.toNat + 2 * k) 2 =
        memRead s (s.src.toNat + 2 * k) 2 &&& (if cfgPalBits s = 12 then 0x0FFF else 0x0777)

/-! ### Pixels -/

/-- Checks 1 to 3 of both planar commands, in order (R87). -/
def Obligations.PlanarChecksInOrder : Prop :=
  ∀ (i : Instr) (s : State), i ∈ [.pixEncPlanar, .pixDecPlanar] →
    let b := cfgBpp s
    (¬PixelDepth b → CommandFails i s 3 b) ∧
    (PixelDepth b → 8 < b → CommandFails i s 1 b) ∧
    (IndexDepth b → dimWidth s % 16 ≠ 0 → CommandFails i s 5 (dimWidth s))

/-- PIX_ENC_PLANAR: bit 15 − i of plane word j of run g is bit j of pixel 16g + i (R88, R38). -/
def Obligations.PixEncPlanarInterleaves : Prop :=
  ∀ s : State, IndexDepth (cfgBpp s) → dimWidth s % 16 = 0 →
    let n := pixelCount s
    let b := cfgBpp s
    RangesUsable s n (n * b / 8) → (∀ p, p < n → memRead8 s (s.src.toNat + p) < 2 ^ b) →
    CommandWrites .pixEncPlanar s (n * b / 8) fun t => ∀ g j i, g < n / 16 → j < b → i < 16 →
      (memRead t (s.dst.toNat + 2 * (g * b + j)) 2).testBit (15 - i) =
        (memRead8 s (s.src.toNat + 16 * g + i)).testBit j

/-- PIX_DEC_PLANAR: bit j of pixel 16g + i is bit 15 − i of plane word j of run g, and every index is below 2^b (R89). -/
def Obligations.PixDecPlanarDeinterleaves : Prop :=
  ∀ s : State, IndexDepth (cfgBpp s) → dimWidth s % 16 = 0 →
    let n := pixelCount s
    let b := cfgBpp s
    RangesUsable s (n * b / 8) n →
    CommandWrites .pixDecPlanar s n fun t => ∀ g i, g < n / 16 → i < 16 →
      memRead8 t (s.dst.toNat + 16 * g + i) < 2 ^ b ∧
      ∀ j, j < b → (memRead8 t (s.dst.toNat + 16 * g + i)).testBit j =
        (memRead s (s.src.toNat + 2 * (g * b + j)) 2).testBit (15 - i)

/-- Decoding an encoded planar buffer gives back every index, which is below 2^b, and encoding a decoded one gives back every
plane byte (R91). -/
def Obligations.PlanarRoundTrip : Prop :=
  ∀ s t u v : State, u.mem = t.mem → u.cfg = s.cfg → u.dim = s.dim → u.src = s.dst →
    err t = false → err v = false →
    (exec .pixEncPlanar s = .next t → exec .pixDecPlanar u = .next v →
      ∀ p, p < pixelCount s → readByte v (u.dst.toNat + p) = readByte s (s.src.toNat + p) ∧
        memRead8 s (s.src.toNat + p) < 2 ^ cfgBpp s) ∧
    (exec .pixDecPlanar s = .next t → exec .pixEncPlanar u = .next v →
      ∀ a, a < pixelCount s * cfgBpp s / 8 → readByte v (u.dst.toNat + a) = readByte s (s.src.toNat + a))

/-- Checks 1 to 3 of both packed commands, in order (R92). -/
def Obligations.PackedChecksInOrder : Prop :=
  ∀ (i : Instr) (s : State), i ∈ [.pixEncPacked, .pixDecPacked] →
    let b := cfgBpp s
    (¬PixelDepth b → CommandFails i s 3 b) ∧
    (PixelDepth b → 4 < b → CommandFails i s 1 b) ∧
    (b ∈ [1, 2, 4] → dimWidth s % 16 ≠ 0 → CommandFails i s 5 (dimWidth s))

/-- PIX_ENC_PACKED: pixel m of byte k stands in bits 8 − b(m + 1) and up, the first pixel most significant (R93). -/
def Obligations.PixEncPackedPacks : Prop :=
  ∀ s : State, cfgBpp s ∈ [1, 2, 4] → dimWidth s % 16 = 0 →
    let n := pixelCount s
    let b := cfgBpp s
    RangesUsable s n (n * b / 8) → (∀ p, p < n → memRead8 s (s.src.toNat + p) < 2 ^ b) →
    CommandWrites .pixEncPacked s (n * b / 8) fun t => ∀ k m, k < n * b / 8 → m < 8 / b →
      memRead8 t (s.dst.toNat + k) / 2 ^ (8 - b * (m + 1)) % 2 ^ b =
        memRead8 s (s.src.toNat + k * (8 / b) + m)

/-- PIX_DEC_PACKED: pixel k·ppc + m is the b bits at 8 − b(m + 1) of byte k (R94). -/
def Obligations.PixDecPackedUnpacks : Prop :=
  ∀ s : State, cfgBpp s ∈ [1, 2, 4] → dimWidth s % 16 = 0 →
    let n := pixelCount s
    let b := cfgBpp s
    RangesUsable s (n * b / 8) n →
    CommandWrites .pixDecPacked s n fun t => ∀ k m, k < n * b / 8 → m < 8 / b →
      memRead8 t (s.dst.toNat + k * (8 / b) + m) =
        memRead8 s (s.src.toNat + k) / 2 ^ (8 - b * (m + 1)) % 2 ^ b

/-- Unpacking a packed buffer gives back every index, packing an unpacked one gives back every byte, and packing raises
IndexOutOfRange exactly when some index is at or above 2^b and no earlier check fails (R95). -/
def Obligations.PackedRoundTrip : Prop :=
  (∀ s t u v : State, u.mem = t.mem → u.cfg = s.cfg → u.dim = s.dim → u.src = s.dst →
    err t = false → err v = false →
    (exec .pixEncPacked s = .next t → exec .pixDecPacked u = .next v →
      ∀ p, p < pixelCount s → readByte v (u.dst.toNat + p) = readByte s (s.src.toNat + p)) ∧
    (exec .pixDecPacked s = .next t → exec .pixEncPacked u = .next v →
      ∀ a, a < pixelCount s * cfgBpp s / 8 → readByte v (u.dst.toNat + a) = readByte s (s.src.toNat + a))) ∧
  (∀ s : State, (∃ t, exec .pixEncPacked s = .next t ∧ err t = true ∧ errCode t = 6) ↔
    cfgBpp s ∈ [1, 2, 4] ∧ dimWidth s % 16 = 0 ∧
      RangesUsable s (pixelCount s) (pixelCount s * cfgBpp s / 8) ∧
      ∃ p, p < pixelCount s ∧ 2 ^ cfgBpp s ≤ memRead8 s (s.src.toNat + p))

/-- IndexOutOfRange at the smallest offending position, in packed mode always, in planar and fixed mode with the spec's
INDEX_CHECK = true; registers and the bytes outside the output range are unchanged (R88, R93, R101, R102, R117). -/
def Obligations.IndexOutOfRangeNamesTheFirstPixel : Prop :=
  ∀ (i : Instr) (s : State) (p : Nat),
    let n := pixelCount s
    let b := cfgBpp s
    let out := if i = .pixEncFixed ∨ i = .pixDecFixed then n else n * b / 8
    (i = .pixEncPlanar ∧ IndexDepth b ∧ dimWidth s % 16 = 0) ∨
      (i = .pixEncPacked ∧ b ∈ [1, 2, 4] ∧ dimWidth s % 16 = 0) ∨
      ((i = .pixEncFixed ∨ i = .pixDecFixed) ∧ IndexDepth b ∧ cfgBpc s = 1) →
    RangesUsable s n out → p < n → 2 ^ b ≤ memRead8 s (s.src.toNat + p) →
    (∀ q, q < p → memRead8 s (s.src.toNat + q) < 2 ^ b) →
    ∃ t, exec i s = .next t ∧ Failed t 6 p ∧ SameRegisters s t ∧ SameOutside s t s.dst.toNat out

/-- Checks 1 and 2 of both fixed commands, in order; there is no width check (R97, R96). -/
def Obligations.FixedChecksInOrder : Prop :=
  ∀ (i : Instr) (s : State), i ∈ [.pixEncFixed, .pixDecFixed] →
    let b := cfgBpp s
    let k := cfgBpc s
    let pairOk := (IndexDepth b ∧ k = 1) ∨ (b = 16 ∧ k = 2) ∨ (b = 24 ∧ k = 3) ∨ (b = 32 ∧ k = 4)
    (¬PixelDepth b → CommandFails i s 3 b) ∧
    (PixelDepth b → ¬pairOk → CommandFails i s 1 (k * 256 + b))

/-- At BPP ≤ 8 both fixed commands copy every raw index (R101, R102). -/
def Obligations.FixedIndexedCopies : Prop :=
  ∀ (i : Instr) (s : State), i ∈ [.pixEncFixed, .pixDecFixed] → IndexDepth (cfgBpp s) → cfgBpc s = 1 →
    RangesUsable s (pixelCount s) (pixelCount s) →
    (∀ p, p < pixelCount s → memRead8 s (s.src.toNat + p) < 2 ^ cfgBpp s) →
    CommandWrites i s (pixelCount s) fun t => ∀ p, p < pixelCount s →
      readByte t (s.dst.toNat + p) = readByte s (s.src.toNat + p)

/-- PIX_ENC_FIXED on a truecolor grid: RGB565 by the top bits at 16, R G B at 24, A R G B at 32 with an opaque A where the samples
carry none (R101, R98, R99, R62). -/
def Obligations.PixEncFixedTruecolor : Prop :=
  ∀ s : State,
    let n := pixelCount s
    let sample := fun p c => memRead8 s (s.src.toNat + 4 * p + c)
    (cfgBpp s = 16 → cfgBpc s = 2 → RangesUsable s (4 * n) (2 * n) →
      CommandWrites .pixEncFixed s (2 * n) fun t => ∀ p, p < n →
        memRead t (s.dst.toNat + 2 * p) 2 =
          2048 * (sample p 0 / 8) + 32 * (sample p 1 / 4) + sample p 2 / 8) ∧
    (cfgBpp s = 24 → cfgBpc s = 3 → RangesUsable s (4 * n) (3 * n) →
      CommandWrites .pixEncFixed s (3 * n) fun t => ∀ p c, p < n → c < 3 →
        memRead8 t (s.dst.toNat + 3 * p + c) = sample p c) ∧
    (cfgBpp s = 32 → cfgBpc s = 4 → RangesUsable s (4 * n) (4 * n) →
      CommandWrites .pixEncFixed s (4 * n) fun t => ∀ p, p < n →
        memRead8 t (s.dst.toNat + 4 * p) = (if cfgSrcAlpha s = 1 then sample p 3 else 255) ∧
        ∀ c, c < 3 → memRead8 t (s.dst.toNat + 4 * p + 1 + c) = sample p c)

/-- PIX_DEC_FIXED to a truecolor grid: RGB565 expanded by the upscaler at 16, R G B at 24, both with A = 255, and A R G B turned to
R G B A at 32 (R102, R100, R76). -/
def Obligations.PixDecFixedTruecolor : Prop :=
  ∀ s : State,
    let n := pixelCount s
    let chunk := fun w p c => memRead8 s (s.src.toNat + w * p + c)
    (cfgBpp s = 16 → cfgBpc s = 2 → RangesUsable s (2 * n) (4 * n) →
      CommandWrites .pixDecFixed s (4 * n) fun t => ∀ p, p < n →
        let w := 256 * chunk 2 p 0 + chunk 2 p 1
        memRead8 t (s.dst.toNat + 4 * p) = (2 * (w / 2048) * 255 + 31) / 62 ∧
        memRead8 t (s.dst.toNat + 4 * p + 1) = (2 * (w / 32 % 64) * 255 + 63) / 126 ∧
        memRead8 t (s.dst.toNat + 4 * p + 2) = (2 * (w % 32) * 255 + 31) / 62 ∧
        memRead8 t (s.dst.toNat + 4 * p + 3) = 255) ∧
    (cfgBpp s = 24 → cfgBpc s = 3 → RangesUsable s (3 * n) (4 * n) →
      CommandWrites .pixDecFixed s (4 * n) fun t => ∀ p, p < n →
        (∀ c, c < 3 → memRead8 t (s.dst.toNat + 4 * p + c) = chunk 3 p c) ∧
        memRead8 t (s.dst.toNat + 4 * p + 3) = 255) ∧
    (cfgBpp s = 32 → cfgBpc s = 4 → RangesUsable s (4 * n) (4 * n) →
      CommandWrites .pixDecFixed s (4 * n) fun t => ∀ p, p < n →
        (∀ c, c < 3 → memRead8 t (s.dst.toNat + 4 * p + c) = chunk 4 p (c + 1)) ∧
        memRead8 t (s.dst.toNat + 4 * p + 3) = chunk 4 p 0)

/-- Encoding a decoded fixed-chunky buffer gives back every chunk byte at every legal depth; at 32 bits a pixel with SRC_ALPHA = 1
(R103). -/
def Obligations.FixedDecodeThenEncode : Prop :=
  ∀ s t u v : State, (cfgBpp s = 32 → cfgSrcAlpha s = 1) →
    exec .pixDecFixed s = .next t → err t = false →
    u.mem = t.mem → u.cfg = s.cfg → u.dim = s.dim → u.src = s.dst →
    exec .pixEncFixed u = .next v → err v = false →
    ∀ a, a < (if cfgBpp s ≤ 8 then 1 else cfgBpp s / 8) * pixelCount s →
      readByte v (u.dst.toNat + a) = readByte s (s.src.toNat + a)

/-! ### Container header -/

/-- HDR_ENC with a valid header writes the header of R63 from the registers: 15 bytes, or 11 at BPP = 0 (R107, R105, R106). -/
def Obligations.HdrEncWritesTheHeader : Prop :=
  ∀ s : State, HeaderValid (cfgBpp s) (cfgBpc s) (cfgPalKind s) (dimWidth s) →
    let len := if cfgBpp s = 0 then 11 else 15
    RangesUsable s 0 len →
    CommandWrites .hdrEnc s len fun t =>
      memRead t s.dst.toNat 4 = 0x55494D47 ∧
      memRead t (s.dst.toNat + 4) 2 = s.version.toNat % 65536 ∧
      memRead t (s.dst.toNat + 6) 2 = cfgPalKind s ∧
      memRead8 t (s.dst.toNat + 8) = cfgBpp s ∧
      memRead8 t (s.dst.toNat + 9) = cfgBpc s ∧
      memRead8 t (s.dst.toNat + 10) = 0 ∧
      (cfgBpp s ≠ 0 →
        memRead t (s.dst.toNat + 11) 2 = dimWidth s ∧ memRead t (s.dst.toNat + 13) 2 = dimHeight s)

/-- R105's checks: a header passes them exactly when it is valid, and HDR_ENC reports the first that fails. -/
def Obligations.HdrEncReportsTheFirstFailingCheck : Prop :=
  (∀ (s : State) (code info : Nat),
    HeaderError (cfgBpp s) (cfgBpc s) (cfgPalKind s) (dimWidth s) code info → CommandFails .hdrEnc s code info) ∧
  (∀ bpp bpc kind width : Nat, bpc < 256 →
    (firstFailure (headerChecks bpp bpc kind width) = none ↔ HeaderValid bpp bpc kind width))

/-- HDR_DEC on a valid header loads CFG.BPP, CFG.BPC, CFG.PALKIND, VERSION and DIM, keeps PALBITS and SRC_ALPHA, and ignores flags
bits 15:2 and byte 10 (R108, R109). -/
def Obligations.HdrDecLoadsTheHeader : Prop :=
  ∀ s : State,
    let a := s.src.toNat
    let b := memRead8 s (a + 8)
    let w := if b = 0 then 0 else memRead s (a + 11) 2
    let h := if b = 0 then 0 else memRead s (a + 13) 2
    let kind := memRead s (a + 6) 2 % 4
    a + min s.srcLen.toNat 15 ≤ 2 ^ 32 → touchesWindow s a (min s.srcLen.toNat 15) = false →
    memRead s a 4 = 0x55494D47 → 11 ≤ s.srcLen.toNat → (b ≠ 0 → 15 ≤ s.srcLen.toNat) →
    HeaderValid b (memRead8 s (a + 9)) kind w →
    ∃ t, exec .hdrDec s = .next t ∧ Succeeded t (if b = 0 then 11 else 15) ∧
      SameRegisters { s with cfg := t.cfg, dim := t.dim, version := t.version } t ∧ t.mem = s.mem ∧
      cfgBpp t = b ∧ cfgBpc t = memRead8 s (a + 9) ∧ cfgPalKind t = kind ∧ cfgPalBits t = cfgPalBits s ∧
      cfgSrcAlpha t = cfgSrcAlpha s ∧ t.version.toNat = memRead s (a + 4) 2 ∧ t.dim.toNat = 65536 * h + w

/-- The checks of HDR_DEC in its own order (R108). -/
def Obligations.HdrDecChecksInOrder : Prop :=
  ∀ (s : State) (code info : Nat),
    let a := s.src.toNat
    let len := min s.srcLen.toNat 15
    let magic := memRead s a 4
    let b := memRead8 s (a + 8)
    let w := if b = 0 then 0 else memRead s (a + 11) 2
    let kind := memRead s (a + 6) 2 % 4
    (2 ^ 32 < a + len → CommandFails .hdrDec s 9 1) ∧
    (a + len ≤ 2 ^ 32 → s.srcLen.toNat < 4 → CommandFails .hdrDec s 7 4) ∧
    (a + len ≤ 2 ^ 32 → touchesWindow s a len = false → 4 ≤ s.srcLen.toNat →
      (magic ≠ 0x55494D47 → CommandFails .hdrDec s 2 magic) ∧
      (magic = 0x55494D47 → s.srcLen.toNat < 11 → CommandFails .hdrDec s 7 11) ∧
      (magic = 0x55494D47 → 11 ≤ s.srcLen.toNat → b ≠ 0 → s.srcLen.toNat < 15 → CommandFails .hdrDec s 7 15) ∧
      (magic = 0x55494D47 → 15 ≤ s.srcLen.toNat → HeaderError b (memRead8 s (a + 9)) kind w code info →
        CommandFails .hdrDec s code info))

/-- HDR_DEC on the bytes HDR_ENC wrote gives back BPP, BPC, PALKIND and VERSION, and DIM or, at BPP = 0, DIM = 0; the source's
example container is 15 + 32 + 32000 = 32047 bytes long (R111, R110). -/
def Obligations.HeaderRoundTrip : Prop :=
  (headerLen 4 = 15 ∧ containerPaletteLen 1 4 = 32 ∧ containerPayloadLen 4 .planar (320 * 200) = 32000 ∧
    headerLen 4 + containerPaletteLen 1 4 + containerPayloadLen 4 .planar (320 * 200) = 32047) ∧
  ∀ s t u : State, exec .hdrEnc s = .next t → err t = false →
    u.mem = t.mem → u.src = s.dst → t.resultLen.toNat ≤ u.srcLen.toNat →
    u.src.toNat + min u.srcLen.toNat 15 ≤ 2 ^ 32 → u.windows = [] →
    ∃ v, exec .hdrDec u = .next v ∧ err v = false ∧ v.resultLen = t.resultLen ∧
      cfgBpp v = cfgBpp s ∧ cfgBpc v = cfgBpc s ∧ cfgPalKind v = cfgPalKind s ∧
      versionField v = versionField s ∧ v.dim = if cfgBpp s = 0 then 0 else s.dim

/-- The parts of a container have the sizes R110 gives: the header, the palette and the pixel payload that the encode commands
report in RESULT_LEN. -/
def Obligations.ContainerPartSizes : Prop :=
  ∀ (s t : State) (i : Instr) (f : PixelFormat), exec i s = .next t → err t = false →
    pixelFormat (sext8 (cfgBpc s)) = some f →
    (i = .hdrEnc → t.resultLen.toNat = headerLen (cfgBpp s)) ∧
    (i = .palEncSte → t.resultLen.toNat = containerPaletteLen 1 (cfgBpp s)) ∧
    (i = .palEncTt → t.resultLen.toNat = containerPaletteLen 2 (cfgBpp s)) ∧
    (i = .palEncFalcon → t.resultLen.toNat = containerPaletteLen 3 (cfgBpp s)) ∧
    (i = .pixEncPlanar → f = .planar →
      t.resultLen.toNat = containerPayloadLen (cfgBpp s) f (pixelCount s)) ∧
    (i = .pixEncPacked → f = .packed →
      t.resultLen.toNat = containerPayloadLen (cfgBpp s) f (pixelCount s)) ∧
    (i = .pixEncFixed → t.resultLen.toNat = containerPayloadLen (cfgBpp s) f (pixelCount s))
end

