-- ==== Sys2Proof/Laws/Codecs.lean ====
section
/-!
SUPPORT. What each codec function computes, as bits or as numbers: bit-field layouts, plane words, packed bytes, channel
arithmetic and palette words.
-/

namespace Sys2Proof.Machine

/-! ### Bits of a word built by `|||` -/

theorem testBit_foldl_or {α : Type} (l : List α) (f : α → Nat) (w t : Nat) :
    (l.foldl (fun w x => w ||| f x) w).testBit t = (w.testBit t || l.any fun x => (f x).testBit t) := by
  induction l generalizing w with
  | nil => simp
  | cons x l ih => simp [ih, Bool.or_assoc]

theorem foldl_or_lt {α : Type} (l : List α) (f : α → Nat) (n w : Nat) (hw : w < 2 ^ n) (h : ∀ x ∈ l, f x < 2 ^ n) :
    l.foldl (fun w x => w ||| f x) w < 2 ^ n := by
  induction l generalizing w with
  | nil => exact hw
  | cons x l ih =>
    exact ih _ (Nat.or_lt_two_pow hw (h x List.mem_cons_self)) fun y hy => h y (List.mem_cons_of_mem _ hy)

theorem testBit_one_and (v j : Nat) : v &&& 1 = (v.testBit 0).toNat ∧ ((v >>> j) &&& 1) = (v.testBit j).toNat := by
  constructor
  · rw [Nat.and_one_is_mod, Nat.testBit_zero]
    rcases Nat.mod_two_eq_zero_or_one v with h | h <;> simp [h]
  · rw [Nat.and_one_is_mod, Nat.testBit_eq_decide_div_mod_eq, Nat.shiftRight_eq_div_pow]
    rcases Nat.mod_two_eq_zero_or_one (v / 2 ^ j) with h | h <;> simp [h]

theorem testBit_bool_shift (b : Bool) (n t : Nat) : (b.toNat <<< n).testBit t = (b && decide (t = n)) := by
  rw [Nat.testBit_shiftLeft]
  cases b
  · simp
  · by_cases h : t = n
    · subst h; simp
    · by_cases h' : n ≤ t
      · have h1 : Nat.testBit 1 (t - n) = false := by
          apply Nat.testBit_lt_two_pow
          have : 2 ^ 1 ≤ 2 ^ (t - n) := Nat.pow_le_pow_right (by omega) (by omega)
          omega
        simp [h, h1]
      · simp [h, h']

/-! ### Planes -/

/-- Bit `15 − i` of a plane word is bit `j` of its pixel `i` (R88). -/
theorem planeWord_testBit (idx : Nat → Nat) (g j i : Nat) (hi : i < 16) :
    (planeWord idx g j).testBit (15 - i) = (idx (16 * g + i)).testBit j := by
  unfold planeWord
  rw [testBit_foldl_or]
  simp only [(testBit_one_and _ _).2, testBit_bool_shift, Nat.zero_testBit, Bool.false_or]
  rw [Bool.eq_iff_iff, List.any_eq_true]
  constructor
  · rintro ⟨m, hm, h⟩
    simp only [List.mem_range, Bool.and_eq_true, decide_eq_true_eq] at hm h
    rw [show i = m by omega]
    exact h.1
  · intro h
    exact ⟨i, by simpa using hi, by simp [h]⟩

theorem planeWord_lt (idx : Nat → Nat) (g j : Nat) : planeWord idx g j < 2 ^ 16 := by
  unfold planeWord
  refine foldl_or_lt _ _ _ _ (by decide) fun i hi => ?_
  simp only [List.mem_range] at hi
  rw [(testBit_one_and _ _).2, Nat.shiftLeft_eq]
  have h1 : ((idx (16 * g + i)).testBit j).toNat ≤ 1 := Bool.toNat_le _
  have h2 : 2 ^ (15 - i) ≤ 2 ^ 15 := Nat.pow_le_pow_right (by omega) (by omega)
  calc _ ≤ 1 * 2 ^ (15 - i) := Nat.mul_le_mul_right _ h1
    _ < 2 ^ 16 := by omega

/-- Bit `j` of a decoded pixel is bit `15 − i` of plane word `j` (R89); no bit at or above `b` is set. -/
theorem pixelOfPlanes_testBit (b : Nat) (w : Nat → Nat) (i j : Nat) :
    (pixelOfPlanes b w i).testBit j = (decide (j < b) && (w j).testBit (15 - i)) := by
  unfold pixelOfPlanes
  rw [testBit_foldl_or]
  simp only [(testBit_one_and _ _).2, testBit_bool_shift, Nat.zero_testBit, Bool.false_or]
  rw [Bool.eq_iff_iff, List.any_eq_true]
  constructor
  · rintro ⟨m, hm, h⟩
    simp only [List.mem_range, Bool.and_eq_true, decide_eq_true_eq] at hm h ⊢
    rw [h.2]
    exact ⟨hm, h.1⟩
  · intro h
    simp only [Bool.and_eq_true, decide_eq_true_eq] at h
    exact ⟨j, by simpa using h.1, by simp [h.2]⟩

theorem pixelOfPlanes_lt (b : Nat) (w : Nat → Nat) (i : Nat) : pixelOfPlanes b w i < 2 ^ b := by
  apply Nat.lt_pow_two_of_testBit
  intro j hj
  rw [pixelOfPlanes_testBit]
  simp; omega

/-! ### Packed bytes -/

/-- A packed byte as a number in base `2^b`, first pixel most significant (R93). -/
theorem packedByte_eq (b : Nat) (idx : Nat → Nat) (k : Nat) (hb : b = 1 ∨ b = 2 ∨ b = 4)
    (h : ∀ m, m < 8 / b → idx (k * (8 / b) + m) < 2 ^ b) :
    packedByte b idx k < 256 ∧
      ∀ m, m < 8 / b → packedByte b idx k / 2 ^ (8 - b * (m + 1)) % 2 ^ b = idx (k * (8 / b) + m) := by
  have step : ∀ x y : Nat, y < 2 ^ b → (x <<< b) ||| y = x * 2 ^ b + y := by
    intro x y hy
    rw [← Nat.shiftLeft_add_eq_or_of_lt hy, Nat.shiftLeft_eq]
  have fold : ∀ n, n ≤ 8 / b →
      (List.range n).foldl (fun x m => (x <<< b) ||| idx (k * (8 / b) + m)) 0 =
        (List.range n).foldl (fun x m => x * 2 ^ b + idx (k * (8 / b) + m)) 0 := by
    intro n hn
    induction n with
    | zero => rfl
    | succ n ih =>
      rw [List.range_succ, List.foldl_append, List.foldl_append, ih (by omega)]
      exact step _ _ (h n (by omega))
  unfold packedByte pixelsPerChunk
  rw [fold _ (Nat.le_refl _)]
  rcases hb with rfl | rfl | rfl
  · have h0 := h 0; have h1 := h 1; have h2 := h 2; have h3 := h 3
    have h4 := h 4; have h5 := h 5; have h6 := h 6; have h7 := h 7
    norm_num [List.range_succ] at h0 h1 h2 h3 h4 h5 h6 h7 ⊢
    refine ⟨by omega, fun m hm => ?_⟩
    interval_cases m <;> norm_num <;> omega
  · have h0 := h 0; have h1 := h 1; have h2 := h 2; have h3 := h 3
    norm_num [List.range_succ] at h0 h1 h2 h3 ⊢
    refine ⟨by omega, fun m hm => ?_⟩
    interval_cases m <;> norm_num <;> omega
  · have h0 := h 0; have h1 := h 1
    norm_num [List.range_succ] at h0 h1 ⊢
    refine ⟨by omega, fun m hm => ?_⟩
    interval_cases m <;> norm_num <;> omega

/-- A pixel of a packed byte as a number (R94). -/
theorem packedPixel_eq (b byte m : Nat) : packedPixel b byte m = byte / 2 ^ (8 - b * (m + 1)) % 2 ^ b := by
  rw [packedPixel, mask, Nat.and_two_pow_sub_one_eq_mod, Nat.shiftRight_eq_div_pow]

/-! ### Bit-field layouts -/

/-- A bit of a packed word: it is the bit of some field that covers it (R65, R66). -/
theorem bitPack_testBit {ν : Type} (layout : List (BitField ν)) (val : ν → Nat) (i : Nat) :
    (bitPack layout val).testBit i =
      layout.any fun f => decide (f.off ≤ i ∧ i < f.off + f.width) && (val f.name).testBit (i - f.off) := by
  unfold bitPack
  rw [testBit_foldl_or, Nat.zero_testBit, Bool.false_or]
  congr 1
  funext f
  rw [Nat.testBit_shiftLeft, Nat.testBit_and, mask, Nat.testBit_two_pow_sub_one]
  by_cases h1 : f.off ≤ i
  · by_cases h2 : i < f.off + f.width
    · have : i - f.off < f.width := by omega
      simp [h1, h2, this]
    · have : ¬ i - f.off < f.width := by omega
      simp [h2, this]
  · simp [h1]

/-- A field of a word as a number (R65). -/
theorem fieldValue_eq {ν : Type} (w : Nat) (f : BitField ν) : fieldValue w f = w / 2 ^ f.off % 2 ^ f.width := by
  rw [fieldValue, mask, Nat.and_two_pow_sub_one_eq_mod, Nat.shiftRight_eq_div_pow]

/-! ### Channels -/

theorem quantise_le {n c : Nat} (hc : c < 256) : quantise n c ≤ 2 ^ n - 1 := by
  unfold quantise
  generalize 2 ^ n - 1 = m
  rw [Nat.div_le_iff_le_mul_add_pred (by omega)]
  have : c ≤ 255 := by omega
  nlinarith [Nat.mul_le_mul_right m this]

theorem upscale_lt {n v : Nat} (hn : 1 ≤ n) (hv : v < 2 ^ n) : upscale n v < 256 := by
  unfold upscale
  have h2 : 2 ≤ 2 ^ n := by
    calc 2 = 2 ^ 1 := rfl
      _ ≤ 2 ^ n := Nat.pow_le_pow_right (by omega) hn
  generalize 2 ^ n = m at hv h2 ⊢
  rw [Nat.div_lt_iff_lt_mul (by omega)]
  omega

/-- A three-byte colour-table item as a number: R, G, B. -/
theorem rgbItem_eq {out : Channel → Nat} (hg : out .g < 256) (hb : out .b < 256) :
    rgbItem out = 65536 * out .r + 256 * out .g + out .b := by
  unfold rgbItem
  have h1 : out .r <<< 16 ||| out .g <<< 8 = (256 * out .r + out .g) * 256 := by
    rw [← Nat.shiftLeft_add_eq_or_of_lt (by rw [Nat.shiftLeft_eq]; omega), Nat.shiftLeft_eq, Nat.shiftLeft_eq]
    omega
  rw [h1, show (256 * out .r + out .g) * 256 = (256 * out .r + out .g) <<< 8 by rw [Nat.shiftLeft_eq],
    ← Nat.shiftLeft_add_eq_or_of_lt hb, Nat.shiftLeft_eq]
  omega

/-- A four-byte item as a number. -/
theorem rgbaItem_eq {r g b a : Nat} (hg : g < 256) (hb : b < 256) (ha : a < 256) :
    rgbaItem r g b a = 16777216 * r + 65536 * g + 256 * b + a := by
  unfold rgbaItem
  have h1 : r <<< 24 ||| g <<< 16 = (256 * r + g) <<< 16 := by
    rw [← Nat.shiftLeft_add_eq_or_of_lt (by rw [Nat.shiftLeft_eq]; omega)]
    simp only [Nat.shiftLeft_eq]
    omega
  have h2 : (256 * r + g) <<< 16 ||| b <<< 8 = (65536 * r + 256 * g + b) <<< 8 := by
    rw [← Nat.shiftLeft_add_eq_or_of_lt (by rw [Nat.shiftLeft_eq]; omega)]
    simp only [Nat.shiftLeft_eq]
    omega
  rw [h1, h2, ← Nat.shiftLeft_add_eq_or_of_lt ha, Nat.shiftLeft_eq]
  omega

/-! ### Palette words -/

/-- The layouts of R58, R59 and R60 do not overlap, so a packed word is the sum of its placed fields. -/
theorem steLayout_pack (val : SplitField → Nat) :
    bitPack steLayout val =
      2048 * (val (.lo .r) % 2) + 256 * (val (.hi .r) % 8) + 128 * (val (.lo .g) % 2) + 16 * (val (.hi .g) % 8) +
        8 * (val (.lo .b) % 2) + val (.hi .b) % 8 := by
  have key : ∀ a c e : Fin 2, ∀ b d f : Fin 8,
      ((((((0 ||| a.val <<< 11) ||| b.val <<< 8) ||| c.val <<< 7) ||| d.val <<< 4) ||| e.val <<< 3) ||| f.val <<< 0) =
        2048 * a.val + 256 * b.val + 128 * c.val + 16 * d.val + 8 * e.val + f.val := by decide +kernel
  have m1 : ∀ v : Nat, v &&& mask 1 = v % 2 := fun v => Nat.and_two_pow_sub_one_eq_mod v 1
  have m3 : ∀ v : Nat, v &&& mask 3 = v % 8 := fun v => Nat.and_two_pow_sub_one_eq_mod v 3
  simp only [bitPack, steLayout, List.foldl_cons, List.foldl_nil, m1, m3]
  exact key ⟨val (.lo .r) % 2, by omega⟩ ⟨val (.lo .g) % 2, by omega⟩ ⟨val (.lo .b) % 2, by omega⟩
    ⟨val (.hi .r) % 8, by omega⟩ ⟨val (.hi .g) % 8, by omega⟩ ⟨val (.hi .b) % 8, by omega⟩

theorem ttLayout_pack (val : Channel → Nat) :
    bitPack ttLayout val = 256 * (val .r % 16) + 16 * (val .g % 16) + val .b % 16 := by
  have key : ∀ a b c : Fin 16, (((0 ||| a.val <<< 8) ||| b.val <<< 4) ||| c.val <<< 0) =
      256 * a.val + 16 * b.val + c.val := by decide +kernel
  have m4 : ∀ v : Nat, v &&& mask 4 = v % 16 := fun v => Nat.and_two_pow_sub_one_eq_mod v 4
  simp only [bitPack, ttLayout, List.foldl_cons, List.foldl_nil, m4]
  exact key ⟨val .r % 16, by omega⟩ ⟨val .g % 16, by omega⟩ ⟨val .b % 16, by omega⟩

theorem falconLayout_pack (val : SplitField → Nat) :
    bitPack falconLayout val =
      16777216 * (4 * (val (.hi .r) % 64) + val (.lo .r) % 4) + 65536 * (4 * (val (.hi .g) % 64) + val (.lo .g) % 4) +
        (4 * (val (.hi .b) % 64) + val (.lo .b) % 4) := by
  have m2 : ∀ v : Nat, v &&& mask 2 = v % 4 := fun v => Nat.and_two_pow_sub_one_eq_mod v 2
  have m6 : ∀ v : Nat, v &&& mask 6 = v % 64 := fun v => Nat.and_two_pow_sub_one_eq_mod v 6
  have join : ∀ w v n k : Nat, v < 2 ^ k → (w <<< (n + k)) ||| (v <<< n) = (w * 2 ^ k + v) <<< n := by
    intro w v n k hv
    rw [← Nat.shiftLeft_add_eq_or_of_lt (by
      rw [Nat.shiftLeft_eq, Nat.pow_add, Nat.mul_comm (2 ^ n)]
      exact Nat.mul_lt_mul_of_pos_right hv (by positivity))]
    simp only [Nat.shiftLeft_eq, Nat.pow_add]
    ring
  simp only [bitPack, falconLayout, List.foldl_cons, List.foldl_nil, m2, m6, Nat.zero_or]
  rw [join _ _ 24 2 (by omega), join _ _ 18 6 (by omega), join _ _ 16 2 (by omega)]
  rw [join _ _ 2 14 (by omega), join _ _ 0 2 (by omega)]
  simp only [Nat.shiftLeft_zero]
  omega

end Sys2Proof.Machine
end

