-- ==== Sys2Proof/Laws/Decode.lean ====
section
/-!
SUPPORT. The decoder, the encoder and the CMD32 fields against each other.
-/

namespace Sys2Proof

theorem lookupOpcode_mem {w : Word} {i : Instr} {rows : List (Word × Instr)}
    (h : lookupOpcode w rows = some i) : (w, i) ∈ rows := by
  induction rows with
  | nil => cases h
  | cons r rows ih =>
    rw [lookupOpcode] at h
    split at h
    · next hw => cases h; subst hw; exact List.mem_cons_self
    · exact List.mem_cons_of_mem _ (ih h)

/-- Every row of the opcode map carries the word the encoder builds from R52's families. -/
theorem opcodeMap_encode : ∀ r ∈ opcodeMap, r.1 = encode r.2 := by decide

/-- A word decodes to a command exactly when it is that command's encoding. -/
theorem decode_eq_some_iff (w : Word) (i : Instr) : decode w = some i ↔ w = encode i := by
  constructor
  · intro h
    exact opcodeMap_encode (w, i) (lookupOpcode_mem h)
  · rintro rfl
    cases i <;> rfl

theorem encode_injective {i j : Instr} (h : encode i = encode j) : i = j := by
  have hi := (decode_eq_some_iff _ i).2 rfl
  have hj := (decode_eq_some_iff _ j).2 rfl
  rw [h, hj] at hi
  exact (Option.some.inj hi).symm

/-- The fields of a word determine it. -/
theorem cmdWordOf_cmdFields (w : Word) : cmdWordOf (cmdFields w) = w := by
  apply BitVec.eq_of_toNat_eq
  have := w.isLt
  simp only [cmdWordOf, cmdFields, BitVec.toNat_append, BitVec.extractLsb'_toNat, Nat.shiftRight_eq_div_pow,
    Nat.shiftLeft_eq]
  rw [← Nat.shiftLeft_eq, ← Nat.shiftLeft_add_eq_or_of_lt (by omega), ← Nat.shiftLeft_eq,
    ← Nat.shiftLeft_add_eq_or_of_lt (by omega)]
  simp only [Nat.shiftLeft_eq]
  omega

/-- Of the words with reserved bits 0, those whose function is assigned are encodings. -/
theorem funcAssigned_encode : ∀ fa fu : BitVec 4,
    (CmdWord.mk fa fu 0).funcAssigned = (decode (cmdWordOf ⟨fa, fu, 0⟩)).isSome := by decide

/-- An encoding has reserved bits 0. -/
theorem cmdFields_encode_rsvd (i : Instr) : (cmdFields (encode i)).rsvd = 0 := by cases i <;> rfl

end Sys2Proof
end

