-- ==== Sys2Proof/Laws/Memory.lean ====
section
/-!
SUPPORT. What the memory operations do, and that each keeps the canonical form.
-/

namespace Sys2Proof.Machine

theorem cellsFrom_mem {c : Host.Cell} {a : Nat} {bs : List Byte} (h : c ∈ cellsFrom a bs) :
    a ≤ c.1 ∧ c.1 < a + bs.length := by
  induction bs generalizing a with
  | nil => simp [cellsFrom] at h
  | cons b bs ih =>
    simp only [cellsFrom, List.mem_cons] at h
    rcases h with rfl | h
    · simp
    · have := ih h
      simp only [List.length_cons]
      omega

theorem cellsFrom_pairwise (a : Nat) (bs : List Byte) :
    (cellsFrom a bs).Pairwise (fun c d => c.1 < d.1) := by
  induction bs generalizing a with
  | nil => simp [cellsFrom]
  | cons b bs ih =>
    simp only [cellsFrom, List.pairwise_cons]
    exact ⟨fun c hc => by have := cellsFrom_mem hc; omega, ih _⟩

theorem memGet_append (m n : List Host.Cell) (a : Nat) :
    memGet (m ++ n) a = (memGet m a).or (memGet n a) := by
  induction m with
  | nil => simp [memGet]
  | cons c m ih =>
    simp only [List.cons_append, memGet]
    split <;> simp_all

theorem memGet_none_of_forall {m : List Host.Cell} {a : Nat} (h : ∀ c ∈ m, c.1 ≠ a) :
    memGet m a = none := by
  induction m with
  | nil => rfl
  | cons c m ih =>
    simp only [List.mem_cons, forall_eq_or_imp] at h
    simp [memGet, h.1, ih h.2]

theorem memGet_filter (m : List Host.Cell) (f : Nat → Bool) (a : Nat) :
    memGet (m.filter (fun c => f c.1)) a = if f a then memGet m a else none := by
  induction m with
  | nil => simp [memGet]
  | cons c m ih =>
    by_cases hc : c.1 = a
    · subst hc
      by_cases hf : f c.1 <;> simp [hf, memGet, ih]
    · by_cases hf : f c.1 <;> simp [hf, memGet, hc, ih]

theorem memGet_cellsFrom (a : Nat) (bs : List Byte) (x : Nat) :
    memGet (cellsFrom a bs) x = if a ≤ x then bs[x - a]? else none := by
  induction bs generalizing a with
  | nil => simp [cellsFrom, memGet]
  | cons b bs ih =>
    simp only [cellsFrom, memGet]
    by_cases h : a = x
    · subst h; simp
    · rw [if_neg h, ih]
      by_cases h' : a ≤ x
      · rw [if_pos (by omega), if_pos h']
        obtain ⟨k, rfl⟩ : ∃ k, x = a + 1 + k := ⟨x - (a + 1), by omega⟩
        rw [show a + 1 + k - (a + 1) = k by omega, show a + 1 + k - a = k + 1 by omega]
        simp
      · rw [if_neg (by omega), if_neg h']

/-- A spliced memory lists the new bytes in the written range and what it listed before outside it. -/
theorem memGet_memSplice (m : List Host.Cell) (a : Nat) (bs : List Byte) (x : Nat) :
    memGet (memSplice m a bs) x =
      if a ≤ x ∧ x < a + bs.length then bs[x - a]? else memGet m x := by
  have h1 := memGet_filter m (fun y => decide (y < a)) x
  have h2 := memGet_filter m (fun y => decide (a + bs.length ≤ y)) x
  simp only [memSplice, memGet_append, memGet_cellsFrom]
  rw [h1, h2]
  by_cases hlo : x < a
  · have : ¬ a + bs.length ≤ x := by omega
    have : ¬ a ≤ x := by omega
    simp [*]
  · by_cases hhi : a + bs.length ≤ x
    · have : a ≤ x := by omega
      have hn : bs[x - a]? = none := by
        rw [List.getElem?_eq_none_iff]; omega
      simp [*]
    · have : a ≤ x := by omega
      have : x < a + bs.length := by omega
      simp [*]

theorem memSplice_wf {bits : Nat} {m : List Host.Cell} (h : Memory.wfIn bits m) {a : Nat} {bs : List Byte}
    (ha : a + bs.length ≤ 2 ^ bits) : Memory.wfIn bits (memSplice m a bs) := by
  constructor
  · simp only [memSplice, List.append_assoc, List.pairwise_append, List.mem_append, List.mem_filter,
      decide_eq_true_eq]
    refine ⟨h.1.filter _, ⟨cellsFrom_pairwise a bs, h.1.filter _, ?_⟩, ?_⟩
    · intro c hc d hd
      have := cellsFrom_mem hc
      omega
    · rintro c hc d (hd | hd)
      · have := cellsFrom_mem hd
        omega
      · omega
  · intro c hc
    simp only [memSplice, List.mem_append, List.mem_filter] at hc
    rcases hc with (hc | hc) | hc
    · exact h.2 c hc.1
    · have := cellsFrom_mem hc
      omega
    · exact h.2 c hc.1

/-- A memory after an abandoned command lists, at each address, what the new or what the old one lists. -/
theorem memGet_memMix (draw : Nat) (old new : List Host.Cell) (x : Nat) :
    memGet (memMix draw old new) x =
      if Config.resetKeepsNew draw x then memGet new x
      else (memGet new x).bind fun _ => memGet old x := by
  unfold memMix
  induction new with
  | nil => simp [memGet]
  | cons c new ih =>
    rw [List.filterMap_cons]
    by_cases hc : c.1 = x
    · subst hc
      by_cases hk : Config.resetKeepsNew draw c.1
      · simp [hk, memGet]
      · cases ho : memGet old c.1 with
        | none => simp [hk, ho, memGet, ih]
        | some b => simp [hk, memGet]
    · by_cases hk : Config.resetKeepsNew draw c.1
      · simp [hk, memGet, hc, ih]
      · cases ho : memGet old c.1 <;> simp [hk, memGet, hc, ih]

theorem memMix_wf {bits : Nat} {new : List Host.Cell} (h : Memory.wfIn bits new) (draw : Nat) (old : List Host.Cell) :
    Memory.wfIn bits (memMix draw old new) := by
  have key : ∀ c d, (if Config.resetKeepsNew draw c.1 then some c
      else (memGet old c.1).map (fun b => (c.1, b))) = some d → d.1 = c.1 := by
    intro c d hd
    split at hd
    · cases hd; rfl
    · cases hm : memGet old c.1 with
      | none => simp [hm] at hd
      | some b => simp only [hm, Option.map_some, Option.some.injEq] at hd; rw [← hd]
  constructor
  · unfold memMix
    rw [List.pairwise_filterMap]
    refine h.1.imp ?_
    intro c d hcd c' hc' d' hd'
    rw [key c c' hc', key d d' hd']
    exact hcd
  · intro c hc
    simp only [memMix, List.mem_filterMap] at hc
    obtain ⟨e, he, hec⟩ := hc
    rw [key e c hec]
    exact h.2 e he

/-! ### Reading after writing -/

theorem readByte_writeBytes (s : State) (a : Nat) (bs : List Byte) (x : Nat) :
    readByte (writeBytes s a bs) x =
      if h : a ≤ x ∧ x < a + bs.length then bs[x - a]'(by omega) else readByte s x := by
  simp only [readByte, writeBytes, memGet_memSplice]
  split
  · next h => rw [List.getElem?_eq_getElem (by omega)]; simp
  · rfl

theorem readByte_writeBytes_outside {s : State} {a x : Nat} {bs : List Byte}
    (h : ¬(a ≤ x ∧ x < a + bs.length)) : readByte (writeBytes s a bs) x = readByte s x := by
  rw [readByte_writeBytes, dif_neg h]

theorem readByte_unspec_outside {s : State} {a n x : Nat} (h : ¬(a ≤ x ∧ x < a + n)) :
    readByte (unspec s a n) x = readByte s x := by
  have h' : ¬(a ≤ x ∧ x < a + ((List.range n).map fun k => Config.unspecByte s.draws (a + k)).length) := by
    simpa using h
  simp only [readByte, unspec, memGet_memSplice, if_neg h']

@[simp] theorem itemBytes_length (width count : Nat) (item : Nat → Nat) :
    (itemBytes width count item).length = count * width := by simp [itemBytes]

/-- Byte `k` of item `i` lies at `a + width * i + k`. -/
theorem readByte_items {s : State} {a width count : Nat} {item : Nat → Nat} {i k : Nat}
    (hi : i < count) (hk : k < width) :
    readByte (writeBytes s a (itemBytes width count item)) (a + width * i + k) =
      beByte width (item i) k := by
  have hb : width * i + k < count * width := by
    have h1 : width * i + width ≤ width * count := by
      rw [← Nat.mul_succ]; exact Nat.mul_le_mul_left _ hi
    have h2 : count * width = width * count := Nat.mul_comm _ _
    omega
  have hd : (width * i + k) / width = i := by
    rw [Nat.mul_add_div (by omega), Nat.div_eq_of_lt hk, Nat.add_zero]
  have hm : (width * i + k) % width = k := by
    rw [Nat.mul_add_mod, Nat.mod_eq_of_lt hk]
  rw [readByte_writeBytes, dif_pos (by rw [itemBytes_length]; omega)]
  simp only [itemBytes, List.getElem_map, List.getElem_range]
  rw [show a + width * i + k - a = width * i + k by omega, hd, hm]

theorem memRead_lt (s : State) (a n : Nat) : memRead s a n < 256 ^ n := by
  induction n with
  | zero => simp [memRead]
  | succ n ih =>
    have : memRead8 s (a + n) < 256 := (readByte s (a + n)).isLt
    rw [memRead, Nat.pow_succ]
    omega

theorem beByte_toNat (width v k : Nat) : (beByte width v k).toNat = v / 256 ^ (width - 1 - k) % 256 := by
  simp [beByte]

/-- Reading an item back gives the item, cut to its width. -/
theorem memRead_items {s : State} {a width count : Nat} {item : Nat → Nat} {i : Nat} (hi : i < count) :
    memRead (writeBytes s a (itemBytes width count item)) (a + width * i) width =
      item i % 256 ^ width := by
  have key : ∀ n, n ≤ width →
      memRead (writeBytes s a (itemBytes width count item)) (a + width * i) n =
        item i / 256 ^ (width - n) % 256 ^ n := by
    intro n hn
    induction n with
    | zero => simp [memRead, Nat.mod_one]
    | succ n ih =>
      have hb : memRead8 (writeBytes s a (itemBytes width count item)) (a + width * i + n) =
          item i / 256 ^ (width - 1 - n) % 256 := by
        rw [memRead8, readByte_items hi (by omega), beByte_toNat]
      rw [memRead, ih (by omega), hb]
      have e1 : width - n = (width - 1 - n) + 1 := by omega
      have e2 : width - (n + 1) = width - 1 - n := by omega
      rw [e1, e2, Nat.pow_succ, Nat.pow_succ, ← Nat.div_div_eq_div_mul]
      generalize item i / 256 ^ (width - 1 - n) = y
      rw [Nat.mul_comm (256 ^ n) 256, Nat.mod_mul]
      omega
  simpa using key width (Nat.le_refl _)

end Sys2Proof.Machine
end

