-- ==== Sys2Proof/Laws/State.lean ====
section
/-!
SUPPORT. One lemma per field per state update, so that no proof unfolds a record update.
-/

namespace Sys2Proof.Machine

/-! ### raise -/

@[simp] theorem raise_cmd (e : CmdError) (s : State) : (raise e s).cmd = s.cmd := rfl
@[simp] theorem raise_status (e : CmdError) (s : State) : (raise e s).status = statusError e.kind := rfl
@[simp] theorem raise_cfg (e : CmdError) (s : State) : (raise e s).cfg = s.cfg := rfl
@[simp] theorem raise_dim (e : CmdError) (s : State) : (raise e s).dim = s.dim := rfl
@[simp] theorem raise_src (e : CmdError) (s : State) : (raise e s).src = s.src := rfl
@[simp] theorem raise_srcLen (e : CmdError) (s : State) : (raise e s).srcLen = s.srcLen := rfl
@[simp] theorem raise_dst (e : CmdError) (s : State) : (raise e s).dst = s.dst := rfl
@[simp] theorem raise_resultLen (e : CmdError) (s : State) : (raise e s).resultLen = 0 := rfl
@[simp] theorem raise_version (e : CmdError) (s : State) : (raise e s).version = s.version := rfl
@[simp] theorem raise_errInfo (e : CmdError) (s : State) : (raise e s).errInfo = BitVec.ofNat 32 (min e.info 0xFFFFFFFF) := rfl
@[simp] theorem raise_bfWord (e : CmdError) (s : State) : (raise e s).bfWord = s.bfWord := rfl
@[simp] theorem raise_bfDesc (e : CmdError) (s : State) : (raise e s).bfDesc = s.bfDesc := rfl
@[simp] theorem raise_bfVal (e : CmdError) (s : State) : (raise e s).bfVal = s.bfVal := rfl
@[simp] theorem raise_pend (e : CmdError) (s : State) : (raise e s).pend = none := rfl
@[simp] theorem raise_mem (e : CmdError) (s : State) : (raise e s).mem = s.mem := rfl
@[simp] theorem raise_agenda (e : CmdError) (s : State) : (raise e s).agenda = s.agenda := rfl
@[simp] theorem raise_readLog (e : CmdError) (s : State) : (raise e s).readLog = s.readLog := rfl
@[simp] theorem raise_draws (e : CmdError) (s : State) : (raise e s).draws = s.draws := rfl
@[simp] theorem raise_windows (e : CmdError) (s : State) : (raise e s).windows = s.windows := rfl

/-! ### finish -/

@[simp] theorem finish_cmd (n : Nat) (s : State) : (finish n s).cmd = s.cmd := rfl
@[simp] theorem finish_status (n : Nat) (s : State) : (finish n s).status = statusDone := rfl
@[simp] theorem finish_cfg (n : Nat) (s : State) : (finish n s).cfg = s.cfg := rfl
@[simp] theorem finish_dim (n : Nat) (s : State) : (finish n s).dim = s.dim := rfl
@[simp] theorem finish_src (n : Nat) (s : State) : (finish n s).src = s.src := rfl
@[simp] theorem finish_srcLen (n : Nat) (s : State) : (finish n s).srcLen = s.srcLen := rfl
@[simp] theorem finish_dst (n : Nat) (s : State) : (finish n s).dst = s.dst := rfl
theorem lenFits_iff (n : Nat) : lenFits n = true ↔ n < 2 ^ 32 := by simp [lenFits]

@[simp] theorem finish_resultLen (n : Nat) (s : State) : (finish n s).resultLen =
    if lenFits n then BitVec.ofNat 32 n else Config.longResultLen s.draws := rfl

theorem finish_resultLen_of_lt {n : Nat} (h : n < 2 ^ 32) (s : State) :
    (finish n s).resultLen = BitVec.ofNat 32 n := by
  rw [finish_resultLen, if_pos ((lenFits_iff n).2 h)]

@[simp] theorem finish_version (n : Nat) (s : State) : (finish n s).version = s.version := rfl
@[simp] theorem finish_errInfo (n : Nat) (s : State) : (finish n s).errInfo = 0 := rfl
@[simp] theorem finish_bfWord (n : Nat) (s : State) : (finish n s).bfWord = s.bfWord := rfl
@[simp] theorem finish_bfDesc (n : Nat) (s : State) : (finish n s).bfDesc = s.bfDesc := rfl
@[simp] theorem finish_bfVal (n : Nat) (s : State) : (finish n s).bfVal = s.bfVal := rfl
@[simp] theorem finish_pend (n : Nat) (s : State) : (finish n s).pend = none := rfl
@[simp] theorem finish_mem (n : Nat) (s : State) : (finish n s).mem = s.mem := rfl
@[simp] theorem finish_agenda (n : Nat) (s : State) : (finish n s).agenda = s.agenda := rfl
@[simp] theorem finish_readLog (n : Nat) (s : State) : (finish n s).readLog = s.readLog := rfl
@[simp] theorem finish_draws (n : Nat) (s : State) :
    (finish n s).draws = if lenFits n then s.draws else s.draws + 1 := rfl

theorem finish_draws_of_lt {n : Nat} (h : n < 2 ^ 32) (s : State) : (finish n s).draws = s.draws := by
  rw [finish_draws, if_pos ((lenFits_iff n).2 h)]

@[simp] theorem finish_windows (n : Nat) (s : State) : (finish n s).windows = s.windows := rfl

/-! ### issue -/

@[simp] theorem issue_cmd (s : State) (v : Word) : (issue s v).cmd = v := rfl
@[simp] theorem issue_status (s : State) (v : Word) : (issue s v).status = statusIssued := rfl
@[simp] theorem issue_cfg (s : State) (v : Word) : (issue s v).cfg = s.cfg := rfl
@[simp] theorem issue_dim (s : State) (v : Word) : (issue s v).dim = s.dim := rfl
@[simp] theorem issue_src (s : State) (v : Word) : (issue s v).src = s.src := rfl
@[simp] theorem issue_srcLen (s : State) (v : Word) : (issue s v).srcLen = s.srcLen := rfl
@[simp] theorem issue_dst (s : State) (v : Word) : (issue s v).dst = s.dst := rfl
@[simp] theorem issue_resultLen (s : State) (v : Word) : (issue s v).resultLen = s.resultLen := rfl
@[simp] theorem issue_version (s : State) (v : Word) : (issue s v).version = s.version := rfl
@[simp] theorem issue_errInfo (s : State) (v : Word) : (issue s v).errInfo = s.errInfo := rfl
@[simp] theorem issue_bfWord (s : State) (v : Word) : (issue s v).bfWord = s.bfWord := rfl
@[simp] theorem issue_bfDesc (s : State) (v : Word) : (issue s v).bfDesc = s.bfDesc := rfl
@[simp] theorem issue_bfVal (s : State) (v : Word) : (issue s v).bfVal = s.bfVal := rfl
@[simp] theorem issue_pend (s : State) (v : Word) : (issue s v).pend = some v := rfl
@[simp] theorem issue_mem (s : State) (v : Word) : (issue s v).mem = s.mem := rfl
@[simp] theorem issue_agenda (s : State) (v : Word) : (issue s v).agenda = s.agenda := rfl
@[simp] theorem issue_readLog (s : State) (v : Word) : (issue s v).readLog = s.readLog := rfl
@[simp] theorem issue_draws (s : State) (v : Word) : (issue s v).draws = s.draws := rfl
@[simp] theorem issue_windows (s : State) (v : Word) : (issue s v).windows = s.windows := rfl

/-! ### issueNow -/

@[simp] theorem issueNow_cmd (s : State) (v : Word) : (issueNow s v).cmd = v := rfl
@[simp] theorem issueNow_status (s : State) (v : Word) : (issueNow s v).status = statusIssued := rfl
@[simp] theorem issueNow_cfg (s : State) (v : Word) : (issueNow s v).cfg = s.cfg := rfl
@[simp] theorem issueNow_dim (s : State) (v : Word) : (issueNow s v).dim = s.dim := rfl
@[simp] theorem issueNow_src (s : State) (v : Word) : (issueNow s v).src = s.src := rfl
@[simp] theorem issueNow_srcLen (s : State) (v : Word) : (issueNow s v).srcLen = s.srcLen := rfl
@[simp] theorem issueNow_dst (s : State) (v : Word) : (issueNow s v).dst = s.dst := rfl
@[simp] theorem issueNow_resultLen (s : State) (v : Word) : (issueNow s v).resultLen = s.resultLen := rfl
@[simp] theorem issueNow_version (s : State) (v : Word) : (issueNow s v).version = s.version := rfl
@[simp] theorem issueNow_errInfo (s : State) (v : Word) : (issueNow s v).errInfo = s.errInfo := rfl
@[simp] theorem issueNow_bfWord (s : State) (v : Word) : (issueNow s v).bfWord = s.bfWord := rfl
@[simp] theorem issueNow_bfDesc (s : State) (v : Word) : (issueNow s v).bfDesc = s.bfDesc := rfl
@[simp] theorem issueNow_bfVal (s : State) (v : Word) : (issueNow s v).bfVal = s.bfVal := rfl
@[simp] theorem issueNow_pend (s : State) (v : Word) : (issueNow s v).pend = some v := rfl
@[simp] theorem issueNow_mem (s : State) (v : Word) : (issueNow s v).mem = s.mem := rfl
@[simp] theorem issueNow_agenda (s : State) (v : Word) : (issueNow s v).agenda = .engine :: s.agenda := rfl
@[simp] theorem issueNow_readLog (s : State) (v : Word) : (issueNow s v).readLog = s.readLog := rfl
@[simp] theorem issueNow_draws (s : State) (v : Word) : (issueNow s v).draws = s.draws := rfl
@[simp] theorem issueNow_windows (s : State) (v : Word) : (issueNow s v).windows = s.windows := rfl

/-! ### writeBytes -/

@[simp] theorem writeBytes_cmd (s : State) (a : Nat) (bs : List Byte) : (writeBytes s a bs).cmd = s.cmd := rfl
@[simp] theorem writeBytes_status (s : State) (a : Nat) (bs : List Byte) : (writeBytes s a bs).status = s.status := rfl
@[simp] theorem writeBytes_cfg (s : State) (a : Nat) (bs : List Byte) : (writeBytes s a bs).cfg = s.cfg := rfl
@[simp] theorem writeBytes_dim (s : State) (a : Nat) (bs : List Byte) : (writeBytes s a bs).dim = s.dim := rfl
@[simp] theorem writeBytes_src (s : State) (a : Nat) (bs : List Byte) : (writeBytes s a bs).src = s.src := rfl
@[simp] theorem writeBytes_srcLen (s : State) (a : Nat) (bs : List Byte) : (writeBytes s a bs).srcLen = s.srcLen := rfl
@[simp] theorem writeBytes_dst (s : State) (a : Nat) (bs : List Byte) : (writeBytes s a bs).dst = s.dst := rfl
@[simp] theorem writeBytes_resultLen (s : State) (a : Nat) (bs : List Byte) : (writeBytes s a bs).resultLen = s.resultLen := rfl
@[simp] theorem writeBytes_version (s : State) (a : Nat) (bs : List Byte) : (writeBytes s a bs).version = s.version := rfl
@[simp] theorem writeBytes_errInfo (s : State) (a : Nat) (bs : List Byte) : (writeBytes s a bs).errInfo = s.errInfo := rfl
@[simp] theorem writeBytes_bfWord (s : State) (a : Nat) (bs : List Byte) : (writeBytes s a bs).bfWord = s.bfWord := rfl
@[simp] theorem writeBytes_bfDesc (s : State) (a : Nat) (bs : List Byte) : (writeBytes s a bs).bfDesc = s.bfDesc := rfl
@[simp] theorem writeBytes_bfVal (s : State) (a : Nat) (bs : List Byte) : (writeBytes s a bs).bfVal = s.bfVal := rfl
@[simp] theorem writeBytes_pend (s : State) (a : Nat) (bs : List Byte) : (writeBytes s a bs).pend = s.pend := rfl
@[simp] theorem writeBytes_mem (s : State) (a : Nat) (bs : List Byte) : (writeBytes s a bs).mem = memSplice s.mem a bs := rfl
@[simp] theorem writeBytes_agenda (s : State) (a : Nat) (bs : List Byte) : (writeBytes s a bs).agenda = s.agenda := rfl
@[simp] theorem writeBytes_readLog (s : State) (a : Nat) (bs : List Byte) : (writeBytes s a bs).readLog = s.readLog := rfl
@[simp] theorem writeBytes_draws (s : State) (a : Nat) (bs : List Byte) : (writeBytes s a bs).draws = s.draws := rfl
@[simp] theorem writeBytes_windows (s : State) (a : Nat) (bs : List Byte) : (writeBytes s a bs).windows = s.windows := rfl

/-! ### unspec -/

@[simp] theorem unspec_cmd (s : State) (a n : Nat) : (unspec s a n).cmd = s.cmd := rfl
@[simp] theorem unspec_status (s : State) (a n : Nat) : (unspec s a n).status = s.status := rfl
@[simp] theorem unspec_cfg (s : State) (a n : Nat) : (unspec s a n).cfg = s.cfg := rfl
@[simp] theorem unspec_dim (s : State) (a n : Nat) : (unspec s a n).dim = s.dim := rfl
@[simp] theorem unspec_src (s : State) (a n : Nat) : (unspec s a n).src = s.src := rfl
@[simp] theorem unspec_srcLen (s : State) (a n : Nat) : (unspec s a n).srcLen = s.srcLen := rfl
@[simp] theorem unspec_dst (s : State) (a n : Nat) : (unspec s a n).dst = s.dst := rfl
@[simp] theorem unspec_resultLen (s : State) (a n : Nat) : (unspec s a n).resultLen = s.resultLen := rfl
@[simp] theorem unspec_version (s : State) (a n : Nat) : (unspec s a n).version = s.version := rfl
@[simp] theorem unspec_errInfo (s : State) (a n : Nat) : (unspec s a n).errInfo = s.errInfo := rfl
@[simp] theorem unspec_bfWord (s : State) (a n : Nat) : (unspec s a n).bfWord = s.bfWord := rfl
@[simp] theorem unspec_bfDesc (s : State) (a n : Nat) : (unspec s a n).bfDesc = s.bfDesc := rfl
@[simp] theorem unspec_bfVal (s : State) (a n : Nat) : (unspec s a n).bfVal = s.bfVal := rfl
@[simp] theorem unspec_pend (s : State) (a n : Nat) : (unspec s a n).pend = s.pend := rfl
@[simp] theorem unspec_mem (s : State) (a n : Nat) : (unspec s a n).mem = memSplice s.mem a ((List.range n).map fun k => Config.unspecByte s.draws (a + k)) := rfl
@[simp] theorem unspec_agenda (s : State) (a n : Nat) : (unspec s a n).agenda = s.agenda := rfl
@[simp] theorem unspec_readLog (s : State) (a n : Nat) : (unspec s a n).readLog = s.readLog := rfl
@[simp] theorem unspec_draws (s : State) (a n : Nat) : (unspec s a n).draws = s.draws + 1 := rfl
@[simp] theorem unspec_windows (s : State) (a n : Nat) : (unspec s a n).windows = s.windows := rfl

/-! ### recordRead -/

@[simp] theorem recordRead_cmd (v : Word) (s : State) : (recordRead v s).cmd = s.cmd := rfl
@[simp] theorem recordRead_status (v : Word) (s : State) : (recordRead v s).status = s.status := rfl
@[simp] theorem recordRead_cfg (v : Word) (s : State) : (recordRead v s).cfg = s.cfg := rfl
@[simp] theorem recordRead_dim (v : Word) (s : State) : (recordRead v s).dim = s.dim := rfl
@[simp] theorem recordRead_src (v : Word) (s : State) : (recordRead v s).src = s.src := rfl
@[simp] theorem recordRead_srcLen (v : Word) (s : State) : (recordRead v s).srcLen = s.srcLen := rfl
@[simp] theorem recordRead_dst (v : Word) (s : State) : (recordRead v s).dst = s.dst := rfl
@[simp] theorem recordRead_resultLen (v : Word) (s : State) : (recordRead v s).resultLen = s.resultLen := rfl
@[simp] theorem recordRead_version (v : Word) (s : State) : (recordRead v s).version = s.version := rfl
@[simp] theorem recordRead_errInfo (v : Word) (s : State) : (recordRead v s).errInfo = s.errInfo := rfl
@[simp] theorem recordRead_bfWord (v : Word) (s : State) : (recordRead v s).bfWord = s.bfWord := rfl
@[simp] theorem recordRead_bfDesc (v : Word) (s : State) : (recordRead v s).bfDesc = s.bfDesc := rfl
@[simp] theorem recordRead_bfVal (v : Word) (s : State) : (recordRead v s).bfVal = s.bfVal := rfl
@[simp] theorem recordRead_pend (v : Word) (s : State) : (recordRead v s).pend = s.pend := rfl
@[simp] theorem recordRead_mem (v : Word) (s : State) : (recordRead v s).mem = s.mem := rfl
@[simp] theorem recordRead_agenda (v : Word) (s : State) : (recordRead v s).agenda = s.agenda := rfl
@[simp] theorem recordRead_readLog (v : Word) (s : State) : (recordRead v s).readLog = v :: s.readLog := rfl
@[simp] theorem recordRead_draws (v : Word) (s : State) : (recordRead v s).draws = s.draws := rfl
@[simp] theorem recordRead_windows (v : Word) (s : State) : (recordRead v s).windows = s.windows := rfl

/-! ### resetWith -/

@[simp] theorem resetWith_cmd (s : State) (m : List Host.Cell) (d : Nat) : (resetWith s m d).cmd = 0 := rfl
@[simp] theorem resetWith_status (s : State) (m : List Host.Cell) (d : Nat) : (resetWith s m d).status = 0 := rfl
@[simp] theorem resetWith_cfg (s : State) (m : List Host.Cell) (d : Nat) : (resetWith s m d).cfg = 0 := rfl
@[simp] theorem resetWith_dim (s : State) (m : List Host.Cell) (d : Nat) : (resetWith s m d).dim = 0 := rfl
@[simp] theorem resetWith_src (s : State) (m : List Host.Cell) (d : Nat) : (resetWith s m d).src = 0 := rfl
@[simp] theorem resetWith_srcLen (s : State) (m : List Host.Cell) (d : Nat) : (resetWith s m d).srcLen = 0 := rfl
@[simp] theorem resetWith_dst (s : State) (m : List Host.Cell) (d : Nat) : (resetWith s m d).dst = 0 := rfl
@[simp] theorem resetWith_resultLen (s : State) (m : List Host.Cell) (d : Nat) : (resetWith s m d).resultLen = 0 := rfl
@[simp] theorem resetWith_version (s : State) (m : List Host.Cell) (d : Nat) : (resetWith s m d).version = 0 := rfl
@[simp] theorem resetWith_errInfo (s : State) (m : List Host.Cell) (d : Nat) : (resetWith s m d).errInfo = 0 := rfl
@[simp] theorem resetWith_bfWord (s : State) (m : List Host.Cell) (d : Nat) : (resetWith s m d).bfWord = 0 := rfl
@[simp] theorem resetWith_bfDesc (s : State) (m : List Host.Cell) (d : Nat) : (resetWith s m d).bfDesc = Bank.zero := rfl
@[simp] theorem resetWith_bfVal (s : State) (m : List Host.Cell) (d : Nat) : (resetWith s m d).bfVal = Bank.zero := rfl
@[simp] theorem resetWith_pend (s : State) (m : List Host.Cell) (d : Nat) : (resetWith s m d).pend = none := rfl
@[simp] theorem resetWith_mem (s : State) (m : List Host.Cell) (d : Nat) : (resetWith s m d).mem = m := rfl
@[simp] theorem resetWith_agenda (s : State) (m : List Host.Cell) (d : Nat) : (resetWith s m d).agenda = s.agenda := rfl
@[simp] theorem resetWith_readLog (s : State) (m : List Host.Cell) (d : Nat) : (resetWith s m d).readLog = s.readLog := rfl
@[simp] theorem resetWith_draws (s : State) (m : List Host.Cell) (d : Nat) : (resetWith s m d).draws = d := rfl
@[simp] theorem resetWith_windows (s : State) (m : List Host.Cell) (d : Nat) : (resetWith s m d).windows = s.windows := rfl

/-! ### loadHeader -/

@[simp] theorem loadHeader_cmd (s : State) (h : HeaderFields) : (loadHeader s h).cmd = s.cmd := rfl
@[simp] theorem loadHeader_status (s : State) (h : HeaderFields) : (loadHeader s h).status = s.status := rfl
@[simp] theorem loadHeader_cfg (s : State) (h : HeaderFields) : (loadHeader s h).cfg = cfgWithHeader s.cfg h := rfl
@[simp] theorem loadHeader_dim (s : State) (h : HeaderFields) : (loadHeader s h).dim = BitVec.ofNat 32 ((h.height <<< 16) ||| h.width) := rfl
@[simp] theorem loadHeader_src (s : State) (h : HeaderFields) : (loadHeader s h).src = s.src := rfl
@[simp] theorem loadHeader_srcLen (s : State) (h : HeaderFields) : (loadHeader s h).srcLen = s.srcLen := rfl
@[simp] theorem loadHeader_dst (s : State) (h : HeaderFields) : (loadHeader s h).dst = s.dst := rfl
@[simp] theorem loadHeader_resultLen (s : State) (h : HeaderFields) : (loadHeader s h).resultLen = s.resultLen := rfl
@[simp] theorem loadHeader_version (s : State) (h : HeaderFields) : (loadHeader s h).version = BitVec.ofNat 32 h.version := rfl
@[simp] theorem loadHeader_errInfo (s : State) (h : HeaderFields) : (loadHeader s h).errInfo = s.errInfo := rfl
@[simp] theorem loadHeader_bfWord (s : State) (h : HeaderFields) : (loadHeader s h).bfWord = s.bfWord := rfl
@[simp] theorem loadHeader_bfDesc (s : State) (h : HeaderFields) : (loadHeader s h).bfDesc = s.bfDesc := rfl
@[simp] theorem loadHeader_bfVal (s : State) (h : HeaderFields) : (loadHeader s h).bfVal = s.bfVal := rfl
@[simp] theorem loadHeader_pend (s : State) (h : HeaderFields) : (loadHeader s h).pend = s.pend := rfl
@[simp] theorem loadHeader_mem (s : State) (h : HeaderFields) : (loadHeader s h).mem = s.mem := rfl
@[simp] theorem loadHeader_agenda (s : State) (h : HeaderFields) : (loadHeader s h).agenda = s.agenda := rfl
@[simp] theorem loadHeader_readLog (s : State) (h : HeaderFields) : (loadHeader s h).readLog = s.readLog := rfl
@[simp] theorem loadHeader_draws (s : State) (h : HeaderFields) : (loadHeader s h).draws = s.draws := rfl
@[simp] theorem loadHeader_windows (s : State) (h : HeaderFields) : (loadHeader s h).windows = s.windows := rfl

end Sys2Proof.Machine
end

