-- ==== Sys2Proof/Laws/Ops.lean ====
section
/-!
SUPPORT. What the shared operations do: the banks, the checks, the ends of a command, and everything `runTransform` can answer.
-/

namespace Sys2Proof.Machine

/-! ### Banks -/

theorem bankGet_bankSet (b : Bank) (k j : Fin 8) (v : Word) :
    bankGet (bankSet b k v) j = if j = k then v else bankGet b j := by
  fin_cases k <;> fin_cases j <;> rfl

theorem bankGet_bankOf (f : Fin 8 → Word) (k : Fin 8) : bankGet (bankOf f) k = f k := by
  fin_cases k <;> rfl

theorem bankGet_zero (k : Fin 8) : bankGet Bank.zero k = 0 := by
  fin_cases k <;> rfl

/-! ### STATUS -/

theorem statusError_toNat (e : ErrorKind) : (statusError e).toNat = 6 + 256 * errorCode e := by
  cases e <;> rfl

@[simp] theorem busy_raise (e : CmdError) (s : State) : busy (raise e s) = false := by
  simp only [busy, raise_status]
  cases e.kind <;> decide

@[simp] theorem done_raise (e : CmdError) (s : State) : done (raise e s) = true := by
  simp only [done, raise_status]
  cases e.kind <;> decide

@[simp] theorem err_raise (e : CmdError) (s : State) : err (raise e s) = true := by
  simp only [err, raise_status]
  cases e.kind <;> decide

@[simp] theorem errCode_raise (e : CmdError) (s : State) : errCode (raise e s) = errorCode e.kind := by
  simp only [errCode, raise_status]
  cases e.kind <;> decide

@[simp] theorem busy_finish (n : Nat) (s : State) : busy (finish n s) = false := by
  simp only [busy, finish_status]; decide

@[simp] theorem done_finish (n : Nat) (s : State) : done (finish n s) = true := by
  simp only [done, finish_status]; decide

@[simp] theorem err_finish (n : Nat) (s : State) : err (finish n s) = false := by
  simp only [err, finish_status]; decide

theorem busy_of_status {s : State} {w : Word} (h : s.status = w) : busy s = w.getLsbD 0 := by
  rw [busy, h]

theorem succeeded_finish (n : Nat) (s : State) (h : n < 2 ^ 32) : Succeeded (finish n s) n :=
  { status := rfl
    errInfo := rfl
    resultLen := by rw [finish_resultLen_of_lt h, BitVec.toNat_ofNat, Nat.mod_eq_of_lt h]
    pend := rfl }

theorem failed_raise (e : CmdError) (s : State) : Failed (raise e s) (errorCode e.kind) e.info :=
  { status := by rw [raise_status, statusError_toNat]
    errInfo := by
      rw [raise_errInfo, BitVec.toNat_ofNat, Nat.mod_eq_of_lt]
      omega
    resultLen := rfl
    pend := rfl }

theorem sameRegisters_raise (e : CmdError) (s : State) : SameRegisters s (raise e s) := by
  constructor <;> rfl

theorem sameRegisters_raise_unspec (e : CmdError) (s : State) (a n : Nat) :
    SameRegisters s (raise e (unspec s a n)) := by
  constructor <;> rfl

theorem sameRegisters_finish_write (n : Nat) (s : State) (a : Nat) (bs : List Byte) :
    SameRegisters s (finish n (writeBytes s a bs)) := by
  constructor <;> rfl

/-! ### Reading in a state with the same memory -/

theorem readByte_congr {s t : State} (h : t.mem = s.mem) (a : Nat) : readByte t a = readByte s a := by
  rw [readByte, readByte, h]

@[simp] theorem readByte_raise (e : CmdError) (s : State) (a : Nat) : readByte (raise e s) a = readByte s a := rfl

@[simp] theorem readByte_finish (n : Nat) (s : State) (a : Nat) : readByte (finish n s) a = readByte s a := rfl

theorem memRead_congr {s t : State} (h : t.mem = s.mem) (a n : Nat) : memRead t a n = memRead s a n := by
  induction n with
  | zero => rfl
  | succ n ih => simp only [memRead, ih, memRead8, readByte_congr h]

@[simp] theorem memRead_finish (n : Nat) (s : State) (a k : Nat) : memRead (finish n s) a k = memRead s a k :=
  memRead_congr (finish_mem n s) a k

/-! ### Checks -/

theorem firstFailure_append (l m : List Check) :
    firstFailure (l ++ m) = (firstFailure l).or (firstFailure m) := by
  induction l with
  | nil => simp [firstFailure]
  | cons c l ih =>
    simp only [List.cons_append, firstFailure]
    split <;> simp_all

theorem firstFailure_mem {l : List Check} {e : CmdError} (h : firstFailure l = some e) :
    ∃ c ∈ l, c.fails = true ∧ e = c.error := by
  induction l with
  | nil => cases h
  | cons c l ih =>
    rw [firstFailure] at h
    split at h
    · next hc => cases h; exact ⟨c, List.mem_cons_self, hc, rfl⟩
    · obtain ⟨d, hd, h'⟩ := ih h
      exact ⟨d, List.mem_cons_of_mem _ hd, h'⟩

theorem firstFailure_cons_fails {c : Check} {l : List Check} (h : c.fails = true) :
    firstFailure (c :: l) = some c.error := by
  rw [firstFailure, if_pos h]

theorem firstFailure_cons_passes {c : Check} {l : List Check} (h : c.fails = false) :
    firstFailure (c :: l) = firstFailure l := by
  rw [firstFailure, h]
  rfl

theorem firstFailure_cons_eq_none_iff (c : Check) (l : List Check) :
    firstFailure (c :: l) = none ↔ c.fails = false ∧ firstFailure l = none := by
  rw [firstFailure]
  cases c.fails <;> simp

theorem beyondTop_eq_false_iff (p : Params) (a n : Nat) :
    beyondTop p a n = false ↔ n = 0 ∨ a + n ≤ 2 ^ p.addrBits := by
  simp only [beyondTop, Bool.and_eq_false_iff, decide_eq_false_iff_not]
  omega

theorem rangesMeet_eq_false_iff (a n b m : Nat) :
    rangesMeet a n b m = false ↔ n = 0 ∨ m = 0 ∨ a + n ≤ b ∨ b + m ≤ a := by
  simp only [rangesMeet, Bool.and_eq_false_iff, decide_eq_false_iff_not]
  omega

theorem rangesMeet_eq_true_iff (a n b m : Nat) :
    rangesMeet a n b m = true ↔ n ≠ 0 ∧ m ≠ 0 ∧ a < b + m ∧ b < a + n := by
  simp only [rangesMeet, Bool.and_eq_true, decide_eq_true_eq]
  omega

/-- The length checks pass exactly when the input is long enough, both ranges fit the address space and they are disjoint. -/
theorem lengthChecks_pass_iff (s : State) (inLen outLen : Nat) :
    firstFailure (lengthChecks Config.params s inLen outLen) = none ↔
      inLen ≤ s.srcLen.toNat ∧ s.src.toNat + inLen ≤ 2 ^ 32 ∧ s.dst.toNat + outLen ≤ 2 ^ 32 ∧
        (inLen = 0 ∨ outLen = 0 ∨ s.src.toNat + inLen ≤ s.dst.toNat ∨ s.dst.toNat + outLen ≤ s.src.toNat) := by
  have h1 := s.src.isLt
  have h2 := s.dst.isLt
  simp only [lengthChecks, firstFailure_cons_eq_none_iff, beyondTop_eq_false_iff, rangesMeet_eq_false_iff,
    decide_eq_false_iff_not, Config.params]
  have h0 : firstFailure [] = none := rfl
  simp only [h0, and_true]
  omega

theorem rangesUsable_iff (s : State) (inLen outLen : Nat) :
    RangesUsable s inLen outLen ↔
      inLen ≤ s.srcLen.toNat ∧ s.src.toNat + inLen ≤ 2 ^ 32 ∧ s.dst.toNat + outLen ≤ 2 ^ 32 ∧
        (inLen = 0 ∨ outLen = 0 ∨ s.src.toNat + inLen ≤ s.dst.toNat ∨ s.dst.toNat + outLen ≤ s.src.toNat) ∧
        touchesWindow s s.src.toNat inLen = false ∧ touchesWindow s s.dst.toNat outLen = false :=
  ⟨fun h => ⟨h.enough, h.srcTop, h.dstTop, h.apart, h.srcPlain, h.dstPlain⟩,
    fun ⟨h1, h2, h3, h4, h5, h6⟩ => ⟨h1, h2, h3, h4, h5, h6⟩⟩

theorem lengthChecks_pass {s : State} {inLen outLen : Nat} (h : RangesUsable s inLen outLen) :
    firstFailure (lengthChecks Config.params s inLen outLen) = none :=
  (lengthChecks_pass_iff s inLen outLen).2 ⟨h.enough, h.srcTop, h.dstTop, h.apart⟩

/-! ### Transforms -/

/-- Everything a transform command can answer with a next state. -/
theorem runTransform_next {p : Params} {t : Transform} {s s' : State} (h : runTransform p t s = .next s') :
    (∃ e, firstFailure (t.config ++ lengthChecks p s t.inLen (outLen t)) = some e ∧ s' = raise e s) ∨
    (∃ q, firstFailure (t.config ++ lengthChecks p s t.inLen (outLen t)) = none ∧ t.badPixel = some q ∧
      s' = raise ⟨.indexOutOfRange, q⟩ (unspec s s.dst.toNat (outLen t))) ∨
    (firstFailure (t.config ++ lengthChecks p s t.inLen (outLen t)) = none ∧ t.badPixel = none ∧
      s' = finish (outLen t) (writeBytes s s.dst.toNat (itemBytes t.width t.count t.item))) := by
  unfold runTransform at h
  split at h
  · next e he => cases h; exact .inl ⟨e, he, rfl⟩
  · next he =>
    split at h
    · cases h
    · split at h
      · next q hq => cases h; exact .inr (.inl ⟨q, he, hq, rfl⟩)
      · next hq => cases h; exact .inr (.inr ⟨he, hq, rfl⟩)

/-- A transform command whose configuration is legal, whose buffers are usable and whose data is in range succeeds. -/
theorem runTransform_succeeds {t : Transform} {s : State} (hc : firstFailure t.config = none)
    (hr : RangesUsable s t.inLen (outLen t)) (hb : t.badPixel = none) :
    runTransform Config.params t s =
      .next (finish (outLen t) (writeBytes s s.dst.toNat (itemBytes t.width t.count t.item))) := by
  unfold runTransform
  rw [firstFailure_append, hc, lengthChecks_pass hr]
  simp [hr.srcPlain, hr.dstPlain, hb]

/-- A transform command with an illegal configuration reports the first failing check. -/
theorem runTransform_config_fails {p : Params} {t : Transform} {s : State} {e : CmdError}
    (hc : firstFailure t.config = some e) : runTransform p t s = .next (raise e s) := by
  unfold runTransform
  rw [firstFailure_append, hc]
  rfl

/-- A transform command with a legal configuration and a failing length check reports that check. -/
theorem runTransform_length_fails {p : Params} {t : Transform} {s : State} {e : CmdError}
    (hc : firstFailure t.config = none) (hl : firstFailure (lengthChecks p s t.inLen (outLen t)) = some e) :
    runTransform p t s = .next (raise e s) := by
  unfold runTransform
  rw [firstFailure_append, hc, hl]
  rfl

/-- A transform command with usable buffers and an offending pixel reports it. -/
theorem runTransform_data_fails {t : Transform} {s : State} {q : Nat} (hc : firstFailure t.config = none)
    (hr : RangesUsable s t.inLen (outLen t)) (hb : t.badPixel = some q) :
    runTransform Config.params t s =
      .next (raise ⟨.indexOutOfRange, q⟩ (unspec s s.dst.toNat (outLen t))) := by
  unfold runTransform
  rw [firstFailure_append, hc, lengthChecks_pass hr]
  simp [hr.srcPlain, hr.dstPlain, hb]

/-- The smallest offending position: it is in range, it offends, and none before it does. -/
theorem firstBadIndex_eq_some_iff (s : State) (n b q : Nat) :
    firstBadIndex s n b = some q ↔
      q < n ∧ 2 ^ b ≤ srcIndex s q ∧ ∀ p, p < q → srcIndex s p < 2 ^ b := by
  unfold firstBadIndex
  rw [List.find?_range_eq_some]
  simp only [decide_eq_true_eq, List.mem_range, Bool.not_eq_true', decide_eq_false_iff_not, not_le]
  tauto

theorem firstBadIndex_eq_none_iff (s : State) (n b : Nat) :
    firstBadIndex s n b = none ↔ ∀ p, p < n → srcIndex s p < 2 ^ b := by
  unfold firstBadIndex
  rw [List.find?_range_eq_none]
  simp

/-- Every command but NOP, BF_PACK, BF_UNPACK and HDR_DEC is a transform, whatever the parameters. -/
theorem execWith_eq_runTransform {p : Params} {i : Instr} {s : State} {t : Transform} (h : transformOf i s p = some t) :
    execWith p i s = runTransform p t s := by
  cases i <;> first | (cases h; rfl) | (simp [transformOf] at h)

theorem exec_eq_runTransform {i : Instr} {s : State} {t : Transform} (h : transformOf i s = some t) :
    exec i s = runTransform Config.params t s := by
  cases i <;> first | (cases h; rfl) | (simp [transformOf] at h)

end Sys2Proof.Machine
end

