-- ==== Sys2Proof/Laws/HostBus.lean ====
section
/-!
SUPPORT. What the host's side does: which agent a step moves, and the register block.
-/

namespace Sys2Proof.Machine

/-! ### The parameters -/

/-- `exec` is the parametric meaning at the spec's values of the parameters. -/
theorem execWith_params : execWith Config.params = exec := by
  funext i s
  cases i <;> rfl

/-- `step` is the parametric step at the spec's values of the parameters. -/
theorem stepWith_params : stepWith Config.params = step := by
  funext s
  rw [stepWith, execWith_params, step]

/-- The machine the host is given is the parametric one at the spec's values of the parameters. -/
theorem machine_params : machine Config.params = Sys2Proof.core := by
  rw [machine, stepWith_params, Sys2Proof.core]

/-! ### Who moves -/

theorem step_nil {s : State} (h : s.agenda = []) :
    step s = if busy s then engineStep exec s else .next s := by
  simp only [step, advance, h]

theorem step_engine {s : State} {rest : List HostEvent} (h : s.agenda = .engine :: rest) :
    step s = if busy s then engineStep exec { s with agenda := rest } else .next { s with agenda := rest } := by
  simp only [step, advance, h]

theorem step_wait {s : State} {rest : List HostEvent} (h : s.agenda = .wait :: rest) :
    step s = if busy s then engineStep exec s else .next (readReg { s with agenda := rest } .status) := by
  simp only [step, advance, h, hostEvent]

theorem step_write {s : State} {rest : List HostEvent} {w off : Nat} {v : Word}
    (h : s.agenda = .write w off v :: rest) : step s = hostWrite Config.params { s with agenda := rest } w off v := by
  simp only [step, advance, h, hostEvent]

theorem step_read {s : State} {rest : List HostEvent} {w off : Nat}
    (h : s.agenda = .read w off :: rest) : step s = hostRead Config.params { s with agenda := rest } w off := by
  simp only [step, advance, h, hostEvent]

theorem step_memWrite {s : State} {rest : List HostEvent} {a : Nat} {b : Byte}
    (h : s.agenda = .memWrite a b :: rest) : step s = hostMemWrite Config.params { s with agenda := rest } a b := by
  simp only [step, advance, h, hostEvent]

theorem step_memRead {s : State} {rest : List HostEvent} {a : Nat}
    (h : s.agenda = .memRead a :: rest) : step s = hostMemRead Config.params { s with agenda := rest } a := by
  simp only [step, advance, h, hostEvent]

theorem step_reset {s : State} {rest : List HostEvent} (h : s.agenda = .reset :: rest) :
    step s = resetBlock exec { s with agenda := rest } := by
  simp only [step, advance, h, hostEvent]

theorem engineStep_some {s : State} {w : Word} (h : s.pend = some w) :
    engineStep exec s = runWord exec w s := by
  simp only [engineStep, h]

theorem runWord_some {s : State} {w : Word} {i : Instr} (h : decode w = some i) :
    runWord exec w s = exec i s := by
  simp only [runWord, h]

theorem runWord_none {s : State} {w : Word} (h : decode w = none) :
    runWord exec w s = .next (raise ⟨.illegalCommand, w.toNat⟩ s) := by
  simp only [runWord, h]

/-- Everything a step can be: an engine step, one host event, or nothing. -/
theorem step_cases (s : State) :
    (busy s = true ∧ (step s = engineStep exec s ∨
      ∃ rest, s.agenda = .engine :: rest ∧ step s = engineStep exec { s with agenda := rest })) ∨
    (∃ e rest, s.agenda = e :: rest ∧ step s = hostEvent Config.params exec { s with agenda := rest } e ∧
      (e = .wait ∨ e = .engine → busy s = false)) ∨
    (busy s = false ∧ s.agenda = [] ∧ step s = .next s) := by
  cases h : s.agenda with
  | nil =>
    rw [step_nil h]
    cases hb : busy s <;> simp
  | cons e rest =>
    cases e with
    | engine => rw [step_engine h]; cases hb : busy s <;> simp [hostEvent]
    | wait => rw [step_wait h]; cases hb : busy s <;> simp [hostEvent]
    | write => simp [step, advance, h]
    | read => simp [step, advance, h]
    | memWrite => simp [step, advance, h]
    | memRead => simp [step, advance, h]
    | reset => simp [step, advance, h]

/-! ### The register block -/

theorem legalAccess_iff (w off : Nat) :
    legalAccess w off = true ↔ w = 32 ∧ off % 4 = 0 ∧ off < 128 := by
  simp [legalAccess, and_assoc]

theorem hostWrite_legal {s : State} {off : Nat} (v : Word) (h4 : off % 4 = 0) (hl : off < 128) :
    hostWrite Config.params s 32 off v =
      .next (if busy s then s else writeReg s (regAt Config.params off) v) := by
  rw [hostWrite, if_pos ((legalAccess_iff _ _).2 ⟨rfl, h4, hl⟩)]

theorem hostRead_legal {s : State} {off : Nat} (h4 : off % 4 = 0) (hl : off < 128) :
    hostRead Config.params s 32 off = .next (readReg s (regAt Config.params off)) := by
  rw [hostRead, if_pos ((legalAccess_iff _ _).2 ⟨rfl, h4, hl⟩)]

/-- A register written and looked at: the writable bits are those written, a read-only register keeps its value. -/
theorem regValue_writeReg_same (s : State) (r : Reg) (v : Word) (hr : r ≠ .cmd) :
    regValue (writeReg s r v) r =
      if r = .status ∨ r = .resultLen ∨ r = .errInfo then regValue s r else v &&& writeMask r := by
  have hv : v &&& 0xFFFFFFFF#32 = v := BitVec.and_allOnes
  cases r <;> first | exact (hr rfl).elim | simp [writeReg, regValue, writeMask, bankGet_bankSet, hv]

/-- A write to a register other than CMD changes no other register. -/
theorem regValue_writeReg_other (s : State) {r r' : Reg} (v : Word) (hr : r ≠ .cmd) (h : r' ≠ r) :
    regValue (writeReg s r v) r' = regValue s r' := by
  cases r <;> first | exact (hr rfl).elim | rfl | skip
  all_goals cases r' <;> first | rfl | exact (h rfl).elim | skip
  all_goals
    simp only [writeReg, regValue, bankGet_bankSet]
    split
    · next hk => exact (h (by rw [hk])).elim
    · rfl

/-- Offsets of the block, as numbers of words. -/
theorem offset_word {off : Nat} (h4 : off % 4 = 0) (hl : off < 128) : ∃ k : Fin 32, off = 4 * k.val :=
  ⟨⟨off / 4, by omega⟩, by show off = 4 * (off / 4); omega⟩

/-- Two offsets name one register only if they are equal or both reserved. -/
theorem regAt_injective : ∀ j k : Fin 32, regAt Config.params (4 * j.val) = regAt Config.params (4 * k.val) →
    j = k ∨ regAt Config.params (4 * k.val) = .reserved := by decide

theorem regAt_eq_cmd_iff : ∀ k : Fin 32, regAt Config.params (4 * k.val) = .cmd ↔ k = 0 := by decide

theorem regAt_bfDesc (k : Fin 8) : regAt Config.params (0x30 + 4 * k.val) = .bfDesc k := by revert k; decide

theorem regAt_bfVal (k : Fin 8) : regAt Config.params (0x50 + 4 * k.val) = .bfVal k := by revert k; decide

theorem regAt_reserved {off : Nat} (h : off = 0x2C ∨ 0x70 ≤ off) : regAt Config.params off = .reserved := by
  rcases h with rfl | h
  · decide
  · simp only [regAt]
    repeat rw [if_neg (by omega)]

/-- The register at an offset is the one of R16's map. -/
theorem registerHolds_regAt (s : State) (off : Nat) :
    RegisterHolds s off (regValue s (regAt Config.params off)) := by
  constructor
  case bfDesc => rintro k rfl; rw [regAt_bfDesc]; rfl
  case bfVal => rintro k rfl; rw [regAt_bfVal]; rfl
  case reserved => intro h; rw [regAt_reserved h]; rfl
  all_goals (rintro rfl; rfl)

/-- What PEND makes of the running command. -/
theorem running_eq_some_iff (s : State) (i : Instr) : running s = some i ↔ s.pend = some (encode i) := by
  unfold running
  cases s.pend with
  | none => simp
  | some w => simp [decode_eq_some_iff]

/-! ### The ranges of a running command -/

theorem rangesMeet_byte (a b n : Nat) : rangesMeet a 1 b n = true ↔ b ≤ a ∧ a < b + n := by
  simp only [rangesMeet, Bool.and_eq_true, decide_eq_true_eq]
  omega

/-- An address meets one of the running command's ranges, given as the base register `base` and one of the two lengths. -/
theorem rangesMeet_running (s : State) (a base : Nat) (len : Nat × Nat → Nat) (hz : len (0, 0) = 0) :
    rangesMeet a 1 base (len (runningRanges s)) = true ↔
      busy s = true ∧ ∃ i, s.pend = some (encode i) ∧ base ≤ a ∧ a < base + len (commandRanges i s) := by
  rw [rangesMeet_byte, runningRanges]
  by_cases hb : busy s = true
  · cases hr : running s with
    | none =>
      have hn : ∀ i, s.pend ≠ some (encode i) := fun i hp => by
        rw [(running_eq_some_iff s i).2 hp] at hr
        cases hr
      simp only [hb, if_true, hz, hn, false_and, exists_false, and_false, iff_false]
      omega
    | some i =>
      simp only [hb, if_true, true_and]
      refine ⟨fun h => ⟨i, (running_eq_some_iff s i).1 hr, h⟩, ?_⟩
      rintro ⟨j, hp, h⟩
      rw [← running_eq_some_iff, hr] at hp
      cases hp
      exact h
  · simp only [hb, if_false, hz, false_and, iff_false, Bool.false_eq_true]
    omega

theorem readBreaches_iff (s : State) (a : Nat) : readBreaches s a = true ↔ InRunningOutput s a :=
  rangesMeet_running s a s.dst.toNat Prod.snd rfl

theorem writeBreaches_iff (s : State) (a : Nat) :
    writeBreaches s a = true ↔ InRunningInput s a ∨ InRunningOutput s a := by
  rw [writeBreaches, Bool.or_eq_true]
  exact or_congr (rangesMeet_running s a s.src.toNat Prod.fst rfl) (readBreaches_iff s a)

/-! ### Reset -/

theorem resetBlock_idle {s : State} (h : busy s = false ∨ s.pend = none) :
    resetBlock exec s = .next (resetWith s s.mem s.draws) := by
  unfold resetBlock
  rcases h with h | h <;> simp [h]

theorem resetBlock_running {s : State} {w : Word} (hb : busy s = true) (hp : s.pend = some w) :
    resetBlock exec s =
      match runWord exec w s with
      | .next t => .next (resetWith s (memMix t.draws s.mem t.mem) (t.draws + 1))
      | .fault f => .fault f
      | .refused r => .refused r := by
  cases h : runWord exec w s <;> simp only [resetBlock, hb, hp, if_true, h]

end Sys2Proof.Machine
end

