-- ==== Sys2Proof/Laws/Exec.lean ====
section
/-!
SUPPORT. Everything a command can answer, said once over all commands.
-/

namespace Sys2Proof.Machine

/-- No check that comes before the data check reports a data error. -/
theorem check_kinds {i : Instr} {s : State} {tr : Transform} (h : transformOf i s = some tr) {e : CmdError}
    (he : firstFailure (tr.config ++ lengthChecks Config.params s tr.inLen (outLen tr)) = some e) :
    e.kind ≠ .indexOutOfRange := by
  obtain ⟨c, hc, _, rfl⟩ := firstFailure_mem he
  rw [List.mem_append] at hc
  rcases hc with hc | hc
  · have hh : ∀ b k p w, c ∈ headerChecks b k p w → c.error.kind ≠ .indexOutOfRange := by
      intro b k p w hc
      unfold headerChecks at hc
      split at hc
      · simp at hc
      · simp only [List.mem_cons, List.not_mem_nil, or_false] at hc
        rcases hc with rfl | rfl | rfl | rfl <;> simp [depthCheck]
    cases i <;> cases h <;>
      first
      | exact hh _ _ _ _ hc
      | (simp only [palEncSte, palEncTt, palEncFalcon, palDecSte, palDecTt, palDecFalcon, palEncTransform,
          palDecTransform, pixEncPlanar, pixEncPacked, pixEncFixed, pixDecPlanar, pixDecPacked, pixDecFixed,
          paletteChecks, planarChecks, packedChecks, fixedChecks, List.mem_cons, List.not_mem_nil, or_false] at hc
         rcases hc with rfl | rfl | rfl <;> simp [depthCheck, widthCheck])
  · simp only [lengthChecks, List.mem_cons, List.not_mem_nil, or_false] at hc
    rcases hc with rfl | rfl | rfl | rfl <;> simp

theorem hdrDec_check_kinds {s : State} {e : CmdError}
    (h : firstFailure (hdrDecFirstChecks Config.params s) = some e ∨ firstFailure (hdrDecChecks s) = some e) :
    e.kind ≠ .indexOutOfRange := by
  rcases h with h | h
  · obtain ⟨c, hc, _, rfl⟩ := firstFailure_mem h
    simp only [hdrDecFirstChecks, List.mem_cons, List.not_mem_nil, or_false] at hc
    rcases hc with rfl | rfl <;> simp
  · obtain ⟨c, hc, _, rfl⟩ := firstFailure_mem h
    simp only [hdrDecChecks, List.mem_append, List.mem_cons, List.not_mem_nil, or_false] at hc
    rcases hc with (rfl | rfl | rfl) | hc
    · simp
    · simp
    · simp
    · unfold headerChecks at hc
      split at hc
      · simp at hc
      · simp only [List.mem_cons, List.not_mem_nil, or_false] at hc
        rcases hc with rfl | rfl | rfl | rfl <;> simp [depthCheck]

/-- The three ways a command that writes memory ends, and the ways the others end. -/
theorem exec_cases {i : Instr} {s t : State} (h : exec i s = .next t) :
    (∃ e, e.kind ≠ .indexOutOfRange ∧ t = raise e s) ∨
    (∃ tr q, transformOf i s = some tr ∧
      firstFailure (tr.config ++ lengthChecks Config.params s tr.inLen (outLen tr)) = none ∧ tr.badPixel = some q ∧
      t = raise ⟨.indexOutOfRange, q⟩ (unspec s s.dst.toNat (outLen tr))) ∨
    (∃ tr, transformOf i s = some tr ∧
      firstFailure (tr.config ++ lengthChecks Config.params s tr.inLen (outLen tr)) = none ∧ tr.badPixel = none ∧
      t = finish (outLen tr) (writeBytes s s.dst.toNat (itemBytes tr.width tr.count tr.item))) ∨
    (i = .nop ∧ t = finish 0 s) ∨
    (i = .bfPack ∧ ∃ w, t = finish 0 { s with bfWord := w }) ∨
    (i = .bfUnpack ∧ ∃ b, t = finish 0 { s with bfVal := b }) ∨
    (i = .hdrDec ∧ firstFailure (hdrDecChecks s) = none ∧
      t = finish (headerLen (readHeader s).bpp) (loadHeader s (readHeader s))) := by
  cases htr : transformOf i s with
  | some tr =>
    rw [exec_eq_runTransform htr] at h
    rcases runTransform_next h with ⟨e, he, rfl⟩ | ⟨q, h1, h2, rfl⟩ | ⟨h1, h2, rfl⟩
    · exact .inl ⟨e, check_kinds htr he, rfl⟩
    · exact .inr (.inl ⟨tr, q, rfl, h1, h2, rfl⟩)
    · exact .inr (.inr (.inl ⟨tr, rfl, h1, h2, rfl⟩))
  | none =>
    cases i <;> first | (cases htr; done) | skip
    · cases h
      exact .inr (.inr (.inr (.inl ⟨rfl, rfl⟩)))
    · simp only [exec, execBfPack, execBfPackWith] at h
      split at h
      · cases h; exact .inl ⟨_, by simp, rfl⟩
      · cases h; exact .inr (.inr (.inr (.inr (.inl ⟨rfl, _, rfl⟩))))
    · simp only [exec, execBfUnpack, execBfUnpackWith] at h
      split at h
      · cases h; exact .inl ⟨_, by simp, rfl⟩
      · cases h; exact .inr (.inr (.inr (.inr (.inr (.inl ⟨rfl, _, rfl⟩)))))
    · simp only [exec, execHdrDec, execHdrDecWith] at h
      split at h
      · next e he => cases h; exact .inl ⟨e, hdrDec_check_kinds (.inl he), rfl⟩
      · split at h
        · cases h
        · split at h
          · next e he => cases h; exact .inl ⟨e, hdrDec_check_kinds (.inr he), rfl⟩
          · next hc => cases h; exact .inr (.inr (.inr (.inr (.inr (.inr ⟨rfl, hc, rfl⟩)))))

theorem touchesWindow_nil {s : State} (h : s.windows = []) (a n : Nat) : touchesWindow s a n = false := by
  simp [touchesWindow, h]

/-- Where the platform has no side-effect window, a transform command answers a next state. -/
theorem runTransform_answers {s : State} (h : s.windows = []) (p : Params) (t : Transform) :
    ∃ u, runTransform p t s = .next u := by
  unfold runTransform
  simp only [touchesWindow_nil h]
  split
  · exact ⟨_, rfl⟩
  · rw [if_neg (by decide)]
    split <;> exact ⟨_, rfl⟩

theorem execHdrDec_answers {s : State} (h : s.windows = []) : ∃ u, execHdrDec s = .next u := by
  unfold execHdrDec execHdrDecWith
  simp only [touchesWindow_nil h]
  split
  · exact ⟨_, rfl⟩
  · rw [if_neg (by decide)]
    split <;> exact ⟨_, rfl⟩

end Sys2Proof.Machine
end

