-- ==== Sys2Proof/Laws/Commands.lean ====
section
/-!
SUPPORT. How a command ends, in the terms claims use: a transform command that writes its output, and one that fails a check.
-/

namespace Sys2Proof.Machine

theorem beyondTop_eq_true_iff (a n : Nat) :
    beyondTop Config.params a n = true ↔ n ≠ 0 ∧ 2 ^ 32 < a + n := by
  simp only [beyondTop, Bool.and_eq_true, decide_eq_true_eq]
  exact Iff.rfl

theorem cfgBpp_lt (s : State) : cfgBpp s < 256 := by unfold cfgBpp slice; omega

theorem cfgBpc_lt (s : State) : cfgBpc s < 256 := by unfold cfgBpc slice; omega

theorem memRead8_lt (s : State) (a : Nat) : memRead8 s a < 256 := (readByte s a).isLt

/-- A transform command with a legal configuration, usable buffers and good data writes its items at DST. -/
theorem commandWrites_transform {i : Instr} {s : State} {tr : Transform} {post : State → Prop}
    (h : transformOf i s = some tr) (hc : firstFailure tr.config = none)
    (hr : RangesUsable s tr.inLen (outLen tr)) (hb : tr.badPixel = none)
    (hn : tr.inLen = 0 → outLen tr < 2 ^ 32)
    (hp : post (finish (outLen tr)
      (writeBytes s s.dst.toNat (itemBytes tr.width tr.count tr.item)))) :
    CommandWrites i s (outLen tr) post := by
  have hlt : outLen tr < 2 ^ 32 := by
    have := hr.srcTop
    have := hr.dstTop
    have := hr.apart
    omega
  refine ⟨_, (exec_eq_runTransform h).trans (runTransform_succeeds hc hr hb), succeeded_finish _ _ hlt,
    sameRegisters_finish_write _ _ _ _, ?_, finish_draws_of_lt hlt _, hp⟩
  · intro x hx
    rw [readByte_finish, readByte_writeBytes_outside (by rw [itemBytes_length]; exact hx)]

theorem commandFails_raise {i : Instr} {s : State} {e : CmdError} (h : exec i s = .next (raise e s)) :
    CommandFails i s (errorCode e.kind) e.info :=
  ⟨_, h, failed_raise e s, sameRegisters_raise e s, rfl, rfl⟩

/-- A transform command reports the first failing check of its configuration. -/
theorem commandFails_config {i : Instr} {s : State} {tr : Transform} {e : CmdError}
    (h : transformOf i s = some tr) (hc : firstFailure tr.config = some e) :
    CommandFails i s (errorCode e.kind) e.info :=
  commandFails_raise ((exec_eq_runTransform h).trans (runTransform_config_fails hc))

/-- A transform command with a legal configuration reports the first failing length check. -/
theorem commandFails_length {i : Instr} {s : State} {tr : Transform} {e : CmdError}
    (h : transformOf i s = some tr) (hc : firstFailure tr.config = none)
    (hl : firstFailure (lengthChecks Config.params s tr.inLen (outLen tr)) = some e) :
    CommandFails i s (errorCode e.kind) e.info :=
  commandFails_raise ((exec_eq_runTransform h).trans (runTransform_length_fails hc hl))

/-- A transform command that passes its checks has its output below the top of memory. -/
theorem outLen_fits {tr : Transform} {s : State}
    (h : firstFailure (tr.config ++ lengthChecks Config.params s tr.inLen (outLen tr)) = none) :
    s.dst.toNat + outLen tr ≤ 2 ^ 32 := by
  rw [firstFailure_append] at h
  cases hc : firstFailure tr.config with
  | some e => rw [hc] at h; simp at h
  | none => rw [hc] at h; simp at h; exact ((lengthChecks_pass_iff _ _ _).1 h).2.2.1

/-! ### The invariant, piece by piece -/

/-- The invariant does not look at what belongs to the host, or at the draw counter. -/
theorem inv_host {s : State} (h : Inv s) (agenda : List HostEvent) (log : List Word) (draws : Nat) :
    Inv { s with agenda := agenda, readLog := log, draws := draws } :=
  ⟨h.1, h.2, h.3, h.4, h.5, h.6, h.7, h.8⟩

theorem inv_raise {s : State} (h : Inv s) (e : CmdError) : Inv (raise e s) := by
  refine ⟨?_, by simp, h.3, h.4, h.5, fun _ => rfl, by simp, h.8⟩
  rw [raise_status]
  cases e.kind <;> decide

theorem inv_finish {s : State} (h3 : s.cfg &&& 0xF8000000#32 = 0) (h4 : s.version &&& 0xFFFF0000#32 = 0)
    (h5 : ∀ k : Fin 8, bankGet s.bfDesc k &&& 0xFFFFC0E0#32 = 0) (h8 : Memory.wf s.mem) (n : Nat) :
    Inv (finish n s) := by
  refine ⟨?_, by simp, h3, h4, h5, by simp, by simp, h8⟩
  rw [finish_status]
  decide

/-- The CFG that a header loads keeps the reserved bits at 0. -/
theorem cfgWithHeader_reserved {cfg : Word} (h : cfg &&& 0xF8000000#32 = 0) (f : HeaderFields)
    (hb : f.bpp < 256) (hc : f.bpc < 256) (hk : f.palKind < 4) :
    cfgWithHeader cfg f &&& 0xF8000000#32 = 0 := by
  have hlt : f.bpp ||| f.bpc <<< 8 ||| f.palKind <<< 24 < 2 ^ 27 := by
    refine Nat.or_lt_two_pow (Nat.or_lt_two_pow ?_ ?_) ?_ <;> simp [Nat.shiftLeft_eq] <;> omega
  apply BitVec.eq_of_getLsbD_eq
  intro j hj
  have hx : (cfg &&& 0xF8000000#32).getLsbD j = false := by rw [h]; simp
  rw [BitVec.getLsbD_and] at hx
  rw [cfgWithHeader, BitVec.getLsbD_and, BitVec.getLsbD_or, BitVec.getLsbD_and]
  by_cases hj' : j < 27
  · have hm : ∀ j < 27, (0xF8000000#32).getLsbD j = false := by decide
    rw [hm j hj']
    simp
  · have hy : (BitVec.ofNat 32 (f.bpp ||| f.bpc <<< 8 ||| f.palKind <<< 24)).getLsbD j = false := by
      rw [BitVec.getLsbD_ofNat,
        Nat.testBit_lt_two_pow (lt_of_lt_of_le hlt (Nat.pow_le_pow_right (by omega) (by omega : 27 ≤ j)))]
      simp
    rw [hy]
    have hm : ∀ j < 32, 27 ≤ j → (0xF8000000#32).getLsbD j = true := by decide
    rw [hm j hj (by omega)] at hx
    simp at hx
    simp [hx]

end Sys2Proof.Machine
end

