-- ==== Sys2Proof/Laws/PerInstr.lean ====
section
/-!
SUPPORT. What holds of every instruction as syntax, one lemma per constructor: its encoding is a well-formed command word
(30_encoding R51, R52) and decodes to it alone (R53).
-/

/-- The encoding of `i` has reserved bits 0 and an assigned function, fits the opcode byte, decodes to `i`, and is no other
instruction's encoding. -/
def Sys2Proof.Laws.CodecWord.Statement (i : Sys2Proof.Instr) : Prop :=
  (Sys2Proof.cmdFields (Sys2Proof.encode i)).wellFormed = true ∧ (Sys2Proof.encode i).toNat < 256 ∧
    Sys2Proof.decode (Sys2Proof.encode i) = some i ∧
    ∀ w : Sys2Proof.Word, Sys2Proof.decode w = some i → w = Sys2Proof.encode i

theorem Sys2Proof.Laws.CodecWord.nop : Sys2Proof.Laws.CodecWord.Statement .nop :=
  ⟨rfl, by decide, rfl, fun w h => (Sys2Proof.decode_eq_some_iff w .nop).1 h⟩

theorem Sys2Proof.Laws.CodecWord.palEncSte : Sys2Proof.Laws.CodecWord.Statement .palEncSte :=
  ⟨rfl, by decide, rfl, fun w h => (Sys2Proof.decode_eq_some_iff w .palEncSte).1 h⟩

theorem Sys2Proof.Laws.CodecWord.palEncTt : Sys2Proof.Laws.CodecWord.Statement .palEncTt :=
  ⟨rfl, by decide, rfl, fun w h => (Sys2Proof.decode_eq_some_iff w .palEncTt).1 h⟩

theorem Sys2Proof.Laws.CodecWord.palEncFalcon : Sys2Proof.Laws.CodecWord.Statement .palEncFalcon :=
  ⟨rfl, by decide, rfl, fun w h => (Sys2Proof.decode_eq_some_iff w .palEncFalcon).1 h⟩

theorem Sys2Proof.Laws.CodecWord.palDecSte : Sys2Proof.Laws.CodecWord.Statement .palDecSte :=
  ⟨rfl, by decide, rfl, fun w h => (Sys2Proof.decode_eq_some_iff w .palDecSte).1 h⟩

theorem Sys2Proof.Laws.CodecWord.palDecTt : Sys2Proof.Laws.CodecWord.Statement .palDecTt :=
  ⟨rfl, by decide, rfl, fun w h => (Sys2Proof.decode_eq_some_iff w .palDecTt).1 h⟩

theorem Sys2Proof.Laws.CodecWord.palDecFalcon : Sys2Proof.Laws.CodecWord.Statement .palDecFalcon :=
  ⟨rfl, by decide, rfl, fun w h => (Sys2Proof.decode_eq_some_iff w .palDecFalcon).1 h⟩

theorem Sys2Proof.Laws.CodecWord.pixEncPlanar : Sys2Proof.Laws.CodecWord.Statement .pixEncPlanar :=
  ⟨rfl, by decide, rfl, fun w h => (Sys2Proof.decode_eq_some_iff w .pixEncPlanar).1 h⟩

theorem Sys2Proof.Laws.CodecWord.pixEncPacked : Sys2Proof.Laws.CodecWord.Statement .pixEncPacked :=
  ⟨rfl, by decide, rfl, fun w h => (Sys2Proof.decode_eq_some_iff w .pixEncPacked).1 h⟩

theorem Sys2Proof.Laws.CodecWord.pixEncFixed : Sys2Proof.Laws.CodecWord.Statement .pixEncFixed :=
  ⟨rfl, by decide, rfl, fun w h => (Sys2Proof.decode_eq_some_iff w .pixEncFixed).1 h⟩

theorem Sys2Proof.Laws.CodecWord.pixDecPlanar : Sys2Proof.Laws.CodecWord.Statement .pixDecPlanar :=
  ⟨rfl, by decide, rfl, fun w h => (Sys2Proof.decode_eq_some_iff w .pixDecPlanar).1 h⟩

theorem Sys2Proof.Laws.CodecWord.pixDecPacked : Sys2Proof.Laws.CodecWord.Statement .pixDecPacked :=
  ⟨rfl, by decide, rfl, fun w h => (Sys2Proof.decode_eq_some_iff w .pixDecPacked).1 h⟩

theorem Sys2Proof.Laws.CodecWord.pixDecFixed : Sys2Proof.Laws.CodecWord.Statement .pixDecFixed :=
  ⟨rfl, by decide, rfl, fun w h => (Sys2Proof.decode_eq_some_iff w .pixDecFixed).1 h⟩

theorem Sys2Proof.Laws.CodecWord.bfPack : Sys2Proof.Laws.CodecWord.Statement .bfPack :=
  ⟨rfl, by decide, rfl, fun w h => (Sys2Proof.decode_eq_some_iff w .bfPack).1 h⟩

theorem Sys2Proof.Laws.CodecWord.bfUnpack : Sys2Proof.Laws.CodecWord.Statement .bfUnpack :=
  ⟨rfl, by decide, rfl, fun w h => (Sys2Proof.decode_eq_some_iff w .bfUnpack).1 h⟩

theorem Sys2Proof.Laws.CodecWord.hdrEnc : Sys2Proof.Laws.CodecWord.Statement .hdrEnc :=
  ⟨rfl, by decide, rfl, fun w h => (Sys2Proof.decode_eq_some_iff w .hdrEnc).1 h⟩

theorem Sys2Proof.Laws.CodecWord.hdrDec : Sys2Proof.Laws.CodecWord.Statement .hdrDec :=
  ⟨rfl, by decide, rfl, fun w h => (Sys2Proof.decode_eq_some_iff w .hdrDec).1 h⟩
end

