-- ==== Sys2Proof/Tests/Slice0.lean ====
section
/-!
SUPPORT. Small tests of the model, with expected results from the spec (30_encoding's encodings, 95_test_vectors' vectors, by
their names there), and for every statement that has hypotheses a named witness that meets them.
-/

namespace Sys2Proof.Tests

-- One theorem at a time: this many at once would start more threads than the memory limit allows.
set_option Elab.async false

open Sys2Proof.Machine

/-! ### Command words: what WellFormed refuses -/

/-- NOP's fields are well formed (R51, R52). -/
theorem test_wellFormed_nop : (CmdWord.mk 0 0 0).wellFormed = true := by decide

/-- Check 1: a reserved bit is set (R51). -/
theorem test_illFormed_reserved : (CmdWord.mk 0 0 1).wellFormed = false := by decide

/-- Check 2: family 7 has no function (R52). -/
theorem test_illFormed_family : (CmdWord.mk 7 0 0).wellFormed = false := by decide

/-- Check 2: palette variant 0 spells no command (R52). -/
theorem test_illFormed_variant_zero : (CmdWord.mk 1 0 0).wellFormed = false := by decide

/-- Check 2: function 4 has a bit of FUNC[3:2] set (R52). -/
theorem test_illFormed_func_high : (CmdWord.mk 2 4 0).wellFormed = false := by decide

/-- Check 2: mode 3 of family 3 is unassigned (R52, vector C7). -/
theorem test_illFormed_mode : (CmdWord.mk 3 3 0).wellFormed = false := by decide

/-! ### Decoding: each word written bit by bit, RSVD 31:8, FAMILY 7:4, FUNC 3:0 (R51, R53) -/

theorem test_decode_control :
    decode 0b00000000000000000000000000000000#32 = some .nop := by decide

theorem test_decode_palette_encode :
    decode 0b00000000000000000000000000010001#32 = some .palEncSte ∧
    decode 0b00000000000000000000000000010010#32 = some .palEncTt ∧
    decode 0b00000000000000000000000000010011#32 = some .palEncFalcon := by decide

theorem test_decode_palette_decode :
    decode 0b00000000000000000000000000100001#32 = some .palDecSte ∧
    decode 0b00000000000000000000000000100010#32 = some .palDecTt ∧
    decode 0b00000000000000000000000000100011#32 = some .palDecFalcon := by decide

theorem test_decode_pixel_encode :
    decode 0b00000000000000000000000000110000#32 = some .pixEncPlanar ∧
    decode 0b00000000000000000000000000110001#32 = some .pixEncPacked ∧
    decode 0b00000000000000000000000000110010#32 = some .pixEncFixed := by decide

theorem test_decode_pixel_decode :
    decode 0b00000000000000000000000001000000#32 = some .pixDecPlanar ∧
    decode 0b00000000000000000000000001000001#32 = some .pixDecPacked ∧
    decode 0b00000000000000000000000001000010#32 = some .pixDecFixed := by decide

theorem test_decode_bitlayout :
    decode 0b00000000000000000000000001010000#32 = some .bfPack ∧
    decode 0b00000000000000000000000001010001#32 = some .bfUnpack := by decide

theorem test_decode_header :
    decode 0b00000000000000000000000001100000#32 = some .hdrEnc ∧
    decode 0b00000000000000000000000001100001#32 = some .hdrDec := by decide

/-- The table numbers a command's bits as the CMD register does, and drops every bit above `nbits`. -/
theorem test_decodeTableWord :
    decodeTableWord 32 0x61 = some .hdrDec ∧ decodeTableWord 8 0x161 = some .hdrDec ∧
    decodeTableWord 32 0x161 = none := by decide

/-! ### Host assembly (R57's examples in 95_test_vectors: H3's CFG, and descriptor (8, 4)) -/

theorem test_setcfg : asmSetCfg 2 (-1) 12 1 0 = .write 32 0x08 0x010CFF02#32 := by decide

theorem test_setdim : asmSetDim 320 200 = .write 32 0x0C 0x00C80140#32 := by decide

theorem test_setdesc : asmSetDesc 7 8 4 = .write 32 0x4C 0x00000408#32 := by decide

/-! ### One step of each command -/

/-- The start state of a vector: CFG, DIM, SRC_LEN and DST, and the input at SRC = 0x1000. -/
def st (cfg dim srcLen dst : Nat) (inp : List Nat) : State :=
  asmMem
    { State.reset with
      cfg := BitVec.ofNat 32 cfg, dim := BitVec.ofNat 32 dim, src := 0x1000,
      srcLen := BitVec.ofNat 32 srcLen, dst := BitVec.ofNat 32 dst }
    0x1000 (inp.map (BitVec.ofNat 8))

/-- The step that runs `w` ends with this STATUS, RESULT_LEN, ERR_INFO and output bytes. -/
def ends (s : State) (w : Word) (status resultLen errInfo : Nat) (out : List Nat) : Bool :=
  match step (s.withFetchWord 32 w.toNat) with
  | .next t =>
    decide (t.status.toNat = status ∧ t.resultLen.toNat = resultLen ∧ t.errInfo.toNat = errInfo ∧
      (readBytes t t.dst.toNat out.length).map BitVec.toNat = out ∧ t.cmd = w ∧ t.pend = none)
  | .fault _ => false
  | .refused _ => false

/-- NOP clears an error (C1, R112). -/
theorem test_nop_clears :
    ends { State.reset with status := 0x806, errInfo := 0x10 } 0x00 2 0 0 [] = true := by decide +kernel

/-- C5: a reserved bit set is an illegal command. -/
theorem test_illegal_word : ends State.reset 0x130 0x806 0 0x130 [] = true := by decide +kernel

/-- PE3: `x0` lies above `x321`. -/
theorem test_palEncSte :
    ends (st 0x000C0000 0 3 0x2000 [0x11, 0x22, 0x33]) 0x11 2 2 0 [0x08, 0x19] = true := by decide +kernel

/-- PX1: STE has at most 16 entries. -/
theorem test_palEncSte_count : ends (st 0x000C0008 0 768 0x2000 []) 0x11 0x106 0 8 [] = true := by decide +kernel

/-- PE7: at n = 3 the field is left-aligned. -/
theorem test_palEncTt :
    ends (st 0x00090000 0 3 0x2000 [0xFF, 0x00, 0x80]) 0x12 2 2 0 [0x0E, 0x08] = true := by decide +kernel

/-- PX5: PALBITS 24 is not legal for TT. -/
theorem test_palEncTt_palbits : ends (st 0x00180008 0 768 0x2000 []) 0x12 0x406 0 0x18 [] = true := by
  decide +kernel

/-- PE14: byte 2 of the long is unused. -/
theorem test_palEncFalcon :
    ends (st 0x00120001 0 6 0x2000 [0xFF, 0x00, 0x80, 0x12, 0x34, 0x56]) 0x13 2 8 0
      [0xFC, 0x00, 0x00, 0x80, 0x10, 0x34, 0x00, 0x54] = true := by decide +kernel

/-- PX6: PALBITS 16 is legal nowhere. -/
theorem test_palEncFalcon_palbits : ends (st 0x00100001 0 6 0x2000 []) 0x13 0x406 0 0x10 [] = true := by
  decide +kernel

/-- PD4: at PALBITS = 9 the top bit of a nibble is ignored. -/
theorem test_palDecSte_nine :
    ends (st 0x00090000 0 2 0x2000 [0x0F, 0x04]) 0x21 2 3 0 [0xFF, 0x00, 0x92] = true := by decide +kernel

/-- PD5: the inverse of PE3. -/
theorem test_palDecSte :
    ends (st 0x000C0000 0 2 0x2000 [0x08, 0x19]) 0x21 2 3 0 [0x11, 0x22, 0x33] = true := by decide +kernel

/-- PD6 -/
theorem test_palDecTt :
    ends (st 0x000C0000 0 2 0x2000 [0x0F, 0x08]) 0x22 2 3 0 [0xFF, 0x00, 0x88] = true := by decide +kernel

/-- PD8: at PALBITS = 9 bit 0 of a field is ignored. -/
theorem test_palDecTt_nine :
    ends (st 0x00090000 0 2 0x2000 [0x0F, 0x09]) 0x22 2 3 0 [0xFF, 0x00, 0x92] = true := by decide +kernel

/-- PD11: the low bits and the unused byte are ignored. -/
theorem test_palDecFalcon :
    ends (st 0x00120000 0 4 0x2000 [0xFF, 0x00, 0xAA, 0x83]) 0x23 2 3 0 [0xFF, 0x00, 0x82] = true := by
  decide +kernel

/-- PX8: 4·C bytes are needed. -/
theorem test_palDecFalcon_short : ends (st 0x00180002 0 15 0x2000 []) 0x23 0x706 0 0x10 [] = true := by
  decide +kernel

/-- PL1 -/
theorem test_pixEncPlanar :
    ends (st 0x4 0x00010010 16 0x2000 [0, 1, 2, 3, 4, 5, 6, 7, 8, 9, 10, 11, 12, 13, 14, 15]) 0x30 2 8 0
      [0x55, 0x55, 0x33, 0x33, 0x0F, 0x0F, 0x00, 0xFF] = true := by decide +kernel

/-- PL7: the first index of 4 or more is at 3. -/
theorem test_pixEncPlanar_index :
    ends (st 0x2 0x00010010 16 0x2000 [0, 1, 2, 4, 0, 1, 2, 3, 0, 0, 0, 0, 0, 0, 0, 5]) 0x30 0x606 0 3 [] = true := by
  decide +kernel

/-- PL18 -/
theorem test_pixDecPlanar :
    ends (st 0x2 0x00010010 4 0x2000 [0x80, 0x01, 0xFF, 0x00]) 0x40 2 16 0
      [3, 2, 2, 2, 2, 2, 2, 2, 0, 0, 0, 0, 0, 0, 0, 1] = true := by decide +kernel

/-- PL19 -/
theorem test_pixDecPlanar_short :
    ends (st 0x4 0x00010010 7 0x2000 [0x55]) 0x40 0x706 0 8 [] = true := by decide +kernel

/-- PK2: the first pixel is most significant. -/
theorem test_pixEncPacked :
    ends (st 0xFF04 0x00010010 16 0x2000 [1, 2, 15, 0, 15, 0, 15, 0, 15, 0, 15, 0, 15, 0, 15, 0]) 0x31 2 8 0
      [0x12, 0xF0, 0xF0, 0xF0, 0xF0, 0xF0, 0xF0, 0xF0] = true := by decide +kernel

/-- PK6: the width is not a multiple of 16. -/
theorem test_pixEncPacked_width :
    ends (st 0xFF02 0x00010008 8 0x2000 []) 0x31 0x506 0 8 [] = true := by decide +kernel

/-- PK8 -/
theorem test_pixDecPacked :
    ends (st 0xFF02 0x00010010 4 0x2000 [0x1B, 0xE4, 0x00, 0xFF]) 0x41 2 16 0
      [0, 1, 2, 3, 3, 2, 1, 0, 0, 0, 0, 0, 3, 3, 3, 3] = true := by decide +kernel

/-- FX1: RGB565 by truncation. -/
theorem test_pixEncFixed :
    ends (st 0x0210 0x00010002 8 0x2000 [0xFF, 0x00, 0x80, 0x07, 0xC8, 0x64, 0x32, 0x09]) 0x32 2 4 0
      [0xF8, 0x10, 0xCB, 0x26] = true := by decide +kernel

/-- FX4: the alpha byte comes first and is opaque with SRC_ALPHA = 0. -/
theorem test_pixEncFixed_alpha :
    ends (st 0x0420 0x00010002 8 0x2000 [1, 2, 3, 0x80, 5, 6, 7, 8]) 0x32 2 8 0
      [0xFF, 1, 2, 3, 0xFF, 5, 6, 7] = true := by decide +kernel

/-- FX14 -/
theorem test_pixDecFixed :
    ends (st 0x0210 0x00010002 4 0x2000 [0xCB, 0x26, 0xF8, 0x10]) 0x42 2 8 0
      [0xCE, 0x65, 0x31, 0xFF, 0xFF, 0x00, 0x84, 0xFF] = true := by decide +kernel

/-- FX18 -/
theorem test_pixDecFixed_index :
    ends (st 0x0102 0x00010004 4 0x2000 [0, 1, 3, 4]) 0x42 0x606 0 3 [] = true := by decide +kernel

/-- The state of a BitLayout vector: descriptors and values by number, and BF_WORD. -/
def bf (descs vals : List Nat) (word : Nat) : State :=
  { State.reset with
    bfDesc := bankOf fun k => BitVec.ofNat 32 (descs.getD k.val 0)
    bfVal := bankOf fun k => BitVec.ofNat 32 (vals.getD k.val 0)
    bfWord := BitVec.ofNat 32 word }

/-- The step that runs `w` ends with this STATUS, ERR_INFO, BF_WORD and value registers. -/
def bfEnds (s : State) (w : Word) (status errInfo word : Nat) (vals : List Nat) : Bool :=
  match step (s.withFetchWord 32 w.toNat) with
  | .next t =>
    decide (t.status.toNat = status ∧ t.errInfo.toNat = errInfo ∧ t.resultLen = 0 ∧ t.bfWord.toNat = word ∧
      ∀ k : Fin 8, (bankGet t.bfVal k).toNat = vals.getD k.val 0)
  | .fault _ => false
  | .refused _ => false

/-- B9: the STE layout. -/
theorem test_bfPack :
    bfEnds (bf [0x10B, 0x308, 0x107, 0x304, 0x103, 0x300] [1, 7, 0, 0, 0, 4] 0) 0x50 2 0 0xF04 [1, 7, 0, 0, 0, 4] =
      true := by decide +kernel

/-- B6: descriptor 1 overlaps descriptor 0. -/
theorem test_bfPack_overlap : bfEnds (bf [0x800, 0x804] [1, 2] 0) 0x50 0x106 1 0 [1, 2] = true := by decide +kernel

/-- B2: unused descriptors give 0. -/
theorem test_bfUnpack :
    bfEnds (bf [0x408, 0x404, 0x400] [9, 9, 9, 9, 9, 9, 9, 9] 0x12345678) 0x51 2 0 0x12345678 [6, 7, 8] = true := by
  decide +kernel

/-- B10 -/
theorem test_bfUnpack_halves :
    bfEnds (bf [0x1000, 0x1010] [] 0xCAFEF00D) 0x51 2 0 0xCAFEF00D [0xF00D, 0xCAFE] = true := by decide +kernel

/-- H3 -/
theorem test_hdrEnc :
    ends { st 0x010CFF02 0x00010010 0 0x2000 [] with version := 0x0100 } 0x60 2 15 0
      [0x55, 0x49, 0x4D, 0x47, 1, 0, 0, 1, 2, 0xFF, 0, 0, 0x10, 0, 1] = true := by decide +kernel

/-- H2: at BPP 0 the header ends after byte 10. -/
theorem test_hdrEnc_short :
    ends { st 0x00000500 0x12345678 0 0x2000 [] with version := 0x0203 } 0x60 2 11 0
      [0x55, 0x49, 0x4D, 0x47, 2, 3, 0, 0, 0, 5, 0] = true := by decide +kernel

/-- The step that runs HDR_DEC succeeds with this RESULT_LEN, CFG, DIM and VERSION. -/
def hdrEnds (s : State) (resultLen cfg dim version : Nat) : Bool :=
  match step (s.withFetchWord 32 0x61) with
  | .next t =>
    decide (t.status = 0x2#32 ∧ t.resultLen.toNat = resultLen ∧ t.cfg.toNat = cfg ∧ t.dim.toNat = dim ∧
      t.version.toNat = version)
  | .fault _ => false
  | .refused _ => false

/-- The 15 bytes of H1. -/
def h1 : List Nat := [0x55, 0x49, 0x4D, 0x47, 1, 0, 0, 1, 4, 0, 0, 1, 0x40, 0, 0xC8]

/-- HD2: PALBITS and SRC_ALPHA are kept. -/
theorem test_hdrDec : hdrEnds (st 0x040C0000 0 32047 0 h1) 15 0x050C0004 0x00C80140 0x0100 = true := by
  decide +kernel

/-- HD3: flags bits 15:2 and byte 10 are ignored, and there is no size. -/
theorem test_hdrDec_short :
    hdrEnds (st 0 5 11 0 [0x55, 0x49, 0x4D, 0x47, 2, 3, 0xFF, 0xFC, 0, 7, 9]) 11 0x00000700 0 0x0203 = true := by
  decide +kernel

/-- A step of the machine with the given parameters ends without an error and with these output bytes. -/
def endsWith (p : Params) (s : State) (w : Word) (out : List Nat) : Bool :=
  match stepWith p (s.withFetchWord 32 w.toNat) with
  | .next t => decide (t.status = 0x2#32 ∧ (readBytes t t.dst.toNat out.length).map BitVec.toNat = out)
  | .fault _ => false
  | .refused _ => false

/-- PL8 and FX8: without INDEX_CHECK a planar encode drops the high index bits, and a fixed one copies them. -/
theorem test_index_check_off :
    endsWith { Config.params with indexCheck := false }
      (st 0x2 0x00010010 16 0x2000 [0, 1, 2, 4, 0, 1, 2, 3, 0, 0, 0, 0, 0, 0, 0, 5]) 0x30 [0x45, 0x01, 0x23, 0x00] = true ∧
    endsWith { Config.params with indexCheck := false } (st 0x0104 0x00010003 3 0x2000 [0x00, 0x0F, 0x10]) 0x32
      [0x00, 0x0F, 0x10] = true := by decide +kernel

/-- FX2: RGB565 by the palette quantiser. -/
theorem test_rgb565_round :
    endsWith { Config.params with rgb565Quant := .round }
      (st 0x0210 0x00010002 8 0x2000 [0xFF, 0x00, 0x80, 0x07, 0xC8, 0x64, 0x32, 0x09]) 0x32 [0xF8, 0x10, 0xC3, 0x26] = true := by
  decide +kernel

/-- With four descriptors the offset of the fifth is reserved, and that of the fourth is not (R16, R30). -/
theorem test_bf_fields :
    regAt { Config.params with bfFields := 4 } 0x3C = .bfDesc 3 ∧ regAt { Config.params with bfFields := 4 } 0x40 = .reserved ∧
    regAt Config.params 0x4C = .bfDesc 7 := by decide

/-- A buffer that ends at the top of a smaller address space, and one byte further (R42). -/
theorem test_addr_bits :
    beyondTop { Config.params with addrBits := 16 } 0xFFF8 8 = false ∧
    beyondTop { Config.params with addrBits := 16 } 0xFFF9 8 = true := by decide +kernel

/-- The longest length that RESULT_LEN holds, and the first that it cannot (R26): the rest of a success is as always (R116). -/
theorem test_result_len_bound :
    (finish 0xFFFFFFFF State.reset).resultLen = 0xFFFFFFFF#32 ∧ (finish 0xFFFFFFFF State.reset).draws = 0 ∧
    (finish 0x100000000 State.reset).status = 0x2#32 ∧ (finish 0x100000000 State.reset).draws = 1 := by decide

/-! ### Memory -/

/-- Overlapping writes keep the listed addresses rising. -/
theorem test_memory_form :
    (asmMem (asmMem State.reset 5 [1, 2, 3]) 4 [9, 8]).mem = [(4, 9), (5, 8), (6, 2), (7, 3)] := by decide

/-- A word is composed big-endian (R37). -/
theorem test_memory_big_endian : memRead (asmMem State.reset 5 [0x12, 0x34]) 5 2 = 0x1234 := by decide +kernel

/-! ### Witnesses: for each statement, states and operands that meet its hypotheses -/

/-- The state a command leaves. -/
def after (i : Instr) (s : State) : State :=
  match exec i s with
  | .next t => t
  | .fault _ => s
  | .refused _ => s

/-- Whether a command answers a next state. -/
def answers (i : Instr) (s : State) : Bool :=
  match exec i s with
  | .next _ => true
  | .fault _ => false
  | .refused _ => false

theorem exec_after {i : Instr} {s : State} (h : answers i s = true) : exec i s = .next (after i s) := by
  unfold answers at h
  unfold after
  split at h
  · next t ht => rw [ht]
  · cases h
  · cases h

/-- A state in which the word `w` is pending, with the host's events to come. -/
def run (w : Word) (agenda : List HostEvent) : State :=
  { State.reset with status := 1, cmd := w, pend := some w, agenda := agenda }

/-- The sixteen indices 0 to 15. -/
def sixteen : List Nat := [0, 1, 2, 3, 4, 5, 6, 7, 8, 9, 10, 11, 12, 13, 14, 15]

/-- PL1's state, and with DST given. -/
def pl (dst : Nat) : State := st 0x4 0x00010010 16 dst sixteen

theorem witness_StepRunsThePendingCommand : ∀ agenda ∈ [[], [HostEvent.engine], [.wait]],
    busy (run 0x61 agenda) = true ∧ (run 0x61 agenda).pend = some 0x61#32 ∧ decode 0x61#32 = some .hdrDec := by
  decide

theorem witness_IllegalWordRaisesIllegalCommand : ∀ agenda ∈ [[], [HostEvent.engine], [.wait]],
    busy (run 0x130 agenda) = true ∧ (run 0x130 agenda).pend = some 0x130#32 ∧
      (0x130#32).toNat ∉
        [0x00, 0x11, 0x12, 0x13, 0x21, 0x22, 0x23, 0x30, 0x31, 0x32, 0x40, 0x41, 0x42, 0x50, 0x51, 0x60, 0x61] := by decide

theorem witness_IdleBlockHoldsItsState : busy State.reset = false ∧ State.reset.agenda = [] := by decide

/-- An idle state with the host's events to come. -/
def idle (agenda : List HostEvent) : State := { State.reset with agenda := agenda }

theorem witness_CmdWriteIssuesTheCommand : busy (idle [.write 32 0 0x50]) = false ∧
    (idle [.write 32 0 0x50]).agenda = .write 32 0x00 0x50#32 :: [] := by decide

theorem witness_WritesWhileBusyAreIgnored : ∀ off ∈ [0x00, 0x08, 0x7C],
    busy (run 0x50 [.write 32 off 7]) = true ∧ off % 4 = 0 ∧ off < 128 := by decide

theorem witness_RegisterWriteThenRead :
    ∀ off ∈ [0x04, 0x08, 0x0C, 0x1C, 0x20, 0x24, 0x28, 0x2C, 0x30, 0x4C, 0x50, 0x6C, 0x70, 0x7C],
      busy (idle [.write 32 off 7, .read 32 off]) = false ∧ off % 4 = 0 ∧ 0 < off ∧ off < 128 := by decide

/-- Every offset that a clause names, and the first and last of each bank. -/
theorem witness_RegisterWriteFrame :
    ∀ off ∈ [0x04, 0x08, 0x0C, 0x10, 0x14, 0x18, 0x1C, 0x20, 0x24, 0x28, 0x2C, 0x30 + 4 * 0, 0x30 + 4 * 7, 0x50 + 4 * 0,
        0x50 + 4 * 7, 0x70, 0x7C],
      busy (idle [.write 32 off 7]) = false ∧ off % 4 = 0 ∧ 0 < off ∧ off < 128 := by decide

theorem witness_RegisterReadsHaveNoSideEffect : (∀ off ∈ [0x00, 0x04, 0x7C],
    off % 4 = 0 ∧ off < 128 ∧ (idle [.read 32 off]).agenda = .read 32 off :: [] ∧ busy (idle [.read 32 off]) = false ∧
      busy (run 0x50 [.read 32 off]) = true) ∧
    (idle [.wait]).agenda = .wait :: [] ∧ busy (idle [.wait]) = false := by decide

theorem witness_ReadsWhileBusy :
    (∀ i ∈ [Instr.hdrDec, .bfPack, .bfUnpack, .pixEncPlanar],
      busy (run (encode i) [.read 32 0x1C]) = true ∧ (run (encode i) []).pend = some (encode i)) ∧
    (∀ off ∈ [0x00, 0x08, 0x0C, 0x1C, 0x20, 0x24, 0x28, 0x50, 0x6C, 0x7C], off % 4 = 0 ∧ off < 128) := by decide

/-- Widths beside 32 bits, wider ones too, and 32 bits at an unaligned offset and at the end of the block. -/
theorem witness_UndefinedRegisterAccessIsRefused :
    ∀ a ∈ [(8, 0), (16, 4), (31, 0), (33, 0), (64, 0x30), (32, 2), (32, 0x7F), (32, 128)],
      (a.1 ≠ 32 ∨ a.2 % 4 ≠ 0 ∨ 128 ≤ a.2) := by decide

theorem not_inRunningOutput_of_idle {s : State} (a : Nat) (h : busy s = false) : ¬InRunningOutput s a :=
  fun hr => Bool.false_ne_true (h.symm.trans hr.1)

theorem not_inRunningInput_of_idle {s : State} (a : Nat) (h : busy s = false) : ¬InRunningInput s a :=
  fun hr => Bool.false_ne_true (h.symm.trans hr.1)

theorem busy_idle (agenda : List HostEvent) : busy (idle agenda) = false := (by decide : busy State.reset = false)

/-- Idle, at both ends of memory. -/
theorem witness_HostMemoryWriteThenRead : ∀ a ∈ [0, 2 ^ 32 - 1],
    a < 2 ^ 32 ∧ touchesWindow (idle [.memWrite a 7, .memRead a]) a 1 = false ∧
      ¬InRunningOutput (idle [.memWrite a 7, .memRead a]) a ∧ ¬InRunningInput (idle [.memWrite a 7, .memRead a]) a :=
  fun a ha => ⟨by revert a; decide, rfl, not_inRunningOutput_of_idle a (busy_idle _), not_inRunningInput_of_idle a (busy_idle _)⟩

/-- While PL1 runs: just outside its two ranges. -/
theorem witness_HostMemoryWriteThenRead_busy : ∀ a ∈ [0xFFF, 0x1010, 0x1FFF, 0x2008],
    let s := { pl 0x2000 with status := 1, pend := some 0x30 }
    ¬InRunningOutput s a ∧ ¬InRunningInput s a := by
  have h : ∀ a ∈ [0xFFF, 0x1010, 0x1FFF, 0x2008],
      writeBreaches { pl 0x2000 with status := 1, pend := some 0x30 } a = false := by decide +kernel
  intro a ha
  have hn := mt (writeBreaches_iff _ a).2 (Bool.eq_false_iff.1 (h a ha))
  exact ⟨fun ho => hn (.inr ho), fun hi => hn (.inl hi)⟩

/-- The first and last byte of each range of PL1, of HDR_DEC with SRC_LEN 4 and 16, and of a palette command whose PALBITS is not
legal. -/
theorem witness_AccessToRunningRangesHasNoMove :
    (∀ a ∈ [0x2000, 0x2007], InRunningOutput { pl 0x2000 with status := 1, pend := some 0x30 } a) ∧
    (∀ a ∈ [0x1000, 0x100F], InRunningInput { pl 0x2000 with status := 1, pend := some 0x30 } a) ∧
    (∀ a ∈ [0x1000, 0x1003], InRunningInput { st 0 0 4 0 [] with status := 1, pend := some 0x61 } a) ∧
    (∀ a ∈ [0x1000, 0x100E], InRunningInput { st 0 0 16 0 [] with status := 1, pend := some 0x61 } a) ∧
    (∀ a ∈ [0x2000, 0x2007], InRunningOutput { st 0x00100001 0 6 0x2000 [] with status := 1, pend := some 0x13 } a) :=
  ⟨fun a ha => ⟨by decide, .pixEncPlanar, by decide, by revert a; decide +kernel⟩,
    fun a ha => ⟨by decide, .pixEncPlanar, by decide, by revert a; decide +kernel⟩,
    fun a ha => ⟨by decide, .hdrDec, by decide, by revert a; decide +kernel⟩,
    fun a ha => ⟨by decide, .hdrDec, by decide, by revert a; decide +kernel⟩,
    fun a ha => ⟨by decide, .palEncFalcon, by decide, by revert a; decide +kernel⟩⟩

/-- The name under which a command is refused, if it is. -/
def refusal : Result → Option Refusal
  | .next _ => none
  | .fault _ => none
  | .refused r => some r

/-- Idle on a platform with windows, BUSY without a command, an illegal word, a running command, and one that is refused. -/
theorem witness_ResetFromAnyState :
    busy { idle [.reset] with windows := [⟨0, 1⟩] } = false ∧
    ({ run 0 [.reset] with pend := none }).pend = none ∧
    ((run 0x130 [.reset]).pend = some 0x130#32 ∧ decode 0x130#32 = none) ∧
    (let s := { pl 0x2000 with status := 1, pend := some 0x30 }
     s.windows = [] ∧ busy s = true ∧ s.pend = some 0x30#32 ∧ decode 0x30#32 = some .pixEncPlanar ∧
       exec .pixEncPlanar s = .next (after .pixEncPlanar s)) ∧
    (let s := { pl 0x2000 with status := 1, pend := some 0x30, windows := [⟨0x1000, 1⟩] }
     busy s = true ∧ refusal (exec .pixEncPlanar s) = some .sideEffectMemory) :=
  ⟨by decide, rfl, by decide, ⟨rfl, by decide, rfl, by decide, exec_after (by decide +kernel)⟩, by decide, by decide +kernel⟩

/-- The invariant at reset, and a step from a state that has it. -/
theorem witness_EveryStepKeepsTheInvariant :
    Inv (idle [.write 32 0 0x50]) ∧
      ∃ t, step (idle [.write 32 0 0x50]) = .next t ∧ busy t = true :=
  ⟨⟨by decide, by decide, by decide, by decide, by decide, by decide, by decide, by decide⟩, _, rfl, by decide⟩

theorem witness_EveryCommandEnds : State.reset.windows = [] ∧ answers .hdrDec State.reset = true ∧
    err (after .nop State.reset) = false := by decide +kernel

/-- A data error and another error. -/
theorem witness_ErrorsChangeNothingElse :
    (answers .pixEncPacked (st 0xFF02 0x00010010 16 0x2000 sixteen) = true ∧
      err (after .pixEncPacked (st 0xFF02 0x00010010 16 0x2000 sixteen)) = true ∧
      errCode (after .pixEncPacked (st 0xFF02 0x00010010 16 0x2000 sixteen)) = 6) ∧
    (answers .hdrDec State.reset = true ∧ err (after .hdrDec State.reset) = true ∧
      errCode (after .hdrDec State.reset) = 7) := by decide +kernel

theorem witness_UnsupportedDepthComesFirst : ∀ b ∈ [3, 5, 7], cfgBpp (st b 0 0 0 []) ∈ [3, 5, 7] := by decide +kernel

/-- One state for each of the four errors, at the boundary where it starts. -/
theorem witness_LengthErrorsInOrder :
    (∀ s ∈ [{ pl 0x2000 with srcLen := 15 }, { pl 0x2000 with src := 0xFFFFFFF1 }, pl 0xFFFFFFF9, pl 0x100F],
      firstFailure (pixEncPlanar Config.params s).config = none) ∧
    ({ pl 0x2000 with srcLen := 15 }).srcLen.toNat < 16 ∧ 2 ^ 32 < ({ pl 0x2000 with src := 0xFFFFFFF1 }).src.toNat + 16 ∧
    2 ^ 32 < (pl 0xFFFFFFF9).dst.toNat + 8 ∧ (pl 0x100F).dst.toNat < (pl 0x100F).src.toNat + 16 := by decide +kernel

theorem witness_InputAndOutputLengths :
    ∀ r ∈ [(Instr.palEncSte, 0x000C0004), (.palEncTt, 0x000C0008), (.palEncFalcon, 0x00180008), (.palDecSte, 0x000C0000),
        (.palDecTt, 0x00090008), (.palDecFalcon, 0x00120008), (.pixEncPlanar, 0x8), (.pixDecPlanar, 0x6),
        (.pixEncPacked, 0xFF04), (.pixDecPacked, 0xFF01), (.pixEncFixed, 0x0108), (.pixEncFixed, 0x0210),
        (.pixEncFixed, 0x0318), (.pixEncFixed, 0x0420), (.pixDecFixed, 0x0101), (.pixDecFixed, 0x0210),
        (.pixDecFixed, 0x0318), (.pixDecFixed, 0x0420), (.hdrEnc, 0x4), (.hdrEnc, 0x0)],
      (transformOf r.1 (st r.2 0x00010010 64 0x2000 [])).any
        (fun tr => (firstFailure tr.config).isNone) = true := by decide +kernel

/-- The premises of the length table: whole bytes of a planar grid, and each depth of the fixed formats. -/
theorem witness_InputAndOutputLengths_premises :
    pixelCount (st 0x6 0x00010010 0 0 []) * cfgBpp (st 0x6 0x00010010 0 0 []) % 8 = 0 ∧
    (∀ b ∈ [0, 8], cfgBpp (st b 0 0 0 []) ≤ 8) ∧ ∀ k ∈ [2, 3, 4], cfgBpp (st (8 * k) 0 0 0 []) = 8 * k := by
  decide +kernel

theorem witness_SideEffectMemoryIsRefused :
    (∀ w ∈ [Window.mk 0x100F 1, Window.mk 0x2007 1],
      let s := { pl 0x2000 with windows := [w] }
      firstFailure ((pixEncPlanar Config.params s).config ++ lengthChecks Config.params s 16 8) = none ∧
        (touchesWindow s s.src.toNat 16 = true ∨ touchesWindow s s.dst.toNat 8 = true)) ∧
    (let s := { st 0 0 4 0 [] with windows := [⟨0x1003, 1⟩] }
     s.src.toNat + min s.srcLen.toNat 15 ≤ 2 ^ 32 ∧ 4 ≤ s.srcLen.toNat ∧
       touchesWindow s s.src.toNat (min s.srcLen.toNat 15) = true) := by decide +kernel

theorem witness_MemoryCommandFrame : (transformOf .pixEncPlanar (pl 0x2000)).isSome = true ∧
    exec .pixEncPlanar (pl 0x2000) = .next (after .pixEncPlanar (pl 0x2000)) :=
  ⟨rfl, exec_after (by decide +kernel)⟩

theorem witness_RegisterCommandFrame : ∀ i ∈ [Instr.nop, .bfPack, .bfUnpack, .hdrDec],
    exec i State.reset = .next (after i State.reset) := by
  intro i hi
  have h : ∀ i ∈ [Instr.nop, .bfPack, .bfUnpack, .hdrDec], answers i State.reset = true := by decide +kernel
  exact exec_after (h i hi)

/-- B9's layout is legal; bit 11 is the lowest of field 0, bit 3 of field 4, and bit 12 lies in none. -/
theorem witness_BfPackPlacesEveryField :
    let s := bf [0x10B, 0x308, 0x107, 0x304, 0x103, 0x300] [1, 7, 0, 0, 0, 4] 0
    LayoutLegal s ∧ InField s 0 11 ∧ InField s 4 3 ∧ ∀ k : Fin 8, ¬InField s k 12 := by decide +kernel

/-- B10's layout, which fills the word, and the empty layout. -/
theorem witness_BfUnpackSplitsEveryField :
    LayoutLegal (bf [0x1000, 0x1010] [] 0xCAFEF00D) ∧ LayoutLegal State.reset := by decide +kernel

/-- B6, B7 and B8, and the legal layouts: B3's full-width field and the empty one. -/
theorem witness_IllegalLayoutNamesTheFirstDescriptor :
    (DescriptorBad (bf [0x800, 0x804] [] 0) 1 ∧ ∀ j : Fin 8, j < 1 → ¬DescriptorBad (bf [0x800, 0x804] [] 0) j) ∧
    DescriptorBad (bf [0x81C] [] 0) 0 ∧ DescriptorBad (bf [0x2100] [] 0) 0 ∧ LayoutLegal (bf [0x2000] [] 0) ∧
      (∀ k : Fin 8, descWidth State.reset k = 0) ∧ descWidth (bf [0x2000] [] 0) 0 = 32 ∧
      descOffset (bf [0x2000] [] 0) 0 = 0 ∧ ∀ k : Fin 8, k ≠ 0 → descWidth (bf [0x2000] [] 0) k = 0 := by decide +kernel

theorem witness_PackAndUnpackAreInverse :
    let s := bf [0x408, 0x404, 0x400] [0x1F, 2, 3] 0x12345678
    LayoutLegal s ∧ exec .bfPack s = .next (after .bfPack s) ∧
      exec .bfUnpack (after .bfPack s) = .next (after .bfUnpack (after .bfPack s)) ∧
      exec .bfUnpack s = .next (after .bfUnpack s) ∧
      exec .bfPack (after .bfUnpack s) = .next (after .bfPack (after .bfUnpack s)) :=
  ⟨by decide +kernel, exec_after (by decide +kernel), exec_after (by decide +kernel), exec_after (by decide +kernel),
    exec_after (by decide +kernel)⟩

/-- PX3, PX4, PX1 (STE only), PX6 and PX2. -/
theorem witness_PaletteChecksInOrder :
    cfgBpp (st 0x000C0003 0 0 0 []) = 3 ∧ cfgBpp (st 0x000C0010 0 0 0 []) = 16 ∧ cfgBpp (st 0x000C0008 0 0 0 []) = 8 ∧
      cfgPalBits (st 0x00100001 0 0 0 []) = 16 ∧ cfgPalBits (st 0x00120004 0 0 0 []) = 18 := by decide +kernel

/-- The hypotheses of the palette encoders, at the largest palette of each and at the smallest. -/
theorem witness_PalEncSteWritesSteWords : ∀ cfg ∈ [0x000C0004, 0x00090000],
    let s := st cfg 0 48 0x2000 []
    cfgBpp s ∈ [0, 1, 2, 4] ∧ cfgPalBits s ∈ [9, 12] ∧ RangesUsable s (3 * 2 ^ cfgBpp s) (2 * 2 ^ cfgBpp s) := by
  simp only [rangesUsable_iff]
  decide +kernel

theorem witness_PalEncTtWritesTtWords : ∀ cfg ∈ [0x000C0008, 0x00090000],
    let s := st cfg 0 768 0x2000 []
    cfgBpp s ∈ [0, 1, 2, 4, 6, 8] ∧ cfgPalBits s ∈ [9, 12] ∧ RangesUsable s (3 * 2 ^ cfgBpp s) (2 * 2 ^ cfgBpp s) := by
  simp only [rangesUsable_iff]
  decide +kernel

theorem witness_PalEncFalconWritesFalconLongs : ∀ cfg ∈ [0x00180008, 0x00090000],
    let s := st cfg 0 768 0x2000 []
    cfgBpp s ∈ [0, 1, 2, 4, 6, 8] ∧ cfgPalBits s ∈ [9, 12, 18, 24] ∧
      RangesUsable s (3 * 2 ^ cfgBpp s) (4 * 2 ^ cfgBpp s) := by
  simp only [rangesUsable_iff]
  decide +kernel

theorem witness_PalDecSteWritesColours : ∀ cfg ∈ [0x000C0004, 0x00090000],
    let s := st cfg 0 32 0x2000 []
    cfgBpp s ∈ [0, 1, 2, 4] ∧ cfgPalBits s ∈ [9, 12] ∧ RangesUsable s (2 * 2 ^ cfgBpp s) (3 * 2 ^ cfgBpp s) := by
  simp only [rangesUsable_iff]
  decide +kernel

theorem witness_PalDecTtWritesColours : ∀ cfg ∈ [0x000C0008, 0x00090000],
    let s := st cfg 0 512 0x2000 []
    cfgBpp s ∈ [0, 1, 2, 4, 6, 8] ∧ cfgPalBits s ∈ [9, 12] ∧ RangesUsable s (2 * 2 ^ cfgBpp s) (3 * 2 ^ cfgBpp s) := by
  simp only [rangesUsable_iff]
  decide +kernel

theorem witness_PalDecFalconWritesColours : ∀ cfg ∈ [0x00180008, 0x00090000],
    let s := st cfg 0 1024 0x2000 []
    cfgBpp s ∈ [0, 1, 2, 4, 6, 8] ∧ cfgPalBits s ∈ [9, 12, 18, 24] ∧
      RangesUsable s (4 * 2 ^ cfgBpp s) (3 * 2 ^ cfgBpp s) := by
  simp only [rangesUsable_iff]
  decide +kernel

theorem witness_QuantiseAndUpscaleRoundTrip : (3 ∈ [3, 4, 6, 8]) ∧ 7 < 2 ^ 3 ∧ 8 ∈ [3, 4, 6, 8] ∧ 255 < 2 ^ 8 ∧
    (3 ∈ [3, 4] ∧ 4 ∈ [3, 4]) ∧ ∀ c : Channel, (fun | .r => 0 | .g => 128 | .b => 255 : Channel → Nat) c < 256 :=
  ⟨by decide, by decide, by decide, by decide, by decide, fun c => by cases c <;> decide⟩

/-- The state that continues from `t` with SRC at the output of `s`, and `len` input bytes, writing at `dst`. -/
def chain (s t : State) (len dst : Nat) : State :=
  { t with src := s.dst, srcLen := BitVec.ofNat 32 len, dst := BitVec.ofNat 32 dst }

/-- Two commands in a chain: both succeed, and the second one's source is the first one's output. -/
def chains (i j : Instr) (s : State) (len : Nat) : Prop :=
  s.windows = [] ∧ exec i s = .next (after i s) ∧ err (after i s) = false ∧
    (chain s (after i s) len 0x3000).mem = (after i s).mem ∧ (chain s (after i s) len 0x3000).cfg = s.cfg ∧
    (chain s (after i s) len 0x3000).dim = s.dim ∧ (chain s (after i s) len 0x3000).src = s.dst ∧
    (chain s (after i s) len 0x3000).windows = [] ∧
    exec j (chain s (after i s) len 0x3000) = .next (after j (chain s (after i s) len 0x3000)) ∧
    err (after j (chain s (after i s) len 0x3000)) = false

/-- What of `chains` is computed. -/
def chainRuns (i j : Instr) (s : State) (len : Nat) : Bool :=
  decide (s.windows = []) && answers i s && !err (after i s) && decide ((after i s).cfg = s.cfg) &&
    decide ((after i s).dim = s.dim) && decide ((after i s).windows = []) &&
    answers j (chain s (after i s) len 0x3000) && !err (after j (chain s (after i s) len 0x3000))

theorem chains_of_runs {i j : Instr} {s : State} {len : Nat} (h : chainRuns i j s len = true) : chains i j s len := by
  simp only [chainRuns, Bool.and_eq_true, decide_eq_true_eq, Bool.not_eq_true'] at h
  obtain ⟨⟨⟨⟨⟨⟨⟨h1, h2⟩, h3⟩, h4⟩, h5⟩, h6⟩, h7⟩, h8⟩ := h
  exact ⟨h1, exec_after h2, h3, rfl, h4, h5, rfl, h6, exec_after h7, h8⟩

/-- At 12 and at 9 bits, on a word with every ignored bit set. -/
theorem witness_StePaletteDecodeThenEncode : ∀ cfg ∈ [0x000C0000, 0x00090000],
    cfgBpp (st cfg 0 2 0x2000 [0xF8, 0x99]) ∈ [0, 1, 2, 4] ∧ cfgPalBits (st cfg 0 2 0x2000 [0xF8, 0x99]) ∈ [9, 12] ∧
      chains .palDecSte .palEncSte (st cfg 0 2 0x2000 [0xF8, 0x99]) 3 := by
  have h : ∀ cfg ∈ [0x000C0000, 0x00090000],
      cfgBpp (st cfg 0 2 0x2000 [0xF8, 0x99]) ∈ [0, 1, 2, 4] ∧ cfgPalBits (st cfg 0 2 0x2000 [0xF8, 0x99]) ∈ [9, 12] ∧
        chainRuns .palDecSte .palEncSte (st cfg 0 2 0x2000 [0xF8, 0x99]) 3 = true := by decide +kernel
  exact fun cfg hc => ⟨(h cfg hc).1, (h cfg hc).2.1, chains_of_runs (h cfg hc).2.2⟩

/-- PL11, PL10 and PL9. -/
theorem witness_PlanarChecksInOrder :
    ¬PixelDepth (cfgBpp (st 3 0 0 0 [])) ∧ (PixelDepth (cfgBpp (st 16 0 0 0 [])) ∧ 8 < cfgBpp (st 16 0 0 0 [])) ∧
      (IndexDepth (cfgBpp (st 4 0x0001013F 0 0 [])) ∧ dimWidth (st 4 0x0001013F 0 0 []) % 16 ≠ 0) := by decide +kernel

/-- PL1, and an empty grid at the top of memory. -/
theorem witness_PixEncPlanarInterleaves : ∀ s ∈ [pl 0x2000, st 0x8 0x00050000 0 0xFFFFFFFF []],
    IndexDepth (cfgBpp s) ∧ dimWidth s % 16 = 0 ∧ RangesUsable s (pixelCount s) (pixelCount s * cfgBpp s / 8) ∧
      ∀ p, p < pixelCount s → memRead8 s (s.src.toNat + p) < 2 ^ cfgBpp s := by
  simp only [rangesUsable_iff]
  decide +kernel

theorem witness_PixDecPlanarDeinterleaves : ∀ s ∈ [pl 0x2000, st 0x8 0x00050000 0 0xFFFFFFFF []],
    IndexDepth (cfgBpp s) ∧ dimWidth s % 16 = 0 ∧
      RangesUsable s (pixelCount s * cfgBpp s / 8) (pixelCount s) := by
  simp only [rangesUsable_iff]
  decide +kernel

theorem witness_PlanarRoundTrip :
    chains .pixEncPlanar .pixDecPlanar (pl 0x2000) 8 ∧ chains .pixDecPlanar .pixEncPlanar (pl 0x2000) 16 :=
  ⟨chains_of_runs (by decide +kernel), chains_of_runs (by decide +kernel)⟩

/-- A depth that is none, PK5 and PK6. -/
theorem witness_PackedChecksInOrder :
    ¬PixelDepth (cfgBpp (st 0xFF00 0 0 0 [])) ∧
      (PixelDepth (cfgBpp (st 0xFF06 0 0 0 [])) ∧ 4 < cfgBpp (st 0xFF06 0 0 0 [])) ∧
      (cfgBpp (st 0xFF02 0x00010008 0 0 []) ∈ [1, 2, 4] ∧ dimWidth (st 0xFF02 0x00010008 0 0 []) % 16 ≠ 0) := by
  decide +kernel

theorem witness_PixEncPackedPacks : ∀ s ∈ [st 0xFF04 0x00010010 16 0x2000 sixteen, st 0xFF01 0x00000010 0 0 []],
    cfgBpp s ∈ [1, 2, 4] ∧ dimWidth s % 16 = 0 ∧ RangesUsable s (pixelCount s) (pixelCount s * cfgBpp s / 8) ∧
      ∀ p, p < pixelCount s → memRead8 s (s.src.toNat + p) < 2 ^ cfgBpp s := by
  simp only [rangesUsable_iff]
  decide +kernel

theorem witness_PixDecPackedUnpacks : ∀ s ∈ [st 0xFF04 0x00010010 16 0x2000 sixteen, st 0xFF01 0x00000010 0 0 []],
    cfgBpp s ∈ [1, 2, 4] ∧ dimWidth s % 16 = 0 ∧
      RangesUsable s (pixelCount s * cfgBpp s / 8) (pixelCount s) := by
  simp only [rangesUsable_iff]
  decide +kernel

theorem witness_PackedRoundTrip :
    chains .pixEncPacked .pixDecPacked (st 0xFF04 0x00010010 16 0x2000 sixteen) 8 ∧
      chains .pixDecPacked .pixEncPacked (st 0xFF04 0x00010010 16 0x2000 sixteen) 16 :=
  ⟨chains_of_runs (by decide +kernel), chains_of_runs (by decide +kernel)⟩

/-- Index 4 is the first at or above 2^2: the four commands on one grid. -/
theorem witness_IndexOutOfRangeNamesTheFirstPixel : ∀ s ∈ [st 0x0002 0x00010010 16 0x2000 sixteen,
      st 0xFF02 0x00010010 16 0x2000 sixteen, st 0x0102 0x00010010 16 0x2000 sixteen],
    IndexDepth (cfgBpp s) ∧ cfgBpp s ∈ [1, 2, 4] ∧ dimWidth s % 16 = 0 ∧ RangesUsable s 16 4 ∧ RangesUsable s 16 16 ∧
      4 < pixelCount s ∧ 2 ^ cfgBpp s ≤ memRead8 s (s.src.toNat + 4) ∧
      ∀ q, q < 4 → memRead8 s (s.src.toNat + q) < 2 ^ cfgBpp s := by
  simp only [rangesUsable_iff]
  decide +kernel

theorem witness_IndexOutOfRangeNamesTheFirstPixel_pair : cfgBpc (st 0x0102 0x00010010 16 0x2000 sixteen) = 1 := by
  decide +kernel

/-- FX11, FX9 and FX10. -/
theorem witness_FixedChecksInOrder :
    ¬PixelDepth (cfgBpp (st 0x0105 0 0 0 [])) ∧
      (PixelDepth (cfgBpp (st 0x0408 0 0 0 [])) ∧ cfgBpc (st 0x0408 0 0 0 []) = 4) ∧
      (PixelDepth (cfgBpp (st 0xFF10 0 0 0 [])) ∧ cfgBpc (st 0xFF10 0 0 0 []) = 255) := by decide +kernel

theorem witness_FixedIndexedCopies : ∀ s ∈ [st 0x0104 0x00010010 16 0x2000 sixteen, st 0x0108 0x00000003 0 0 []],
    IndexDepth (cfgBpp s) ∧ cfgBpc s = 1 ∧ RangesUsable s (pixelCount s) (pixelCount s) ∧
      ∀ p, p < pixelCount s → memRead8 s (s.src.toNat + p) < 2 ^ cfgBpp s := by
  simp only [rangesUsable_iff]
  decide +kernel

theorem witness_PixEncFixedTruecolor : ∀ r ∈ [(0x0210, 2), (0x0318, 3), (0x0420, 4), (0x04000420, 4)],
    let s := st r.1 0x00010004 16 0x2000 sixteen
    cfgBpp s = 8 * r.2 ∧ cfgBpc s = r.2 ∧ RangesUsable s (4 * pixelCount s) (r.2 * pixelCount s) := by
  simp only [rangesUsable_iff]
  decide +kernel

theorem witness_PixDecFixedTruecolor : ∀ r ∈ [(0x0210, 2), (0x0318, 3), (0x0420, 4)],
    let s := st r.1 0x00010004 16 0x2000 sixteen
    cfgBpp s = 8 * r.2 ∧ cfgBpc s = r.2 ∧ RangesUsable s (r.2 * pixelCount s) (4 * pixelCount s) := by
  simp only [rangesUsable_iff]
  decide +kernel

theorem witness_FixedDecodeThenEncode :
    chains .pixDecFixed .pixEncFixed (st 0x0210 0x00010004 8 0x2000 sixteen) 16 ∧
      (cfgSrcAlpha (st 0x04000420 0x00010004 16 0x2000 sixteen) = 1 ∧
        chains .pixDecFixed .pixEncFixed (st 0x04000420 0x00010004 16 0x2000 sixteen) 16) :=
  ⟨chains_of_runs (by decide +kernel), by decide +kernel, chains_of_runs (by decide +kernel)⟩

/-- H3, and H2 with its last byte at the top of memory. -/
theorem witness_HdrEncWritesTheHeader :
    (let s := st 0x010CFF02 0x00010010 0 0x2000 []
     HeaderValid (cfgBpp s) (cfgBpc s) (cfgPalKind s) (dimWidth s) ∧ RangesUsable s 0 15) ∧
    (let s := st 0x00000500 0x12345678 0 0xFFFFFFF5 []
     HeaderValid (cfgBpp s) (cfgBpc s) (cfgPalKind s) (dimWidth s) ∧ RangesUsable s 0 11) := by
  exact ⟨⟨.inr ⟨by decide, .inl (by decide), by decide, by decide⟩, (rangesUsable_iff _ _ _).2 (by decide +kernel)⟩,
    .inl (by decide), (rangesUsable_iff _ _ _).2 (by decide +kernel)⟩

/-- H11, H8, H5 and H9. -/
theorem witness_HdrEncReportsTheFirstFailingCheck :
    ¬PixelDepth 7 ∧ (PixelDepth 4 ∧ ¬HeaderFormat 4 5) ∧ (PixelDepth 8 ∧ HeaderFormat 8 0 ∧ HeaderKindBad 8 1) ∧
      (PixelDepth 4 ∧ HeaderFormat 4 0 ∧ ¬HeaderKindBad 4 0 ∧ HeaderWidthBad 0 0x13F) :=
  ⟨by decide, ⟨by decide, by decide⟩, ⟨by decide, by decide, by decide⟩, by decide, by decide, by decide, by decide⟩

/-- HD11, and HD3 with 11 input bytes. -/
theorem witness_HdrDecLoadsTheHeader :
    (let s := st 0 0 15 0 h1
     s.src.toNat + min s.srcLen.toNat 15 ≤ 2 ^ 32 ∧ touchesWindow s s.src.toNat (min s.srcLen.toNat 15) = false ∧
       memRead s s.src.toNat 4 = 0x55494D47 ∧ 15 ≤ s.srcLen.toNat ∧ memRead8 s (s.src.toNat + 8) = 4 ∧
       HeaderValid 4 (memRead8 s (s.src.toNat + 9)) (memRead s (s.src.toNat + 6) 2 % 4)
         (memRead s (s.src.toNat + 11) 2)) ∧
    (let s := st 0 5 11 0 [0x55, 0x49, 0x4D, 0x47, 2, 3, 0xFF, 0xFC, 0, 7, 9]
     memRead s s.src.toNat 4 = 0x55494D47 ∧ 11 ≤ s.srcLen.toNat ∧ memRead8 s (s.src.toNat + 8) = 0) := by decide +kernel

/-- One state per clause: past the top, HD5, HD4, HD7, HD12, HD10. -/
theorem witness_HdrDecChecksInOrder :
    2 ^ 32 < ({ st 0 0 15 0 [] with src := 0xFFFFFFF2 }).src.toNat + min 15 15 ∧
    (st 0 0 3 0 []).srcLen.toNat < 4 ∧
    memRead (st 0 0 15 0 [0x55, 0x49, 0x4D, 0x58]) 0x1000 4 ≠ 0x55494D47 ∧
    (memRead (st 0 0 10 0 h1) 0x1000 4 = 0x55494D47 ∧ (st 0 0 10 0 h1).srcLen.toNat < 11) ∧
    (memRead8 (st 0 0 14 0 h1) 0x1008 ≠ 0 ∧ (st 0 0 14 0 h1).srcLen.toNat < 15) ∧
    (memRead8 (st 0 0 15 0 [0x55, 0x49, 0x4D, 0x47, 1, 0, 0, 0, 3, 0, 0, 0, 0x10, 0, 1]) 0x1008 = 3 ∧ ¬PixelDepth 3) := by
  decide +kernel

theorem witness_HeaderRoundTrip :
    let s := st 0x01000004 0x00C80140 0 0x2000 []
    s.windows = [] ∧ exec .hdrEnc s = .next (after .hdrEnc s) ∧ err (after .hdrEnc s) = false ∧
      (after .hdrEnc s).resultLen.toNat ≤ (chain s (after .hdrEnc s) 15 0).srcLen.toNat ∧
      (chain s (after .hdrEnc s) 15 0).src.toNat + 15 ≤ 2 ^ 32 ∧ (chain s (after .hdrEnc s) 15 0).windows = [] :=
  ⟨rfl, exec_after (by decide +kernel), by decide +kernel, by decide +kernel, by decide +kernel, by decide +kernel⟩

/-- S3's three parts in small: each encode command succeeds under a legal format. -/
theorem witness_ContainerPartSizes :
    ∀ r ∈ [(Instr.hdrEnc, 0x4), (.palEncSte, 0x000C0000), (.palEncTt, 0x000C0000), (.palEncFalcon, 0x00180000),
        (.pixEncPlanar, 0x4), (.pixEncPacked, 0xFF04), (.pixEncFixed, 0x0104)],
      let s := st r.2 0x00010010 16 0x2000 sixteen
      answers r.1 s = true ∧ err (after r.1 s) = false ∧ (pixelFormat (sext8 (cfgBpc s))).isSome = true := by
  decide +kernel

end Sys2Proof.Tests
end

section
/-!
SUPPORT. The invariant, kept by each thing a step can do, and the statement about every step (O18).
-/

namespace Sys2Proof.Machine

/-! ### The invariant, kept by each operation -/

/-- Masks with no bit in common leave nothing of a word. -/
theorem and_and_eq_zero {m n : Word} (h : m &&& n = 0) (v : Word) : v &&& m &&& n = 0 := by
  rw [BitVec.and_assoc, h]; exact BitVec.and_zero

@[simp] theorem busy_issue (s : State) (v : Word) : busy (issue s v) = true := by
  rw [busy, issue_status]; decide

@[simp] theorem done_issue (s : State) (v : Word) : done (issue s v) = false := by
  rw [done, issue_status]; decide

@[simp] theorem err_issue (s : State) (v : Word) : err (issue s v) = false := by
  rw [err, issue_status]; decide

theorem inv_issue {s : State} (h : Inv s) (v : Word) : Inv (issue s v) :=
  { h with
    statusLegal := .inr (.inl rfl)
    pendBusy := by simp
    errorResultLen := by simp
    successErrInfo := by simp }

/-- A register write stores no reserved bit, so it keeps the invariant. -/
theorem inv_writeReg {s : State} (h : Inv s) (r : Reg) (v : Word) : Inv (writeReg s r v) := by
  cases r with
  | cmd => exact inv_issue h v
  | cfg => exact { h with cfgReserved := and_and_eq_zero (by decide) v }
  | version => exact { h with versionReserved := and_and_eq_zero (by decide) v }
  | bfDesc k =>
    refine { h with descReserved := fun j => ?_ }
    rw [writeReg, bankGet_bankSet]
    split
    · exact and_and_eq_zero (m := 0x00003F1F#32) (by decide) v
    · exact h.descReserved j
  | status | dim | src | srcLen | dst | resultLen | errInfo | bfWord | bfVal | reserved => exact { h with }

theorem inv_recordRead {s : State} (h : Inv s) (v : Word) : Inv (recordRead v s) :=
  inv_host h s.agenda (v :: s.readLog) s.draws

theorem inv_readReg {s : State} (h : Inv s) (r : Reg) : Inv (readReg s r) := by
  unfold readReg
  split
  · exact inv_host h s.agenda (Config.busyRead s.draws :: s.readLog) (s.draws + 1)
  · exact inv_recordRead h _

theorem inv_writeBytes {s : State} (h : Inv s) {a : Nat} {bs : List Byte} (ha : a + bs.length ≤ 2 ^ 32) :
    Inv (writeBytes s a bs) :=
  { h with memWf := memSplice_wf h.memWf ha }

theorem inv_unspec {s : State} (h : Inv s) {a n : Nat} (ha : a + n ≤ 2 ^ 32) : Inv (unspec s a n) :=
  { h with memWf := memSplice_wf h.memWf (by simpa [Config.params] using ha) }

/-- A reset sets every register to 0, which leaves only the memory to look at. -/
theorem inv_resetWith {m : List Host.Cell} (h : Memory.wf m) (s : State) (d : Nat) : Inv (resetWith s m d) where
  statusLegal := .inl rfl
  pendBusy := by simp [busy]
  cfgReserved := by simp
  versionReserved := by simp
  descReserved k := by simp [bankGet_zero]
  errorResultLen _ := rfl
  successErrInfo _ _ := rfl
  memWf := h

/-! ### The invariant, kept by each command -/

theorem readHeader_bpp_lt (s : State) : (readHeader s).bpp < 256 := memRead8_lt s _

theorem readHeader_bpc_lt (s : State) : (readHeader s).bpc < 256 := memRead8_lt s _

theorem readHeader_palKind_lt (s : State) : (readHeader s).palKind < 4 := Nat.mod_lt _ (by decide)

theorem readHeader_version_lt (s : State) : (readHeader s).version < 2 ^ 16 := memRead_lt s _ 2

/-- A 16-bit number leaves the upper half of a register 0. -/
theorem ofNat_and_upper_eq_zero {n : Nat} (h : n < 2 ^ 16) : BitVec.ofNat 32 n &&& 0xFFFF0000#32 = 0 := by
  have hm : BitVec.ofNat 32 n &&& 0x0000FFFF#32 = BitVec.ofNat 32 n := by
    apply BitVec.eq_of_toNat_eq
    rw [BitVec.toNat_and, BitVec.toNat_ofNat, Nat.mod_eq_of_lt (by omega)]
    exact (Nat.and_two_pow_sub_one_eq_mod n 16).trans (Nat.mod_eq_of_lt h)
  rw [← hm]
  exact and_and_eq_zero (by decide) _

theorem inv_finish_of_inv {s : State} (h : Inv s) (n : Nat) : Inv (finish n s) :=
  inv_finish h.cfgReserved h.versionReserved h.descReserved h.memWf n

/-- Every answer of a command keeps the invariant: an error changes only the end registers, a write stays below the top of
memory, and a loaded header has no bit in a reserved field. -/
theorem inv_exec {i : Instr} {s t : State} (h : Inv s) (ht : exec i s = .next t) : Inv t := by
  rcases exec_cases ht with ⟨e, -, rfl⟩ | ⟨tr, q, -, hc, -, rfl⟩ | ⟨tr, -, hc, -, rfl⟩ | ⟨-, rfl⟩ | ⟨-, w, rfl⟩ |
    ⟨-, b, rfl⟩ | ⟨-, -, rfl⟩
  · exact inv_raise h e
  · exact inv_raise (inv_unspec h (outLen_fits hc)) _
  · refine inv_finish_of_inv (inv_writeBytes h ?_) _
    rw [itemBytes_length]
    exact outLen_fits hc
  · exact inv_finish_of_inv h 0
  · exact inv_finish (s := { s with bfWord := w }) h.cfgReserved h.versionReserved h.descReserved h.memWf 0
  · exact inv_finish (s := { s with bfVal := b }) h.cfgReserved h.versionReserved h.descReserved h.memWf 0
  · have hcfg := cfgWithHeader_reserved h.cfgReserved (readHeader s) (readHeader_bpp_lt s) (readHeader_bpc_lt s)
      (readHeader_palKind_lt s)
    have hversion := ofNat_and_upper_eq_zero (readHeader_version_lt s)
    exact inv_finish (s := loadHeader s (readHeader s)) hcfg hversion h.descReserved h.memWf _

theorem inv_runWord {s t : State} {w : Word} (h : Inv s) (ht : runWord exec w s = .next t) : Inv t := by
  cases hd : decode w with
  | some i => exact inv_exec h (by rwa [runWord_some hd] at ht)
  | none =>
    rw [runWord_none hd] at ht
    cases ht
    exact inv_raise h _

theorem inv_engineStep {s t : State} (h : Inv s) (ht : engineStep exec s = .next t) : Inv t := by
  unfold engineStep at ht
  split at ht
  · exact inv_runWord h ht
  · cases ht

/-! ### The invariant, kept by each event of the host -/

theorem inv_hostWrite {s t : State} {bits off : Nat} {v : Word} (h : Inv s)
    (ht : hostWrite Config.params s bits off v = .next t) : Inv t := by
  unfold hostWrite at ht
  split at ht
  · cases ht
    split
    · exact h
    · exact inv_writeReg h _ v
  · cases ht

theorem inv_hostRead {s t : State} {bits off : Nat} (h : Inv s)
    (ht : hostRead Config.params s bits off = .next t) : Inv t := by
  unfold hostRead at ht
  split at ht
  · cases ht; exact inv_readReg h _
  · cases ht

theorem inv_hostMemWrite {s t : State} {a : Nat} {b : Byte} (h : Inv s)
    (ht : hostMemWrite Config.params s a b = .next t) : Inv t := by
  unfold hostMemWrite at ht
  split_ifs at ht with ha
  cases ht
  exact inv_writeBytes h (Nat.not_le.1 ha)

theorem inv_hostMemRead {s t : State} {a : Nat} (h : Inv s)
    (ht : hostMemRead Config.params s a = .next t) : Inv t := by
  unfold hostMemRead at ht
  split_ifs at ht
  cases ht
  exact inv_recordRead h _

/-- A reset mixes old and new bytes only of the addresses that the abandoned command's memory lists, and that memory is
canonical because the command keeps the invariant. -/
theorem inv_resetBlock {s t : State} (h : Inv s) (ht : resetBlock exec s = .next t) : Inv t := by
  unfold resetBlock at ht
  split at ht
  · cases ht; exact inv_resetWith h.memWf s _
  · split at ht
    · next u hu =>
      cases ht
      exact inv_resetWith (memMix_wf (inv_runWord h hu).memWf _ _) s _
    · cases ht
    · cases ht

theorem inv_hostEvent {s t : State} {e : HostEvent} (h : Inv s)
    (ht : hostEvent Config.params exec s e = .next t) : Inv t := by
  cases e with
  | write bits off v => exact inv_hostWrite h ht
  | read bits off => exact inv_hostRead h ht
  | wait => cases ht; exact inv_readReg h .status
  | memWrite a b => exact inv_hostMemWrite h ht
  | memRead a => exact inv_hostMemRead h ht
  | reset => exact inv_resetBlock h ht
  | engine => cases ht; exact h

/-- Settles O18: a step is the engine's, one event of the host's, or none, and each keeps the invariant. -/
theorem everyStepKeepsTheInvariant : Obligations.EveryStepKeepsTheInvariant := by
  intro s t h ht
  have hrest : ∀ rest, Inv { s with agenda := rest } := fun rest => inv_host h rest s.readLog s.draws
  rcases step_cases s with ⟨-, hs | ⟨rest, -, hs⟩⟩ | ⟨e, rest, -, hs, -⟩ | ⟨-, -, hs⟩ <;> rw [hs] at ht
  · exact inv_engineStep h ht
  · exact inv_engineStep (hrest rest) ht
  · exact inv_hostEvent (hrest rest) ht
  · cases ht; exact h

end Sys2Proof.Machine
end

section
/-!
SUPPORT. The register block as the host sees it (O6 to O12), and the frame of the commands that write no memory (O26).
-/

namespace Sys2Proof.Machine

/-! ### One register access as a step -/

theorem step_write_idle {s : State} {off : Nat} {v : Word} {rest : List HostEvent} (hb : busy s = false)
    (h4 : off % 4 = 0) (hl : off < 128) (h : s.agenda = .write 32 off v :: rest) :
    step s = .next (writeReg { s with agenda := rest } (regAt Config.params off) v) := by
  rw [step_write h, hostWrite_legal v h4 hl]
  exact congrArg _ (if_neg (Bool.eq_false_iff.1 hb))

theorem step_write_busy {s : State} {off : Nat} {v : Word} {rest : List HostEvent} (hb : busy s = true)
    (h4 : off % 4 = 0) (hl : off < 128) (h : s.agenda = .write 32 off v :: rest) :
    step s = .next { s with agenda := rest } := by
  rw [step_write h, hostWrite_legal v h4 hl]
  exact congrArg _ (if_pos hb)

/-- STATUS is none of the registers that R18 lets read as a free value, whatever command runs. -/
theorem readReg_status (s : State) : readReg s .status = recordRead s.status s := by
  simp [readReg, runningWrites, regValue]

/-- While BUSY = 1 a register that the running command writes reads as a free value, which is drawn. -/
theorem step_read_free {s : State} {off : Nat} {rest : List HostEvent} (h4 : off % 4 = 0) (hl : off < 128)
    (h : s.agenda = .read 32 off :: rest)
    (hw : (busy s && runningWrites (running s) (regAt Config.params off)) = true) :
    step s = .next
      { s with agenda := rest, readLog := Config.busyRead s.draws :: s.readLog, draws := s.draws + 1 } := by
  rw [step_read h, hostRead_legal h4 hl]
  exact congrArg _ (if_pos hw)

/-- Every other read records the register's value. -/
theorem step_read_value {s : State} {off : Nat} {rest : List HostEvent} (h4 : off % 4 = 0) (hl : off < 128)
    (h : s.agenda = .read 32 off :: rest)
    (hw : (busy s && runningWrites (running s) (regAt Config.params off)) = false) :
    step s = .next { s with agenda := rest, readLog := regValue s (regAt Config.params off) :: s.readLog } := by
  rw [step_read h, hostRead_legal h4 hl]
  exact congrArg _ (if_neg (Bool.eq_false_iff.1 hw))

/-- An idle block reads as its registers' values. -/
theorem step_read_idle {s : State} {off : Nat} {rest : List HostEvent} (hb : busy s = false) (h4 : off % 4 = 0)
    (hl : off < 128) (h : s.agenda = .read 32 off :: rest) :
    step s = .next { s with agenda := rest, readLog := regValue s (regAt Config.params off) :: s.readLog } :=
  step_read_value h4 hl h (by rw [hb, Bool.false_and])

/-- A write to a register other than CMD leaves the block as idle as it was. -/
theorem busy_writeReg {s : State} {r : Reg} (v : Word) (hr : r ≠ .cmd) : busy (writeReg s r v) = busy s := by
  cases r with
  | cmd => exact absurd rfl hr
  | _ => rfl

theorem readLog_writeReg (s : State) (r : Reg) (v : Word) : (writeReg s r v).readLog = s.readLog := by
  cases r <;> rfl

theorem agenda_writeReg (s : State) (r : Reg) (v : Word) : (writeReg s r v).agenda = s.agenda := by
  cases r <;> rfl

/-- A bank write takes at its own register and nowhere else. -/
theorem bankSet_frame (b : Bank) (k : Fin 8) (v : Word) :
    bankGet (bankSet b k v) k = v ∧ ∀ j : Fin 8, j ≠ k → bankGet (bankSet b k v) j = bankGet b j :=
  ⟨(bankGet_bankSet b k k v).trans (if_pos rfl), fun j hj => (bankGet_bankSet b k j v).trans (if_neg hj)⟩

/-! ### The map of R16, read from the register to its offset -/

/-- The map of R16 backwards: the read-only registers and those R18 names have one offset each, the value bank a range. -/
theorem regAt_eq_iff : ∀ k : Fin 32,
    (regAt Config.params (4 * k.val) = .status ↔ 4 * k.val = 0x04) ∧
    (regAt Config.params (4 * k.val) = .cfg ↔ 4 * k.val = 0x08) ∧
    (regAt Config.params (4 * k.val) = .dim ↔ 4 * k.val = 0x0C) ∧
    (regAt Config.params (4 * k.val) = .resultLen ↔ 4 * k.val = 0x1C) ∧
    (regAt Config.params (4 * k.val) = .version ↔ 4 * k.val = 0x20) ∧
    (regAt Config.params (4 * k.val) = .errInfo ↔ 4 * k.val = 0x24) ∧
    (regAt Config.params (4 * k.val) = .bfWord ↔ 4 * k.val = 0x28) ∧
    ((∃ j, regAt Config.params (4 * k.val) = .bfVal j) ↔ 0x50 ≤ 4 * k.val ∧ 4 * k.val < 0x70) := by decide

/-- The bits that a write stores, by offset, in the registers that are not read-only. -/
theorem writeMask_regAt : ∀ k : Fin 32, k ≠ 0 → 4 * k.val ≠ 0x04 → 4 * k.val ≠ 0x1C → 4 * k.val ≠ 0x24 →
    writeMask (regAt Config.params (4 * k.val)) =
      if 4 * k.val = 0x2C ∨ 0x70 ≤ 4 * k.val then 0#32
      else if 4 * k.val = 0x08 then 0x07FFFFFF#32
      else if 4 * k.val = 0x20 then 0x0000FFFF#32
      else if 0x30 ≤ 4 * k.val ∧ 4 * k.val < 0x50 then 0x00003F1F#32
      else 0xFFFFFFFF#32 := by decide

/-- What a register holds after a write, by offset. -/
theorem regValue_written (s : State) (v : Word) {k : Fin 32} (hk : k ≠ 0) :
    regValue (writeReg s (regAt Config.params (4 * k.val)) v) (regAt Config.params (4 * k.val)) =
      if 4 * k.val = 0x04 then s.status
      else if 4 * k.val = 0x1C then s.resultLen
      else if 4 * k.val = 0x24 then s.errInfo
      else if 4 * k.val = 0x2C ∨ 0x70 ≤ 4 * k.val then 0
      else if 4 * k.val = 0x08 then v &&& 0x07FFFFFF#32
      else if 4 * k.val = 0x20 then v &&& 0x0000FFFF#32
      else if 0x30 ≤ 4 * k.val ∧ 4 * k.val < 0x50 then v &&& 0x00003F1F#32
      else v := by
  obtain ⟨hstatus, -, -, hlen, -, herr, -⟩ := regAt_eq_iff k
  by_cases h1 : 4 * k.val = 0x04
  · rw [h1]; rfl
  by_cases h2 : 4 * k.val = 0x1C
  · rw [h2]; rfl
  by_cases h3 : 4 * k.val = 0x24
  · rw [h3]; rfl
  have hreadOnly : ¬(regAt Config.params (4 * k.val) = .status ∨ regAt Config.params (4 * k.val) = .resultLen ∨
      regAt Config.params (4 * k.val) = .errInfo) := by
    rw [hstatus, hlen, herr]
    exact not_or_intro h1 (not_or_intro h2 h3)
  rw [regValue_writeReg_same s _ v (mt (regAt_eq_cmd_iff k).1 hk), if_neg hreadOnly, writeMask_regAt k hk h1 h2 h3,
    if_neg h1, if_neg h2, if_neg h3]
  have hall : v &&& 0xFFFFFFFF#32 = v := BitVec.and_allOnes
  simp only [apply_ite (v &&& ·), hall, BitVec.and_zero]
  rfl

/-- The registers the running command writes (R18), by the command word in PEND. -/
theorem runningWrites_iff (s : State) (r : Reg) :
    runningWrites (running s) r = true ↔
      r = .resultLen ∨ r = .errInfo ∨ ((r = .cfg ∨ r = .dim ∨ r = .version) ∧ s.pend = some 0x61#32) ∨
        (r = .bfWord ∧ s.pend = some 0x50#32) ∨ ((∃ j, r = .bfVal j) ∧ s.pend = some 0x51#32) := by
  have hdec : running s = some .hdrDec ↔ s.pend = some 0x61#32 := running_eq_some_iff s .hdrDec
  have hpack : running s = some .bfPack ↔ s.pend = some 0x50#32 := running_eq_some_iff s .bfPack
  have hunpack : running s = some .bfUnpack ↔ s.pend = some 0x51#32 := running_eq_some_iff s .bfUnpack
  cases r <;> simp [runningWrites, hdec, hpack, hunpack]

/-- The registers the running command writes, by offset. -/
theorem runningWrites_regAt_iff (s : State) (k : Fin 32) :
    runningWrites (running s) (regAt Config.params (4 * k.val)) = true ↔
      4 * k.val = 0x1C ∨ 4 * k.val = 0x24 ∨
        ((4 * k.val = 0x08 ∨ 4 * k.val = 0x0C ∨ 4 * k.val = 0x20) ∧ s.pend = some 0x61#32) ∨
        (4 * k.val = 0x28 ∧ s.pend = some 0x50#32) ∨
        (0x50 ≤ 4 * k.val ∧ 4 * k.val < 0x70 ∧ s.pend = some 0x51#32) := by
  obtain ⟨-, hcfg, hdim, hlen, hversion, herr, hword, hval⟩ := regAt_eq_iff k
  rw [runningWrites_iff, hcfg, hdim, hlen, hversion, herr, hword, hval, and_assoc]

/-! ### The statements about the register block -/

/-- Settles O6: the write is legal, the block is idle, and offset 0 is CMD. -/
theorem cmdWriteIssuesTheCommand : Obligations.CmdWriteIssuesTheCommand := by
  intro s v rest hb h
  exact step_write_idle hb (by decide) (by decide) h

/-- Settles O7: `hostWrite` answers the state it was given while BUSY = 1. -/
theorem writesWhileBusyAreIgnored : Obligations.WritesWhileBusyAreIgnored := by
  intro s off v rest hb h4 hl h
  exact step_write_busy hb h4 hl h

/-- Settles O8: the write leaves the block idle with the read next, and the read finds the register just written. -/
theorem registerWriteThenRead : Obligations.RegisterWriteThenRead := by
  intro s off v hb h4 h0 hl h
  obtain ⟨k, rfl⟩ := offset_word h4 hl
  have hk : k ≠ 0 := by rintro rfl; exact absurd h0 (by decide)
  have hcmd : regAt Config.params (4 * k.val) ≠ .cmd := mt (regAt_eq_cmd_iff k).1 hk
  have hread := step_read_idle (s := writeReg { s with agenda := [.read 32 (4 * k.val)] } _ v)
    ((busy_writeReg v hcmd).trans hb) h4 hl (agenda_writeReg _ _ v)
  refine ⟨_, _, _, step_write_idle hb h4 hl h, hread, congrArg _ (readLog_writeReg _ _ v), registerHolds_regAt _ _, ?_⟩
  exact regValue_written _ v hk

/-- Settles O9: the state that `writeReg` gives, offset by offset. -/
theorem registerWriteFrame : Obligations.RegisterWriteFrame := by
  intro s off v rest hb h4 h0 hl h
  refine ⟨_, step_write_idle hb h4 hl h, ?cfg, ?dim, ?src, ?srcLen, ?dst, ?version, ?bfWord, ?bfDesc, ?bfVal, ?kept⟩
  case bfDesc =>
    rintro k rfl
    rw [regAt_bfDesc]
    exact ⟨rfl, bankSet_frame _ k _⟩
  case bfVal =>
    rintro k rfl
    rw [regAt_bfVal]
    exact ⟨rfl, bankSet_frame _ k _⟩
  case kept =>
    rintro (rfl | rfl | rfl | hreserved)
    · rfl
    · rfl
    · rfl
    · rw [regAt_reserved hreserved]; rfl
  all_goals rintro rfl; rfl

/-- Settles O10: a read changes the record and at most the draw counter, and while idle it records the register's value. -/
theorem registerReadsHaveNoSideEffect : Obligations.RegisterReadsHaveNoSideEffect := by
  intro s rest
  refine ⟨fun off h4 hl h => ?_, fun h hb => ?_⟩
  · cases hw : busy s && runningWrites (running s) (regAt Config.params off) with
    | false => exact ⟨_, _, step_read_value h4 hl h hw, fun _ => ⟨registerHolds_regAt s off, rfl⟩⟩
    | true =>
      have hb : busy s = true := (Bool.and_eq_true_iff.1 hw).1
      exact ⟨_, _, step_read_free h4 hl h hw, fun hidle => absurd hb (Bool.eq_false_iff.1 hidle)⟩
  · rw [step_wait h, hb, readReg_status]
    rfl

/-- Settles O11: the draw is taken exactly at the registers that the running command writes. -/
theorem readsWhileBusy : Obligations.ReadsWhileBusy := by
  intro s off rest hb h4 hl h
  obtain ⟨k, rfl⟩ := offset_word h4 hl
  have hw := runningWrites_regAt_iff s k
  cases hr : runningWrites (running s) (regAt Config.params (4 * k.val)) with
  | true =>
    refine ⟨_, _, step_read_free h4 hl h (by rw [hb, hr]; rfl), rfl, ?_⟩
    rw [if_pos (hw.1 hr)]
  | false =>
    refine ⟨_, _, step_read_value h4 hl h (by rw [hb, hr]; rfl), rfl, ?_⟩
    rw [if_neg (mt hw.2 (Bool.eq_false_iff.1 hr))]
    exact registerHolds_regAt s _

/-- Settles O12: `legalAccess` is false of such an access, in both directions. -/
theorem undefinedRegisterAccessIsRefused : Obligations.UndefinedRegisterAccessIsRefused := by
  intro s bits off v rest hbad
  have hl : ¬legalAccess bits off = true := by
    rw [legalAccess_iff]
    omega
  exact ⟨fun h => (step_write h).trans (if_neg hl), fun h => (step_read h).trans (if_neg hl)⟩

/-! ### The commands that write no memory -/

@[simp] theorem lenFits_zero : lenFits 0 = true := rfl

@[simp] theorem lenFits_headerLen (bpp : Nat) : lenFits (headerLen bpp) = true := by
  rw [headerLen]
  split <;> rfl

/-- Settles O26: such a command is no transform, so it ends in an error or with only the registers its rule names written; the
field lemmas of `raise`, `finish` and `loadHeader` then give the frame. -/
theorem registerCommandFrame : Obligations.RegisterCommandFrame := by
  intro i s t hi ht
  have hnone : ∀ tr, transformOf i s ≠ some tr := by
    simp only [List.mem_cons, List.not_mem_nil, or_false] at hi
    rcases hi with rfl | rfl | rfl | rfl <;> exact nofun
  rcases exec_cases ht with ⟨e, -, rfl⟩ | ⟨tr, _, htr, -⟩ | ⟨tr, htr, -⟩ | ⟨rfl, rfl⟩ | ⟨rfl, w, rfl⟩ |
    ⟨rfl, b, rfl⟩ | ⟨rfl, -, rfl⟩
  · simp
  · exact absurd htr (hnone tr)
  · exact absurd htr (hnone tr)
  · simp
  · simp
  · simp
  · simp

end Sys2Proof.Machine
end

section
/-!
SUPPORT. Buffer memory: one access of the host (O13, O14), the ranges of every command (O23), the refusal of side-effect memory
(O24), and the frame of the commands that write memory (O25).
-/

namespace Sys2Proof.Machine

/-! ### One memory access as a step -/

/-- A read of a plain byte that exists is recorded, unless the running command forbids it (R41, R47). -/
theorem step_memRead_plain {s : State} {a : Nat} {rest : List HostEvent} (ha : a < 2 ^ 32)
    (hw : touchesWindow s a 1 = false) (h : s.agenda = .memRead a :: rest) :
    step s = if readBreaches s a then .refused (.rangeBreach a)
      else .next { s with agenda := rest, readLog := (readByte s a).zeroExtend 32 :: s.readLog } := by
  rw [step_memRead h]
  exact (if_neg (Nat.not_le.2 ha)).trans (if_neg (Bool.eq_false_iff.1 hw))

/-- A write of a plain byte that exists is made, unless the running command forbids it (R41, R47). -/
theorem step_memWrite_plain {s : State} {a : Nat} {b : Byte} {rest : List HostEvent} (ha : a < 2 ^ 32)
    (hw : touchesWindow s a 1 = false) (h : s.agenda = .memWrite a b :: rest) :
    step s = if writeBreaches s a then .refused (.rangeBreach a)
      else .next (writeBytes { s with agenda := rest } a [b]) := by
  rw [step_memWrite h]
  exact (if_neg (Nat.not_le.2 ha)).trans (if_neg (Bool.eq_false_iff.1 hw))

/-- A read outside the running command's output range records the byte. -/
theorem step_memRead_allowed {s : State} {a : Nat} {rest : List HostEvent} (ha : a < 2 ^ 32)
    (hw : touchesWindow s a 1 = false) (hout : ¬InRunningOutput s a) (h : s.agenda = .memRead a :: rest) :
    step s = .next { s with agenda := rest, readLog := (readByte s a).zeroExtend 32 :: s.readLog } :=
  (step_memRead_plain ha hw h).trans (if_neg (mt (readBreaches_iff s a).1 hout))

/-- A one-byte write takes at its own address. -/
theorem readByte_writeByte_same (s : State) (a : Nat) (b : Byte) : readByte (writeBytes s a [b]) a = b := by
  simp [readByte_writeBytes]

/-- A one-byte write takes nowhere but at its own address. -/
theorem readByte_writeByte_other (s : State) {a x : Nat} (b : Byte) (hx : x ≠ a) :
    readByte (writeBytes s a [b]) x = readByte s x :=
  readByte_writeBytes_outside (by rw [List.length_singleton]; omega)

/-- Settles O13: neither access breaches a range, and a memory write moves neither the running command's output range nor the
platform's windows, so the read after it is free too. -/
theorem hostMemoryWriteThenRead : Obligations.HostMemoryWriteThenRead := by
  intro s a b rest ha hw hout
  refine ⟨step_memRead_allowed ha hw hout, fun hin h => ?_⟩
  have hfree : ¬writeBreaches s a = true := mt (writeBreaches_iff s a).1 (not_or_intro hin hout)
  refine ⟨_, (step_memWrite_plain ha hw h).trans (if_neg hfree), rfl, readByte_writeByte_same _ a b,
    fun x hx => readByte_writeByte_other _ b hx, ?_⟩
  rintro rest' rfl
  have hlast := step_memRead_allowed (s := writeBytes { s with agenda := .memRead a :: rest' } a [b]) ha hw hout rfl
  rwa [readByte_writeByte_same] at hlast

/-- Settles O14: such an access breaches the running command's ranges. -/
theorem accessToRunningRangesHasNoMove : Obligations.AccessToRunningRangesHasNoMove := by
  intro s a b rest ha hw
  exact ⟨fun hout h => (step_memRead_plain ha hw h).trans (if_pos ((readBreaches_iff s a).2 hout)),
    fun hin h => (step_memWrite_plain ha hw h).trans (if_pos ((writeBreaches_iff s a).2 hin))⟩

/-! ### What a legal configuration is -/

@[simp] theorem firstFailure_nil : firstFailure [] = none := rfl

theorem depthCheck_passes_iff (depths : List Nat) (b : Nat) : (depthCheck depths b).fails = false ↔ b ∈ depths := by
  simp [depthCheck]

theorem widthCheck_passes_iff (s : State) : (widthCheck s).fails = false ↔ dimWidth s % 16 = 0 := by
  simp [widthCheck]

/-- The planar checks pass exactly at an index depth with an aligned width (R87). -/
theorem planarChecks_pass_iff (s : State) :
    firstFailure (planarChecks s) = none ↔ IndexDepth (cfgBpp s) ∧ dimWidth s % 16 = 0 := by
  have hdepth : cfgBpp s ∈ pixelDepths ∧ cfgBpp s ∉ [16, 24, 32] ↔ IndexDepth (cfgBpp s) := by
    simp only [pixelDepths, List.mem_cons, List.not_mem_nil, or_false]
    omega
  rw [← hdepth, planarChecks, firstFailure_cons_eq_none_iff, depthCheck_passes_iff, firstFailure_cons_eq_none_iff,
    firstFailure_cons_eq_none_iff, widthCheck_passes_iff]
  simp [and_assoc]

/-- The packed checks pass exactly at the depths 1, 2 and 4 with an aligned width (R92). -/
theorem packedChecks_pass_iff (s : State) :
    firstFailure (packedChecks s) = none ↔ cfgBpp s ∈ [1, 2, 4] ∧ dimWidth s % 16 = 0 := by
  have hdepth : cfgBpp s ∈ pixelDepths ∧ cfgBpp s ∈ [1, 2, 4] ↔ cfgBpp s ∈ [1, 2, 4] := by
    simp only [pixelDepths, List.mem_cons, List.not_mem_nil, or_false]
    omega
  rw [← hdepth, packedChecks, firstFailure_cons_eq_none_iff, depthCheck_passes_iff, firstFailure_cons_eq_none_iff,
    firstFailure_cons_eq_none_iff, widthCheck_passes_iff]
  simp only [Bool.not_eq_false', List.contains_iff_mem, firstFailure_nil, and_true, and_assoc]

/-- The fixed-chunky checks pass only at one of the depths of R97's table. -/
theorem fixedChecks_depth {s : State} (h : firstFailure (fixedChecks s) = none) :
    cfgBpp s ≤ 8 ∨ cfgBpp s ∈ [16, 24, 32] := by
  have hdepth := (depthCheck_passes_iff _ _).1 ((firstFailure_cons_eq_none_iff _ _).1 h).1
  simp only [pixelDepths, List.mem_cons, List.not_mem_nil, or_false] at hdepth ⊢
  omega

/-- With an aligned width the pixels come in whole runs of sixteen. -/
theorem pixelCount_runs {s : State} (h : dimWidth s % 16 = 0) : ∃ m, pixelCount s = 16 * m := by
  obtain ⟨k, hk⟩ := Nat.dvd_of_mod_eq_zero h
  exact ⟨k * dimHeight s, by rw [pixelCount, hk, Nat.mul_assoc]⟩

/-- With an aligned width the bits of the pixels are whole bytes. -/
theorem pixelBits_whole {s : State} (h : dimWidth s % 16 = 0) : pixelCount s * cfgBpp s % 8 = 0 := by
  obtain ⟨m, hm⟩ := pixelCount_runs h
  rw [hm, Nat.mul_assoc]
  omega

/-! ### The lengths of the ranges -/

theorem bitBytes_whole {n b : Nat} (h : n * b % 8 = 0) : bitBytes n b = n * b / 8 := by
  unfold bitBytes
  omega

/-- The grid of a fixed-chunky format is one grid entry a pixel, at the depths of R97's table. -/
theorem fixedGridLen_eq (n : Nat) {b : Nat} (hb : b ≤ 8 ∨ b ∈ [16, 24, 32]) : fixedGridLen n b = gridBytes b * n := by
  simp only [List.mem_cons, List.not_mem_nil, or_false] at hb
  rcases hb with hb | rfl | rfl | rfl
  · simp [fixedGridLen, gridBytes, hb]
  all_goals rfl

/-- The chunks of a fixed-chunky format are one chunk a pixel, at the depths of R97's table. -/
theorem fixedChunkLen_eq (n : Nat) {b : Nat} (hb : b ≤ 8 ∨ b ∈ [16, 24, 32]) :
    fixedChunkLen n b = chunkBytes b * n := by
  simp only [List.mem_cons, List.not_mem_nil, or_false] at hb
  rcases hb with hb | rfl | rfl | rfl
  · simp [fixedChunkLen, chunkBytes, hb]
  all_goals rfl

/-- A pixel of `k ≥ 2` chunk bytes is a truecolor pixel, with four bytes in its grid. -/
theorem gridBytes_wide {k : Nat} (h : 2 ≤ k) : gridBytes (8 * k) = 4 := if_neg (by omega)

theorem chunkBytes_wide {k : Nat} (h : 2 ≤ k) : chunkBytes (8 * k) = k :=
  (if_neg (by omega)).trans (Nat.mul_div_cancel_left k (by decide))

/-- The words that PIX_ENC_PLANAR writes fill the bits of its pixels. -/
theorem outLen_pixEncPlanar {p : Params} {s : State} (h : dimWidth s % 16 = 0) :
    outLen (pixEncPlanar p s) = bitBytes (pixelCount s) (cfgBpp s) := by
  obtain ⟨m, hm⟩ := pixelCount_runs h
  show pixelCount s / 16 * cfgBpp s * 2 = _
  rw [hm, Nat.mul_div_cancel_left m (by decide), bitBytes, Nat.mul_assoc 16]
  omega

/-- The bytes that PIX_ENC_PACKED writes fill the bits of its pixels. -/
theorem outLen_pixEncPacked {s : State} (hb : cfgBpp s ∈ [1, 2, 4]) (h : dimWidth s % 16 = 0) :
    outLen (pixEncPacked s) = bitBytes (pixelCount s) (cfgBpp s) := by
  obtain ⟨m, hm⟩ := pixelCount_runs h
  show pixelCount s / (8 / cfgBpp s) * 1 = _
  simp only [List.mem_cons, List.not_mem_nil, or_false] at hb
  rw [hm, bitBytes]
  rcases hb with hb | hb | hb <;> rw [hb] <;> omega

/-- With a legal configuration a memory command reads and writes as many bytes as its rule's ranges hold. -/
theorem transform_lengths {i : Instr} {s : State} {tr : Transform} (h : transformOf i s = some tr)
    (hc : firstFailure tr.config = none) :
    tr.inLen = (commandRanges i s).1 ∧ outLen tr = (commandRanges i s).2 := by
  cases i with
  | nop | bfPack | bfUnpack | hdrDec => cases h
  | palEncSte | palEncTt | palEncFalcon | palDecSte | palDecTt | palDecFalcon =>
    cases h
    exact ⟨rfl, Nat.mul_comm _ _⟩
  | pixEncPlanar =>
    cases h
    exact ⟨rfl, outLen_pixEncPlanar ((planarChecks_pass_iff s).1 hc).2⟩
  | pixDecPlanar =>
    cases h
    exact ⟨(bitBytes_whole (pixelBits_whole ((planarChecks_pass_iff s).1 hc).2)).symm, Nat.mul_one _⟩
  | pixEncPacked =>
    cases h
    obtain ⟨hb, hwidth⟩ := (packedChecks_pass_iff s).1 hc
    exact ⟨rfl, outLen_pixEncPacked hb hwidth⟩
  | pixDecPacked =>
    cases h
    exact ⟨(bitBytes_whole (pixelBits_whole ((packedChecks_pass_iff s).1 hc).2)).symm, Nat.mul_one _⟩
  | pixEncFixed =>
    cases h
    have hb := fixedChecks_depth hc
    exact ⟨(fixedGridLen_eq _ hb).symm, (Nat.mul_comm _ _).trans (fixedChunkLen_eq _ hb).symm⟩
  | pixDecFixed =>
    cases h
    have hb := fixedChecks_depth hc
    exact ⟨(fixedChunkLen_eq _ hb).symm, (Nat.mul_comm _ _).trans (fixedGridLen_eq _ hb).symm⟩
  | hdrEnc =>
    cases h
    exact ⟨rfl, Nat.mul_one _⟩

/-- The ranges of the fixed-chunky commands at a depth of R97's table. -/
theorem commandRanges_fixed {s : State} (hb : cfgBpp s ≤ 8 ∨ cfgBpp s ∈ [16, 24, 32]) :
    commandRanges .pixEncFixed s = (gridBytes (cfgBpp s) * pixelCount s, chunkBytes (cfgBpp s) * pixelCount s) ∧
      commandRanges .pixDecFixed s = (chunkBytes (cfgBpp s) * pixelCount s, gridBytes (cfgBpp s) * pixelCount s) := by
  rw [← fixedGridLen_eq _ hb, ← fixedChunkLen_eq _ hb]
  exact ⟨rfl, rfl⟩

/-- Settles O23: the table row by row, and the agreement of each transform with it. -/
theorem inputAndOutputLengths : Obligations.InputAndOutputLengths := by
  refine ⟨fun s => ⟨by simp [commandRanges], by simp [commandRanges], rfl, by simp [commandRanges], rfl, ?encBits,
    ?decBits, ?fixedIndexed, ?fixedTruecolor, rfl, rfl⟩, fun i s tr h hc => ?_⟩
  case encBits | decBits =>
    intro h
    rw [← bitBytes_whole h]
    simp [commandRanges]
  case fixedIndexed =>
    intro hb
    simpa [gridBytes, chunkBytes, hb] using commandRanges_fixed (.inl hb)
  case fixedTruecolor =>
    intro k hk hb
    simp only [List.mem_cons, List.not_mem_nil, or_false] at hk
    have hk2 : 2 ≤ k := by omega
    have hdepth : cfgBpp s ∈ [16, 24, 32] := by
      simp only [List.mem_cons, List.not_mem_nil, or_false]
      omega
    obtain ⟨henc, hdec⟩ := commandRanges_fixed (.inr hdepth)
    rw [henc, hdec, hb, gridBytes_wide hk2, chunkBytes_wide hk2]
    exact ⟨rfl, rfl⟩
  obtain ⟨hin, hout⟩ := transform_lengths h hc
  refine ⟨hin, hout, fun hi => ?_, fun hi => ?_⟩
  · simp only [List.mem_cons, List.not_mem_nil, or_false] at hi
    rcases hi with rfl | rfl | rfl | rfl <;> cases h
    · exact pixelBits_whole ((planarChecks_pass_iff s).1 hc).2
    · exact pixelBits_whole ((packedChecks_pass_iff s).1 hc).2
    · exact pixelBits_whole ((planarChecks_pass_iff s).1 hc).2
    · exact pixelBits_whole ((packedChecks_pass_iff s).1 hc).2
  · simp only [List.mem_cons, List.not_mem_nil, or_false] at hi
    rcases hi with rfl | rfl <;> cases h <;> exact fixedChecks_depth hc

/-! ### Side-effect memory -/

/-- A transform command whose checks pass and one of whose ranges covers side-effect memory is refused. -/
theorem runTransform_refused {p : Params} {t : Transform} {s : State}
    (hc : firstFailure (t.config ++ lengthChecks p s t.inLen (outLen t)) = none)
    (hw : touchesWindow s s.src.toNat t.inLen = true ∨ touchesWindow s s.dst.toNat (outLen t) = true) :
    runTransform p t s = .refused .sideEffectMemory := by
  unfold runTransform
  rw [hc]
  exact if_pos (Bool.or_eq_true_iff.2 hw)

/-- The checks of HDR_DEC that read no memory pass exactly when its input lies below the top of memory and holds a magic
(R108). -/
theorem hdrDecFirstChecks_pass_iff (s : State) :
    firstFailure (hdrDecFirstChecks Config.params s) = none ↔
      s.src.toNat + min s.srcLen.toNat 15 ≤ 2 ^ 32 ∧ 4 ≤ s.srcLen.toNat := by
  have hsrc := s.src.isLt
  simp only [hdrDecFirstChecks, hdrDecLen, firstFailure_cons_eq_none_iff, firstFailure_nil, beyondTop_eq_false_iff,
    Config.params, decide_eq_false_iff_not, and_true]
  omega

/-- Settles O24: both runs look at the windows once the named checks have passed. -/
theorem sideEffectMemoryIsRefused : Obligations.SideEffectMemoryIsRefused := by
  refine ⟨fun i s tr h hc hw => (exec_eq_runTransform h).trans (runTransform_refused hc hw), fun s htop hlen hw => ?_⟩
  show execHdrDecWith Config.params s = _
  unfold execHdrDecWith
  rw [(hdrDecFirstChecks_pass_iff s).2 ⟨htop, hlen⟩]
  exact if_pos hw

/-! ### The frame of a command that writes memory -/

/-- Settles O25: a transform command ends in an error before it touches memory, in a data error that leaves only the output range
open, or with its items written there. -/
theorem memoryCommandFrame : Obligations.MemoryCommandFrame := by
  intro i s t tr htr ht
  rw [exec_eq_runTransform htr] at ht
  rcases runTransform_next ht with ⟨e, -, rfl⟩ | ⟨q, -, -, rfl⟩ | ⟨-, -, rfl⟩
  · exact ⟨sameRegisters_raise e s, fun x _ => readByte_raise e s x⟩
  · refine ⟨sameRegisters_raise_unspec _ s _ _, fun x hx => ?_⟩
    rw [readByte_raise, readByte_unspec_outside hx]
  · refine ⟨sameRegisters_finish_write _ s _ _, fun x hx => ?_⟩
    rw [readByte_finish, readByte_writeBytes_outside (by rwa [itemBytes_length])]

end Sys2Proof.Machine
end

section
/-!
SUPPORT. The encoding (O1, O2): the opcode map of R53, the CMD32 fields of R51 and R52 and the encoder against the decoder. And the
end of an illegal word (O4).
-/

namespace Sys2Proof

/-! ### The decoder against the opcode map -/

/-- The decoder answers exactly the rows of the opcode map, since each row carries the word its command encodes to (R53). -/
theorem decode_eq_some_iff_mem_opcodeMap (w : Word) (i : Instr) : decode w = some i ↔ (w, i) ∈ opcodeMap :=
  ⟨lookupOpcode_mem, fun h => (decode_eq_some_iff w i).2 (opcodeMap_encode (w, i) h)⟩

/-- The opcode map with its words as numbers still tells every word apart. -/
theorem decode_eq_some_iff_mem_toNat (w : Word) (i : Instr) :
    decode w = some i ↔ (w.toNat, i) ∈ opcodeMap.map (Prod.map BitVec.toNat id) := by
  have hinj : Function.Injective (Prod.map BitVec.toNat id : Word × Instr → Nat × Instr) :=
    BitVec.toNat_injective.prodMap Function.injective_id
  rw [decode_eq_some_iff_mem_opcodeMap]
  exact (List.mem_map_of_injective hinj).symm

/-- A word whose number stands in no row of the opcode map is illegal (R54). -/
theorem decode_eq_none_of_toNat_notMem {w : Word} (h : w.toNat ∉ opcodeMap.map (·.1.toNat)) : decode w = none :=
  Option.eq_none_iff_forall_ne_some.2 fun _ hi =>
    h (List.mem_map_of_mem ((decode_eq_some_iff_mem_opcodeMap w _).1 hi))

/-! ### The decoder against the CMD32 fields -/

/-- R52 assigns the function of every command, and its reserved bits are 0. -/
theorem wellFormed_encode (i : Instr) : (cmdFields (encode i)).wellFormed = true := by
  cases i <;> rfl

/-- Fields with reserved bits 0 and an assigned function spell a command. -/
theorem isSome_decode_cmdWordOf {c : CmdWord} (h : c.wellFormed = true) : (decode (cmdWordOf c)).isSome = true := by
  obtain ⟨family, func, rsvd⟩ := c
  obtain ⟨hrsvd, hfunc⟩ := Bool.and_eq_true_iff.1 h
  obtain rfl : rsvd = 0 := eq_of_beq hrsvd
  rwa [← funcAssigned_encode]

/-- A word decodes exactly when its fields are well formed (R51, R52). -/
theorem isSome_decode_eq_wellFormed (w : Word) : (decode w).isSome = (cmdFields w).wellFormed := by
  refine Bool.eq_iff_iff.2 ⟨fun h => ?_, fun h => ?_⟩
  · obtain ⟨i, hi⟩ := Option.isSome_iff_exists.1 h
    rw [(decode_eq_some_iff w i).1 hi]
    exact wellFormed_encode i
  · rw [← cmdWordOf_cmdFields w]
    exact isSome_decode_cmdWordOf h

/-- Settles O1: the obligation's table is the opcode map with its words as numbers, and the encoder and the fields agree with the
decoder. -/
theorem decodeAndEncodeAgree : Obligations.DecodeAndEncodeAgree :=
  ⟨decode_eq_some_iff_mem_toNat, fun i => (decode_eq_some_iff _ i).2 rfl, isSome_decode_eq_wellFormed⟩

/-- Settles O2: the lookup of each word, run. -/
theorem sampleWordsDecode : Obligations.SampleWordsDecode := by
  unfold Obligations.SampleWordsDecode
  decide

end Sys2Proof

namespace Sys2Proof.Machine

/-! ### An illegal word -/

/-- ERR_INFO holds a word unchanged: no word is above the value at which it saturates (R117). -/
theorem ofNat_min_toNat (w : Word) : BitVec.ofNat 32 (min w.toNat 0xFFFFFFFF) = w := by
  have := w.isLt
  rw [Nat.min_eq_left (by omega), BitVec.ofNat_toNat, BitVec.setWidth_eq]

/-- The engine's step on an illegal word, whoever gave it the turn (R54, R117). -/
theorem engineStep_illegal {s : State} {w : Word} (hp : s.pend = some w) (hd : decode w = none) :
    engineStep exec s = .next { s with status := 0x806#32, errInfo := w, resultLen := 0, pend := none } := by
  have hstatus : statusError .illegalCommand = 0x806#32 := by decide
  rw [engineStep_some hp, runWord_none hd, raise, ofNat_min_toNat, hstatus]

/-- Settles O4: at each turn the step is the engine's, and the word stands in no row of the opcode map. -/
theorem illegalWordRaisesIllegalCommand : Obligations.IllegalWordRaisesIllegalCommand := by
  intro s w hb hp hw
  have hd : decode w = none := decode_eq_none_of_toNat_notMem hw
  exact ⟨hd,
    fun h => ((step_nil h).trans (if_pos hb)).trans (engineStep_illegal hp hd),
    fun rest h => ((step_engine h).trans (if_pos hb)).trans (engineStep_illegal (s := { s with agenda := rest }) hp hd),
    fun rest h => ((step_wait h).trans (if_pos hb)).trans (engineStep_illegal hp hd)⟩

end Sys2Proof.Machine
end

section
/-!
SUPPORT. The BitLayout unit: which layouts are legal (O30), what BF_PACK and BF_UNPACK leave in their registers (O28, O29), and
that each undoes the other (O31).
-/

namespace Sys2Proof.Machine

/-! ### The first illegal descriptor -/

/-- An instance with the spec's BF_FIELDS has all eight descriptors (R68). -/
theorem descNumbers_params : descNumbers Config.params = List.finRange 8 := by decide

theorem descUsed_eq_true_iff (s : State) (k : Fin 8) : descUsed s k = true ↔ descWidth s k ≠ 0 := decide_eq_true_iff

theorem descIllegal_eq_true_iff (s : State) (k : Fin 8) :
    descIllegal Config.params s k = true ↔ DescriptorBad s k := by
  simp only [descIllegal, descNumbers_params, Bool.and_eq_true, Bool.or_eq_true, decide_eq_true_eq, descUsed_eq_true_iff,
    List.any_eq_true, List.mem_finRange, true_and, rangesMeet_eq_true_iff, or_assoc, DescriptorBad]
  refine and_congr_right fun hk => or_congr_right (or_congr_right (exists_congr fun j => ?_))
  tauto

theorem firstIllegalDesc_eq_find? (s : State) :
    firstIllegalDesc Config.params s = Fin.find? (descIllegal Config.params s) := by
  rw [firstIllegalDesc, descNumbers_params, Fin.find?_eq_find?_finRange]

theorem firstIllegalDesc_eq_some_iff (s : State) (k : Fin 8) :
    firstIllegalDesc Config.params s = some k ↔ DescriptorBad s k ∧ ∀ j < k, ¬DescriptorBad s j := by
  simp only [firstIllegalDesc_eq_find?, Fin.find?_eq_some_iff, ← Bool.not_eq_true, descIllegal_eq_true_iff]

theorem firstIllegalDesc_eq_none_iff (s : State) : firstIllegalDesc Config.params s = none ↔ LayoutLegal s := by
  simp only [firstIllegalDesc_eq_find?, Fin.find?_eq_none_iff, ← Bool.not_eq_true, descIllegal_eq_true_iff, LayoutLegal]

/-! ### What the two commands answer -/

/-- The word BF_PACK leaves in BF_WORD (R70). -/
def packedWord (s : State) : Word :=
  BitVec.ofNat 32 (bitPack (regLayout Config.params s) fun k => (bankGet s.bfVal k).toNat)

theorem exec_bfPack_of_legal {s : State} (h : LayoutLegal s) :
    exec .bfPack s = .next (finish 0 { s with bfWord := packedWord s }) := by
  simp only [exec, execBfPack, execBfPackWith, (firstIllegalDesc_eq_none_iff s).2 h, packedWord]

theorem exec_bfUnpack_of_legal {s : State} (h : LayoutLegal s) :
    exec .bfUnpack s = .next (finish 0 { s with bfVal := unpackedBank Config.params s }) := by
  simp only [exec, execBfUnpack, execBfUnpackWith, (firstIllegalDesc_eq_none_iff s).2 h]

theorem exec_bfPack_of_firstIllegalDesc {s : State} {k : Fin 8} (h : firstIllegalDesc Config.params s = some k) :
    exec .bfPack s = .next (raise ⟨.configurationError, k.val⟩ s) := by
  simp only [exec, execBfPack, execBfPackWith, h]

theorem exec_bfUnpack_of_firstIllegalDesc {s : State} {k : Fin 8} (h : firstIllegalDesc Config.params s = some k) :
    exec .bfUnpack s = .next (raise ⟨.configurationError, k.val⟩ s) := by
  simp only [exec, execBfUnpack, execBfUnpackWith, h]

theorem bfPack_next {s t : State} (h : LayoutLegal s) (ht : exec .bfPack s = .next t) :
    t.bfWord = packedWord s ∧ t.bfDesc = s.bfDesc := by
  obtain rfl := Host.Outcome.next.inj ((exec_bfPack_of_legal h).symm.trans ht)
  exact ⟨rfl, rfl⟩

theorem bfUnpack_next {s t : State} (h : LayoutLegal s) (ht : exec .bfUnpack s = .next t) :
    t.bfVal = unpackedBank Config.params s ∧ t.bfDesc = s.bfDesc := by
  obtain rfl := Host.Outcome.next.inj ((exec_bfUnpack_of_legal h).symm.trans ht)
  exact ⟨rfl, rfl⟩

theorem sameRegisters_finish (n : Nat) (s : State) : SameRegisters s (finish n s) := by
  constructor <;> rfl

/-! ### The layout of the descriptor registers -/

/-- A field of the layout is a used descriptor (R68). -/
theorem mem_regLayout_iff (s : State) (f : BitField (Fin 8)) :
    f ∈ regLayout Config.params s ↔ ∃ k, descWidth s k ≠ 0 ∧ ⟨k, descOffset s k, descWidth s k⟩ = f := by
  simp only [regLayout, descNumbers_params, List.mem_map, List.mem_filter, List.mem_finRange, true_and,
    descUsed_eq_true_iff]

theorem descOffset_congr {s t : State} (h : t.bfDesc = s.bfDesc) (k : Fin 8) : descOffset t k = descOffset s k := by
  rw [descOffset, descOffset, h]

theorem descWidth_congr {s t : State} (h : t.bfDesc = s.bfDesc) (k : Fin 8) : descWidth t k = descWidth s k := by
  rw [descWidth, descWidth, h]

theorem layoutLegal_of_bfDesc_eq {s t : State} (hdesc : t.bfDesc = s.bfDesc) (h : LayoutLegal s) : LayoutLegal t := by
  simpa only [LayoutLegal, DescriptorBad, descOffset_congr hdesc, descWidth_congr hdesc] using h

theorem descWidth_ne_zero_of_inField {s : State} {k : Fin 8} {i : Nat} (h : InField s k i) : descWidth s k ≠ 0 := by
  omega

/-- A field of a legal layout lies in the word (R69 (a)). -/
theorem lt_of_inField {s : State} (h : LayoutLegal s) {k : Fin 8} {i : Nat} (hi : InField s k i) : i < 32 := by
  by_contra hge
  exact h k ⟨descWidth_ne_zero_of_inField hi, .inr (.inl (by omega))⟩

/-- No bit lies in two fields of a legal layout, the case of the smaller descriptor first (R69 (b)). -/
theorem not_inField_of_lt {s : State} (h : LayoutLegal s) {j k : Fin 8} {i : Nat} (hjk : j < k) (hj : InField s j i) :
    ¬InField s k i := fun hk =>
  h k ⟨descWidth_ne_zero_of_inField hk, .inr (.inr ⟨j, hjk, descWidth_ne_zero_of_inField hj, by omega, by omega⟩)⟩

theorem inField_unique {s : State} (h : LayoutLegal s) {j k : Fin 8} {i : Nat} (hj : InField s j i) (hk : InField s k i) :
    j = k := by
  rcases lt_trichotomy j k with hlt | heq | hgt
  · exact absurd hk (not_inField_of_lt h hlt hj)
  · exact heq
  · exact absurd hj (not_inField_of_lt h hgt hk)

/-! ### The packed word, bit by bit -/

/-- A bit of the packed word is set when some field that covers it has that bit of its value set (R65). -/
theorem getLsbD_packedWord_iff {s : State} (h : LayoutLegal s) (i : Nat) :
    (packedWord s).getLsbD i = true ↔
      ∃ k, InField s k i ∧ (bankGet s.bfVal k).getLsbD (i - descOffset s k) = true := by
  simp only [packedWord, BitVec.getLsbD_ofNat, bitPack_testBit, BitVec.testBit_toNat, Bool.and_eq_true, decide_eq_true_eq,
    List.any_eq_true, mem_regLayout_iff]
  constructor
  · rintro ⟨-, _, ⟨k, -, rfl⟩, hk⟩
    exact ⟨k, hk⟩
  · rintro ⟨k, hk, hv⟩
    exact ⟨lt_of_inField h hk, _, ⟨k, descWidth_ne_zero_of_inField hk, rfl⟩, hk, hv⟩

/-- Under a field the packed word holds the field's value: no other field covers the bit. -/
theorem getLsbD_packedWord_of_inField {s : State} (h : LayoutLegal s) {k : Fin 8} {i : Nat} (hk : InField s k i) :
    (packedWord s).getLsbD i = (bankGet s.bfVal k).getLsbD (i - descOffset s k) := by
  rw [Bool.eq_iff_iff, getLsbD_packedWord_iff h]
  constructor
  · rintro ⟨j, hj, hv⟩
    exact inField_unique h hj hk ▸ hv
  · exact fun hv => ⟨k, hk, hv⟩

/-- A bit that no field covers is 0 (R67). -/
theorem getLsbD_packedWord_of_uncovered {s : State} (h : LayoutLegal s) {i : Nat} (hi : ∀ k, ¬InField s k i) :
    (packedWord s).getLsbD i = false := by
  rw [← Bool.not_eq_true, getLsbD_packedWord_iff h]
  rintro ⟨k, hk, -⟩
  exact hi k hk

/-! ### The unpacked values -/

/-- `BitUnpack` of any descriptor; of an unused one the width is 0, and so is the value (R65, R71). -/
theorem bitUnpack_regLayout (s : State) (w : Nat) (k : Fin 8) :
    bitUnpack (regLayout Config.params s) w k = w / 2 ^ descOffset s k % 2 ^ descWidth s k := by
  rw [bitUnpack]
  split
  case h_1 f hf =>
    obtain ⟨j, -, rfl⟩ := (mem_regLayout_iff s f).1 (List.mem_of_find?_eq_some hf)
    have hname : j = k := of_decide_eq_true (List.find?_some (p := fun f : BitField (Fin 8) => decide (f.name = k)) hf)
    rw [← hname]
    exact fieldValue_eq w _
  case h_2 hnone =>
    have hunused : descWidth s k = 0 := by
      by_contra hk
      exact List.find?_eq_none.1 hnone _ ((mem_regLayout_iff s _).2 ⟨k, hk, rfl⟩) (decide_eq_true rfl)
    rw [hunused, Nat.pow_zero, Nat.mod_one]

theorem toNat_unpackedBank (s : State) (k : Fin 8) :
    (bankGet (unpackedBank Config.params s) k).toNat = s.bfWord.toNat / 2 ^ descOffset s k % 2 ^ descWidth s k := by
  have hmem : k ∈ descNumbers Config.params := by simp [descNumbers_params]
  have hlt : s.bfWord.toNat / 2 ^ descOffset s k % 2 ^ descWidth s k < 2 ^ 32 :=
    (Nat.mod_le _ _).trans_lt ((Nat.div_le_self _ _).trans_lt s.bfWord.isLt)
  rw [unpackedBank, bankGet_bankOf, if_pos hmem, bitUnpack_regLayout, BitVec.toNat_ofNat, Nat.mod_eq_of_lt hlt]

/-- A number's field at `off`, `width` bits wide, bit by bit. -/
theorem testBit_div_mod (w off width j : Nat) :
    (w / 2 ^ off % 2 ^ width).testBit j = (decide (j < width) && w.testBit (j + off)) := by
  rw [Nat.testBit_mod_two_pow, Nat.testBit_div_two_pow]

/-- Under a field, the unpacked value holds the word's bit. -/
theorem getLsbD_unpackedBank_of_inField {s : State} {k : Fin 8} {i : Nat} (hk : InField s k i) :
    (bankGet (unpackedBank Config.params s) k).getLsbD (i - descOffset s k) = s.bfWord.getLsbD i := by
  obtain ⟨hlo, hhi⟩ := hk
  have hj : i - descOffset s k < descWidth s k := by omega
  rw [← BitVec.testBit_toNat, toNat_unpackedBank, testBit_div_mod, decide_eq_true hj, Bool.true_and,
    Nat.sub_add_cancel hlo, BitVec.testBit_toNat]

/-- A field of the packed word is the field's value cut to its width (R72). -/
theorem packedWord_field {s : State} (h : LayoutLegal s) (k : Fin 8) :
    (packedWord s).toNat / 2 ^ descOffset s k % 2 ^ descWidth s k = (bankGet s.bfVal k).toNat % 2 ^ descWidth s k := by
  refine Nat.eq_of_testBit_eq fun j => ?_
  rw [testBit_div_mod, Nat.testBit_mod_two_pow, BitVec.testBit_toNat, BitVec.testBit_toNat]
  by_cases hj : j < descWidth s k
  · rw [getLsbD_packedWord_of_inField h (k := k) (by omega), Nat.add_sub_cancel]
  · rw [decide_eq_false hj, Bool.false_and, Bool.false_and]

/-! ### The statements about BF_PACK and BF_UNPACK -/

/-- Settles O28: the packed word, read under a field and where there is none. -/
theorem bfPackPlacesEveryField : Obligations.BfPackPlacesEveryField := fun s h =>
  ⟨_, exec_bfPack_of_legal h, succeeded_finish 0 _ (by decide), sameRegisters_finish 0 _, rfl,
    fun _ _ => getLsbD_packedWord_of_inField h, fun _ => getLsbD_packedWord_of_uncovered h⟩

/-- Settles O29: an unused descriptor has width 0, so one formula gives every value register. -/
theorem bfUnpackSplitsEveryField : Obligations.BfUnpackSplitsEveryField := fun s h =>
  ⟨_, exec_bfUnpack_of_legal h, succeeded_finish 0 _ (by decide), sameRegisters_finish 0 _, rfl,
    toNat_unpackedBank s⟩

/-- Settles O30: the commands look for the smallest illegal descriptor and raise nothing where there is none. -/
theorem illegalLayoutNamesTheFirstDescriptor : Obligations.IllegalLayoutNamesTheFirstDescriptor := by
  refine ⟨fun s k hk hmin => ?_, fun s h => ?_, fun s hempty k hk => hk.1 (hempty k), fun s hw hoff hempty k hk => ?_⟩
  · have hfirst := (firstIllegalDesc_eq_some_iff s k).2 ⟨hk, hmin⟩
    exact ⟨commandFails_raise (exec_bfPack_of_firstIllegalDesc hfirst),
      commandFails_raise (exec_bfUnpack_of_firstIllegalDesc hfirst)⟩
  · exact ⟨⟨_, exec_bfPack_of_legal h, err_finish 0 _⟩, ⟨_, exec_bfUnpack_of_legal h, err_finish 0 _⟩⟩
  · obtain rfl : k = 0 := by_contra fun hne => hk.1 (hempty k hne)
    obtain ⟨-, hwide | hhigh | ⟨j, hj, -⟩⟩ := hk
    · omega
    · omega
    · exact absurd hj (Fin.not_lt_zero j)

/-- Settles O31: the first command leaves the descriptors, so the second one reads the same layout. -/
theorem packAndUnpackAreInverse : Obligations.PackAndUnpackAreInverse := by
  refine fun s h => ⟨fun t u ht hu k => ?_, fun t u ht hu i => ?_⟩
  · obtain ⟨hword, hdesc⟩ := bfPack_next h ht
    obtain ⟨hval, -⟩ := bfUnpack_next (layoutLegal_of_bfDesc_eq hdesc h) hu
    rw [hval, toNat_unpackedBank, hword, descOffset_congr hdesc, descWidth_congr hdesc, packedWord_field h]
  · obtain ⟨hval, hdesc⟩ := bfUnpack_next h ht
    have ht' := layoutLegal_of_bfDesc_eq hdesc h
    obtain ⟨hword, -⟩ := bfPack_next ht' hu
    rw [hword, getLsbD_packedWord_iff ht', hval]
    simp only [InField, descOffset_congr hdesc, descWidth_congr hdesc]
    constructor
    · rintro ⟨k, hk, hv⟩
      exact ⟨(getLsbD_unpackedBank_of_inField hk).symm.trans hv, k, hk⟩
    · rintro ⟨hv, k, hk⟩
      exact ⟨k, hk, (getLsbD_unpackedBank_of_inField hk).trans hv⟩

end Sys2Proof.Machine
end

section
/-!
SUPPORT. The palette commands: their checks (O32), what each of the six writes (O33 to O38), and the round trips of R77
(O39, O40).
-/

namespace Sys2Proof.Machine

/-! ### The end of a transform command that succeeds -/

/-- The state a transform command leaves when nothing fails: its items at DST and their length in RESULT_LEN (R116). -/
def written (tr : Transform) (s : State) : State :=
  finish (outLen tr) (writeBytes s s.dst.toNat (itemBytes tr.width tr.count tr.item))

theorem memRead8_written {tr : Transform} (s : State) {i k : Nat} (hi : i < tr.count) (hk : k < tr.width) :
    memRead8 (written tr s) (s.dst.toNat + tr.width * i + k) = tr.item i / 256 ^ (tr.width - 1 - k) % 256 := by
  rw [memRead8, written, readByte_finish, readByte_items hi hk, beByte_toNat]

theorem memRead_written {tr : Transform} (s : State) {i : Nat} (hi : i < tr.count) :
    memRead (written tr s) (s.dst.toNat + tr.width * i) tr.width = tr.item i % 256 ^ tr.width := by
  rw [written, memRead_finish, memRead_items hi]

/-- A transform command that reads something, and whose checks pass, ends in `written`. -/
theorem commandWrites_of_written {i : Instr} {s : State} {tr : Transform} {n : Nat} {post : State → Prop}
    (h : transformOf i s = some tr) (hc : firstFailure tr.config = none) (hin : 0 < tr.inLen) (hout : outLen tr = n)
    (hr : RangesUsable s tr.inLen n) (hb : tr.badPixel = none) (hp : post (written tr s)) :
    CommandWrites i s n post := by
  subst hout
  exact commandWrites_transform h hc hr hb (fun h0 => absurd h0 (by omega)) hp

/-- The only end of a transform command without an error is `written`. -/
theorem written_of_exec_next {i : Instr} {s t : State} {tr : Transform} (h : transformOf i s = some tr)
    (ht : exec i s = .next t) (herr : err t = false) : t = written tr s := by
  rw [exec_eq_runTransform h] at ht
  rcases runTransform_next ht with ⟨e, -, rfl⟩ | ⟨q, -, -, rfl⟩ | ⟨-, -, rfl⟩
  · simp at herr
  · simp at herr
  · rfl

/-- A byte of a big-endian number in memory (R37). -/
theorem memRead_byte (s : State) (a : Nat) {n k : Nat} (hk : k < n) :
    memRead s a n / 256 ^ (n - 1 - k) % 256 = memRead8 s (a + k) := by
  induction n with
  | zero => omega
  | succ n ih =>
    have hlast := memRead8_lt s (a + n)
    rw [memRead]
    rcases Nat.lt_succ_iff_lt_or_eq.1 hk with hlt | rfl
    · rw [show n + 1 - 1 - k = (n - 1 - k) + 1 by omega, Nat.pow_succ', ← Nat.div_div_eq_div_mul, ← ih hlt]
      congr 2
      omega
    · rw [Nat.add_sub_cancel, Nat.sub_self, Nat.pow_zero, Nat.div_one]
      omega

/-! ### The checks of a palette command -/

/-- Check 2 of R79: BPP is at most 8, in an STE palette at most 4. -/
def palCountCheck (v : PalVariant) (s : State) : Check :=
  ⟨decide (8 < cfgBpp s) || (decide (v = .ste) && decide (4 < cfgBpp s)), .configurationError, cfgBpp s⟩

/-- Check 3 of R79: PALBITS is one of the variant's widths. -/
def palBitsCheck (v : PalVariant) (s : State) : Check :=
  ⟨!(legalPalBits v).contains (cfgPalBits s), .invalidPaletteBits, cfgPalBits s⟩

theorem paletteChecks_eq (v : PalVariant) (s : State) :
    paletteChecks v s = [depthCheck paletteDepths (cfgBpp s), palCountCheck v s, palBitsCheck v s] := rfl

theorem palCountCheck_passes_iff (v : PalVariant) (s : State) :
    (palCountCheck v s).fails = false ↔ cfgBpp s ≤ 8 ∧ (v = .ste → cfgBpp s ≤ 4) := by
  simp [palCountCheck]

theorem palBitsCheck_passes_iff (v : PalVariant) (s : State) :
    (palBitsCheck v s).fails = false ↔ cfgPalBits s ∈ legalPalBits v := by
  simp [palBitsCheck]

theorem mem_legalPalBits_iff (v : PalVariant) (pb : Nat) :
    pb ∈ legalPalBits v ↔ pb = 9 ∨ pb = 12 ∨ (v = .falcon ∧ (pb = 18 ∨ pb = 24)) := by
  cases v <;> simp [legalPalBits]

/-- The depths at which a palette of the variant exists (R79). -/
def palDepths : PalVariant → List Nat
  | .ste => [0, 1, 2, 4]
  | .tt => [0, 1, 2, 4, 6, 8]
  | .falcon => [0, 1, 2, 4, 6, 8]

theorem paletteChecks_pass {v : PalVariant} {s : State} (hb : cfgBpp s ∈ palDepths v)
    (hpb : cfgPalBits s ∈ legalPalBits v) : firstFailure (paletteChecks v s) = none := by
  have hdepth : cfgBpp s ∈ paletteDepths ∧ cfgBpp s ≤ 8 ∧ (v = .ste → cfgBpp s ≤ 4) := by
    cases v <;> simp only [palDepths, paletteDepths, List.mem_cons, List.not_mem_nil, or_false, reduceCtorEq,
      false_implies, true_implies, and_true] at hb ⊢ <;> omega
  simp only [paletteChecks_eq, firstFailure_cons_eq_none_iff, firstFailure_nil, depthCheck_passes_iff,
    palCountCheck_passes_iff, palBitsCheck_passes_iff, and_true]
  exact ⟨hdepth.1, hdepth.2, hpb⟩

/-- Every palette command is a transform that makes the checks of its variant. -/
theorem transformOf_palette {i : Instr} (s : State)
    (hi : i ∈ [.palEncSte, .palEncTt, .palEncFalcon, .palDecSte, .palDecTt, .palDecFalcon]) :
    ∃ v tr, transformOf i s = some tr ∧ tr.config = paletteChecks v s ∧
      (v = .ste ↔ i = .palEncSte ∨ i = .palDecSte) ∧ (v = .falcon ↔ i = .palEncFalcon ∨ i = .palDecFalcon) := by
  simp only [List.mem_cons, List.not_mem_nil, or_false] at hi
  rcases hi with rfl | rfl | rfl | rfl | rfl | rfl
  · exact ⟨.ste, _, rfl, rfl, by decide, by decide⟩
  · exact ⟨.tt, _, rfl, rfl, by decide, by decide⟩
  · exact ⟨.falcon, _, rfl, rfl, by decide, by decide⟩
  · exact ⟨.ste, _, rfl, rfl, by decide, by decide⟩
  · exact ⟨.tt, _, rfl, rfl, by decide, by decide⟩
  · exact ⟨.falcon, _, rfl, rfl, by decide, by decide⟩

/-- Settles O32: the three checks one after the other, each with the condition under which it passes. -/
theorem paletteChecksInOrder : Obligations.PaletteChecksInOrder := by
  intro i s hi b pb ste falcon depthOk countOk bitsOk
  obtain ⟨v, tr, htr, hconfig, hste, hfalcon⟩ := transformOf_palette s hi
  have hdepth : (depthCheck paletteDepths (cfgBpp s)).fails = false ↔ depthOk := depthCheck_passes_iff _ _
  have hcount : (palCountCheck v s).fails = false ↔ countOk := by rw [palCountCheck_passes_iff, hste]
  have hbits : (palBitsCheck v s).fails = false ↔ bitsOk := by
    rw [palBitsCheck_passes_iff, mem_legalPalBits_iff, hfalcon]
  rw [paletteChecks_eq] at hconfig
  refine ⟨fun h1 => ?_, fun h1 h2 => ?_, fun h1 h2 h3 => ?_⟩
  · have hfail := Bool.of_not_eq_false (mt hdepth.1 h1)
    exact commandFails_config htr (hconfig ▸ firstFailure_cons_fails hfail)
  · have hfail := Bool.of_not_eq_false (mt hcount.1 h2)
    refine commandFails_config htr (e := (palCountCheck v s).error) ?_
    rw [hconfig, firstFailure_cons_passes (hdepth.2 h1), firstFailure_cons_fails hfail]
  · have hfail := Bool.of_not_eq_false (mt hbits.1 h3)
    refine commandFails_config htr (e := (palBitsCheck v s).error) ?_
    rw [hconfig, firstFailure_cons_passes (hdepth.2 h1), firstFailure_cons_passes (hcount.2 h2),
      firstFailure_cons_fails hfail]

/-! ### The quantiser and the upscaler -/

theorem quantise_lt (n : Nat) {c : Nat} (hc : c < 256) : quantise n c < 2 ^ n := by
  have := quantise_le (n := n) hc
  have := Nat.two_pow_pos n
  omega

/-- The first sentence of R77: the quantiser undoes the upscaler. -/
theorem quantise_upscale {n v : Nat} (hn : n ∈ [3, 4, 6, 8]) (hv : v < 2 ^ n) : quantise n (upscale n v) = v := by
  unfold quantise upscale
  fin_cases hn <;> omega

/-- The bound of R77: a quantised and upscaled channel is off by at most half a step, rounded down. -/
theorem upscale_quantise_near {n : Nat} (hn : n ∈ [3, 4, 6, 8]) (c : Nat) :
    upscale n (quantise n c) ≤ c + 255 / (2 * (2 ^ n - 1)) ∧
      c ≤ upscale n (quantise n c) + 255 / (2 * (2 ^ n - 1)) := by
  unfold quantise upscale
  fin_cases hn <;> omega

/-! ### The words of the three variants -/

/-- An n-bit value at the top of a field of m bits fits the field. -/
theorem leftAligned_lt {n m v : Nat} (hnm : n ≤ m) (hv : v < 2 ^ n) : v * 2 ^ (m - n) < 2 ^ m := by
  calc v * 2 ^ (m - n) < 2 ^ n * 2 ^ (m - n) := Nat.mul_lt_mul_of_pos_right hv (Nat.two_pow_pos _)
    _ = 2 ^ m := by rw [← Nat.pow_add, Nat.add_sub_cancel' hnm]

/-- The STE nibble of an n-bit value: at 4 bits its low bit stands above the other three (R58, R80). -/
def steNibble (n v : Nat) : Nat := if n = 4 then 8 * (v % 2) + v / 2 else v

/-- The n-bit value of an STE nibble (R84). -/
def steNibbleValue (n x : Nat) : Nat := if n = 4 then 2 * (x % 8) + x / 8 else x % 8

theorem steNibbleValue_lt {n x : Nat} (hn : n ∈ [3, 4]) (hx : x < 16) : steNibbleValue n x < 2 ^ n := by
  unfold steNibbleValue
  split <;> fin_cases hn <;> omega

theorem steNibble_lt {n v : Nat} (hn : n ∈ [3, 4]) (hv : v < 2 ^ n) : steNibble n v < 16 := by
  unfold steNibble
  split <;> fin_cases hn <;> omega

theorem steNibbleValue_steNibble {n v : Nat} (hn : n ∈ [3, 4]) (hv : v < 2 ^ n) :
    steNibbleValue n (steNibble n v) = v := by
  fin_cases hn
  · exact Nat.mod_eq_of_lt hv
  · revert v
    decide

theorem steWord_eq {n : Nat} {colour : Channel → Nat} (hn : n ∈ [3, 4]) (hq : ∀ c, quantise n (colour c) < 2 ^ n) :
    steWord n colour = 256 * steNibble n (quantise n (colour .r)) + 16 * steNibble n (quantise n (colour .g)) +
      steNibble n (quantise n (colour .b)) := by
  have hr := hq .r
  have hg := hq .g
  have hb := hq .b
  rw [steWord, steLayout_pack]
  simp only [steNibble, Nat.shiftRight_eq_div_pow, Nat.and_one_is_mod]
  fin_cases hn <;> simp only [Nat.reduceEqDiff, reduceIte] <;> omega

/-- A split channel of an STE word: `hi` is the nibble's lower three bits, `lo` its top bit (R58). -/
theorem bitUnpack_steLayout (w : Nat) (c : Channel) :
    bitUnpack steLayout w (.hi c) = w / 2 ^ (8 - 4 * channelIndex c) % 16 % 8 ∧
      bitUnpack steLayout w (.lo c) = w / 2 ^ (8 - 4 * channelIndex c) % 16 / 8 := by
  have hhi : bitUnpack steLayout w (.hi c) = fieldValue w ⟨SplitField.hi c, 8 - 4 * channelIndex c, 3⟩ := by
    cases c <;> rfl
  have hlo : bitUnpack steLayout w (.lo c) = fieldValue w ⟨SplitField.lo c, 11 - 4 * channelIndex c, 1⟩ := by
    cases c <;> rfl
  rw [hhi, hlo, fieldValue_eq, fieldValue_eq]
  cases c <;> simp only [channelIndex] <;> omega

theorem steChannel_eq (n w : Nat) (c : Channel) :
    steChannel n w c = steNibbleValue n (w / 2 ^ (8 - 4 * channelIndex c) % 16) := by
  obtain ⟨hhi, hlo⟩ := bitUnpack_steLayout w c
  rw [steChannel, steNibbleValue, hhi, hlo, ← Nat.shiftLeft_add_eq_or_of_lt (by omega), Nat.shiftLeft_eq,
    Nat.mul_comm _ (2 ^ 1)]

theorem steWord_nibble {n : Nat} {colour : Channel → Nat} (hn : n ∈ [3, 4])
    (hq : ∀ c, quantise n (colour c) < 2 ^ n) (c : Channel) :
    steWord n colour / 2 ^ (8 - 4 * channelIndex c) % 16 = steNibble n (quantise n (colour c)) := by
  have hr := steNibble_lt hn (hq .r)
  have hg := steNibble_lt hn (hq .g)
  have hb := steNibble_lt hn (hq .b)
  rw [steWord_eq hn hq]
  cases c <;> simp only [channelIndex] <;> omega

/-- An STE word holds the quantised channels it was made of (R77). -/
theorem steChannel_steWord {n : Nat} {colour : Channel → Nat} (hn : n ∈ [3, 4])
    (hq : ∀ c, quantise n (colour c) < 2 ^ n) (c : Channel) :
    steChannel n (steWord n colour) c = quantise n (colour c) := by
  rw [steChannel_eq, steWord_nibble hn hq, steNibbleValue_steNibble hn (hq c)]

theorem ttWord_eq {n : Nat} {colour : Channel → Nat} (hn : n ∈ [3, 4]) (hq : ∀ c, quantise n (colour c) < 2 ^ n) :
    ttWord n colour = 256 * (quantise n (colour .r) * 2 ^ (4 - n)) + 16 * (quantise n (colour .g) * 2 ^ (4 - n)) +
      quantise n (colour .b) * 2 ^ (4 - n) := by
  have hr := hq .r
  have hg := hq .g
  have hb := hq .b
  rw [ttWord, ttLayout_pack]
  simp only [Nat.shiftLeft_eq]
  fin_cases hn <;> omega

theorem ttChannel_eq (n w : Nat) (c : Channel) :
    ttChannel n w c = w / 2 ^ (8 - 4 * channelIndex c) % 16 / 2 ^ (4 - n) := by
  have hfield : bitUnpack ttLayout w c = fieldValue w ⟨c, 8 - 4 * channelIndex c, 4⟩ := by cases c <;> rfl
  rw [ttChannel, hfield, fieldValue_eq, Nat.shiftRight_eq_div_pow]
  rfl

theorem ttWord_nibble {n : Nat} {colour : Channel → Nat} (hn : n ∈ [3, 4])
    (hq : ∀ c, quantise n (colour c) < 2 ^ n) (c : Channel) :
    ttWord n colour / 2 ^ (8 - 4 * channelIndex c) % 16 = quantise n (colour c) * 2 ^ (4 - n) := by
  have hn4 : n ≤ 4 := by fin_cases hn <;> decide
  have hfield : ∀ c, quantise n (colour c) * 2 ^ (4 - n) < 16 := fun c => leftAligned_lt hn4 (hq c)
  have hr := hfield .r
  have hg := hfield .g
  have hb := hfield .b
  rw [ttWord_eq hn hq]
  cases c <;> simp only [channelIndex] <;> omega

theorem ttChannel_ttWord {n : Nat} {colour : Channel → Nat} (hn : n ∈ [3, 4])
    (hq : ∀ c, quantise n (colour c) < 2 ^ n) (c : Channel) :
    ttChannel n (ttWord n colour) c = quantise n (colour c) := by
  rw [ttChannel_eq, ttWord_nibble hn hq, Nat.mul_div_cancel _ (Nat.two_pow_pos _)]

/-- R60's layout splits each byte of a channel at bit 2; of a left-aligned value the two parts add up to the value again. -/
theorem falconWord_eq {n : Nat} {colour : Channel → Nat} (hn : n ∈ [3, 4, 6, 8])
    (hq : ∀ c, quantise n (colour c) < 2 ^ n) :
    falconWord n colour = 16777216 * (quantise n (colour .r) * 2 ^ (8 - n)) +
      65536 * (quantise n (colour .g) * 2 ^ (8 - n)) + quantise n (colour .b) * 2 ^ (8 - n) := by
  have hr := hq .r
  have hg := hq .g
  have hb := hq .b
  have hand : ∀ v, v &&& 3 = v % 4 := fun v => Nat.and_two_pow_sub_one_eq_mod v 2
  rw [falconWord, falconLayout_pack]
  simp only [hand, Nat.shiftLeft_eq, Nat.shiftRight_eq_div_pow]
  fin_cases hn <;> simp only [Nat.reduceEqDiff, reduceIte] <;> omega

theorem falconFields_lt {n : Nat} {colour : Channel → Nat} (hn : n ∈ [3, 4, 6, 8])
    (hq : ∀ c, quantise n (colour c) < 2 ^ n) :
    quantise n (colour .r) * 2 ^ (8 - n) < 256 ∧ quantise n (colour .g) * 2 ^ (8 - n) < 256 ∧
      quantise n (colour .b) * 2 ^ (8 - n) < 256 := by
  have hn8 : n ≤ 8 := by fin_cases hn <;> decide
  exact ⟨leftAligned_lt hn8 (hq .r), leftAligned_lt hn8 (hq .g), leftAligned_lt hn8 (hq .b)⟩

/-- The byte of a Falcon long that holds a channel: R, G, unused, B (R60). -/
def falconByteIndex (ch : Nat) : Nat := if ch = 2 then 3 else ch

theorem falconByteIndex_lt (c : Channel) : falconByteIndex (channelIndex c) < 4 := by cases c <;> decide

theorem bitUnpack_falconLayout (w : Nat) (c : Channel) :
    bitUnpack falconLayout w (.hi c) = w / 256 ^ (3 - falconByteIndex (channelIndex c)) % 256 / 4 ∧
      bitUnpack falconLayout w (.lo c) = w / 256 ^ (3 - falconByteIndex (channelIndex c)) % 256 % 4 := by
  have hhi : bitUnpack falconLayout w (.hi c) =
      fieldValue w ⟨SplitField.hi c, 8 * (3 - falconByteIndex (channelIndex c)) + 2, 6⟩ := by cases c <;> rfl
  have hlo : bitUnpack falconLayout w (.lo c) =
      fieldValue w ⟨SplitField.lo c, 8 * (3 - falconByteIndex (channelIndex c)), 2⟩ := by cases c <;> rfl
  rw [hhi, hlo, fieldValue_eq, fieldValue_eq]
  cases c <;> simp only [falconByteIndex, channelIndex, Nat.reduceEqDiff, reduceIte] <;> omega

theorem falconChannel_eq {n : Nat} (hn : n ∈ [3, 4, 6, 8]) (w : Nat) (c : Channel) :
    falconChannel n w c = w / 256 ^ (3 - falconByteIndex (channelIndex c)) % 256 / 2 ^ (8 - n) := by
  obtain ⟨hhi, hlo⟩ := bitUnpack_falconLayout w c
  rw [falconChannel, hhi, hlo, ← Nat.shiftLeft_add_eq_or_of_lt (by omega), Nat.shiftLeft_eq]
  simp only [Nat.shiftRight_eq_div_pow]
  fin_cases hn <;> simp only [Nat.reduceEqDiff, reduceIte] <;> omega

/-- The byte of a channel is its quantised value, left-aligned. -/
theorem falconWord_byte {n : Nat} {colour : Channel → Nat} (hn : n ∈ [3, 4, 6, 8])
    (hq : ∀ c, quantise n (colour c) < 2 ^ n) (c : Channel) :
    falconWord n colour / 256 ^ (3 - falconByteIndex (channelIndex c)) % 256 = quantise n (colour c) * 2 ^ (8 - n) := by
  obtain ⟨hr, hg, hb⟩ := falconFields_lt hn hq
  rw [falconWord_eq hn hq]
  cases c <;> simp only [falconByteIndex, channelIndex, Nat.reduceEqDiff, reduceIte] <;> omega

/-- Byte 2 of a Falcon long is 0 (R60). -/
theorem falconWord_byte_unused {n : Nat} {colour : Channel → Nat} (hn : n ∈ [3, 4, 6, 8])
    (hq : ∀ c, quantise n (colour c) < 2 ^ n) : falconWord n colour / 256 % 256 = 0 := by
  obtain ⟨hr, hg, hb⟩ := falconFields_lt hn hq
  rw [falconWord_eq hn hq]
  omega

theorem falconChannel_falconWord {n : Nat} {colour : Channel → Nat} (hn : n ∈ [3, 4, 6, 8])
    (hq : ∀ c, quantise n (colour c) < 2 ^ n) (c : Channel) :
    falconChannel n (falconWord n colour) c = quantise n (colour c) := by
  rw [falconChannel_eq hn, falconWord_byte hn hq, Nat.mul_div_cancel _ (Nat.two_pow_pos _)]

/-! ### Round trips (R77) -/

theorem steWord_congr {n : Nat} {colour colour' : Channel → Nat}
    (h : ∀ c, quantise n (colour c) = quantise n (colour' c)) : steWord n colour = steWord n colour' := by
  simp only [steWord, h]

theorem ttWord_congr {n : Nat} {colour colour' : Channel → Nat}
    (h : ∀ c, quantise n (colour c) = quantise n (colour' c)) : ttWord n colour = ttWord n colour' := by
  simp only [ttWord, h]

theorem falconWord_congr {n : Nat} {colour colour' : Channel → Nat}
    (h : ∀ c, quantise n (colour c) = quantise n (colour' c)) : falconWord n colour = falconWord n colour' := by
  simp only [falconWord, h]

/-- A width of the STE and the TT is a width of R77. -/
theorem falconWidth_of_steWidth {n : Nat} (hn : n ∈ [3, 4]) : n ∈ [3, 4, 6, 8] := by
  simp only [List.mem_cons, List.not_mem_nil, or_false] at hn ⊢
  omega

/-- A channel that reads back as the quantised channel of a colour still does so after it is upscaled. -/
theorem quantise_upscale_of_eq {n x c : Nat} (hn : n ∈ [3, 4, 6, 8]) (hc : c < 256) (hx : x = quantise n c) :
    quantise n (upscale n x) = quantise n c := by
  rw [hx, quantise_upscale hn (quantise_lt n hc)]

/-- Settles O39: a word depends on its colour only through the quantised channels, and a decoder reads these back. -/
theorem quantiseAndUpscaleRoundTrip : Obligations.QuantiseAndUpscaleRoundTrip := by
  refine ⟨fun n hn => ⟨fun v => quantise_upscale hn, fun c _ => upscale_quantise_near hn c⟩, fun n colour hc => ?_⟩
  have hq : ∀ c, quantise n (colour c) < 2 ^ n := fun c => quantise_lt n (hc c)
  refine ⟨fun hn => ⟨steWord_congr fun c => ?_, ttWord_congr fun c => ?_⟩, fun hn => falconWord_congr fun c => ?_⟩
  · exact quantise_upscale_of_eq (falconWidth_of_steWidth hn) (hc c) (steChannel_steWord hn hq c)
  · exact quantise_upscale_of_eq (falconWidth_of_steWidth hn) (hc c) (ttChannel_ttWord hn hq c)
  · exact quantise_upscale_of_eq hn (hc c) (falconChannel_falconWord hn hq c)

/-! ### What the encode commands write -/

theorem palDepth_mem {s : State} (h : cfgPalBits s ∈ [9, 12]) : cfgPalBits s / 3 ∈ [3, 4] := by
  simp only [List.mem_cons, List.not_mem_nil, or_false] at h ⊢
  omega

theorem palDepth_mem_falcon {s : State} (h : cfgPalBits s ∈ [9, 12, 18, 24]) : cfgPalBits s / 3 ∈ [3, 4, 6, 8] := by
  simp only [List.mem_cons, List.not_mem_nil, or_false] at h ⊢
  omega

theorem quantise_srcChannel_lt (n : Nat) (s : State) (k : Nat) (c : Channel) :
    quantise n (srcChannel s k c) < 2 ^ n := quantise_lt n (memRead8_lt s _)

theorem palWordBytes_pos (v : PalVariant) : 0 < palWordBytes v := by cases v <;> decide

/-- An encode command with a legal configuration and usable buffers ends in `written` (R79). -/
theorem commandWrites_palEnc {i : Instr} {s : State} {v : PalVariant} {word : Nat → (Channel → Nat) → Nat}
    {post : State → Prop} (h : transformOf i s = some (palEncTransform v word s)) (hb : cfgBpp s ∈ palDepths v)
    (hpb : cfgPalBits s ∈ legalPalBits v)
    (hr : RangesUsable s (3 * 2 ^ cfgBpp s) (palWordBytes v * 2 ^ cfgBpp s))
    (hp : post (written (palEncTransform v word s) s)) :
    CommandWrites i s (palWordBytes v * 2 ^ cfgBpp s) post :=
  commandWrites_of_written h (paletteChecks_pass hb hpb) (Nat.mul_pos (by decide) (Nat.two_pow_pos _))
    (Nat.mul_comm _ _) hr rfl hp

/-- A word or long an encode command wrote, read back whole. -/
theorem memRead_written_palEnc {s : State} {v : PalVariant} {word : Nat → (Channel → Nat) → Nat} {k : Nat}
    (hk : k < 2 ^ cfgBpp s) :
    memRead (written (palEncTransform v word s) s) (s.dst.toNat + palWordBytes v * k) (palWordBytes v) =
      word (cfgPalBits s / 3) (srcChannel s k) % 256 ^ palWordBytes v :=
  memRead_written (tr := palEncTransform v word s) s hk

theorem steWord_lt {n : Nat} {colour : Channel → Nat} (hn : n ∈ [3, 4]) (hq : ∀ c, quantise n (colour c) < 2 ^ n) :
    steWord n colour < 256 ^ 2 := by
  have hr := steNibble_lt hn (hq .r)
  have hg := steNibble_lt hn (hq .g)
  have hb := steNibble_lt hn (hq .b)
  rw [steWord_eq hn hq]
  omega

theorem ttWord_lt (n : Nat) (colour : Channel → Nat) : ttWord n colour < 256 ^ 2 := by
  rw [ttWord, ttLayout_pack]
  omega

/-- Settles O33: the item of entry `k` is its STE word, and a word fits its two bytes. -/
theorem palEncSteWritesSteWords : Obligations.PalEncSteWritesSteWords := by
  intro s hb hpb c n q nibble hr
  have hn : n ∈ [3, 4] := palDepth_mem hpb
  refine commandWrites_palEnc (v := .ste) rfl hb hpb hr fun k hk => ?_
  have hq := quantise_srcChannel_lt n s k
  exact (memRead_written_palEnc hk).trans ((Nat.mod_eq_of_lt (steWord_lt hn hq)).trans (steWord_eq hn hq))

/-- Settles O34: the item of entry `k` is its TT word, and a word fits its two bytes. -/
theorem palEncTtWritesTtWords : Obligations.PalEncTtWritesTtWords := by
  intro s hb hpb c n q hr
  have hn : n ∈ [3, 4] := palDepth_mem hpb
  refine commandWrites_palEnc (v := .tt) rfl hb hpb hr fun k hk => ?_
  have hq := quantise_srcChannel_lt n s k
  exact (memRead_written_palEnc hk).trans ((Nat.mod_eq_of_lt (ttWord_lt n _)).trans (ttWord_eq hn hq))

/-- Settles O35: the item of entry `k` is its Falcon long, taken byte by byte. -/
theorem palEncFalconWritesFalconLongs : Obligations.PalEncFalconWritesFalconLongs := by
  intro s hb hpb c n q hr
  have hn : n ∈ [3, 4, 6, 8] := palDepth_mem_falcon hpb
  refine commandWrites_palEnc (v := .falcon) rfl hb hpb hr fun k hk => ?_
  have hq := quantise_srcChannel_lt n s k
  have hbyte := fun j (hj : j < 4) => memRead8_written (tr := palEncFalcon s) s hk hj
  exact ⟨(hbyte 0 (by decide)).trans (falconWord_byte hn hq .r), (hbyte 1 (by decide)).trans (falconWord_byte hn hq .g),
    (hbyte 2 (by decide)).trans (falconWord_byte_unused hn hq), (hbyte 3 (by decide)).trans (falconWord_byte hn hq .b)⟩

/-! ### What the decode commands write -/

theorem rgbItem_byte {out : Channel → Nat} (h : ∀ c, out c < 256) (c : Channel) :
    rgbItem out / 256 ^ (2 - channelIndex c) % 256 = out c := by
  have hr := h .r
  have hg := h .g
  have hb := h .b
  rw [rgbItem_eq hg hb]
  cases c <;> simp only [channelIndex] <;> omega

theorem channelIndex_lt (c : Channel) : channelIndex c < 3 := by cases c <;> decide

theorem exists_channelIndex_eq {ch : Nat} (h : ch < 3) : ∃ c, channelIndex c = ch := by
  interval_cases ch
  · exact ⟨.r, rfl⟩
  · exact ⟨.g, rfl⟩
  · exact ⟨.b, rfl⟩

theorem palDepth_pos {s : State} {v : PalVariant} (h : cfgPalBits s ∈ legalPalBits v) : 1 ≤ cfgPalBits s / 3 := by
  rw [mem_legalPalBits_iff] at h
  omega

/-- A byte of a colour-table entry that a decode command wrote is the upscaled channel of the word. -/
theorem memRead8_written_palDec {s : State} {v : PalVariant} {chan : Nat → Nat → Channel → Nat}
    (hn : 1 ≤ palDepth s) (hlt : ∀ w c, chan (palDepth s) w c < 2 ^ palDepth s) {k : Nat} (hk : k < 2 ^ cfgBpp s)
    (c : Channel) :
    memRead8 (written (palDecTransform v chan s) s) (s.dst.toNat + 3 * k + channelIndex c) =
      upscale (palDepth s)
        (chan (palDepth s) (memRead s (s.src.toNat + palWordBytes v * k) (palWordBytes v)) c) :=
  (memRead8_written (tr := palDecTransform v chan s) s hk (channelIndex_lt c)).trans
    (rgbItem_byte (fun c => upscale_lt hn (hlt _ c)) c)

/-- A decode command with a legal configuration and usable buffers writes the upscaled channels of its words (R79, R76);
`value` gives them as numbers. -/
theorem commandWrites_palDec {i : Instr} {s : State} {v : PalVariant} {chan : Nat → Nat → Channel → Nat}
    (value : Nat → Nat → Nat) (h : transformOf i s = some (palDecTransform v chan s)) (hb : cfgBpp s ∈ palDepths v)
    (hpb : cfgPalBits s ∈ legalPalBits v) (hlt : ∀ w c, chan (palDepth s) w c < 2 ^ palDepth s)
    (hvalue : ∀ k c, chan (palDepth s) (memRead s (s.src.toNat + palWordBytes v * k) (palWordBytes v)) c =
      value k (channelIndex c))
    (hr : RangesUsable s (palWordBytes v * 2 ^ cfgBpp s) (3 * 2 ^ cfgBpp s)) :
    CommandWrites i s (3 * 2 ^ cfgBpp s) fun t => ∀ k ch, k < 2 ^ cfgBpp s → ch < 3 →
      memRead8 t (s.dst.toNat + 3 * k + ch) = upscale (palDepth s) (value k ch) := by
  refine commandWrites_of_written h (paletteChecks_pass hb hpb)
    (Nat.mul_pos (palWordBytes_pos v) (Nat.two_pow_pos _)) (Nat.mul_comm _ _) hr rfl fun k ch hk hch => ?_
  obtain ⟨c, rfl⟩ := exists_channelIndex_eq hch
  rw [memRead8_written_palDec (palDepth_pos hpb) hlt hk, hvalue]

theorem steChannel_lt {n : Nat} (hn : n ∈ [3, 4]) (w : Nat) (c : Channel) : steChannel n w c < 2 ^ n := by
  rw [steChannel_eq]
  exact steNibbleValue_lt hn (Nat.mod_lt _ (by decide))

theorem ttChannel_lt {n : Nat} (hn : n ∈ [3, 4]) (w : Nat) (c : Channel) : ttChannel n w c < 2 ^ n := by
  rw [ttChannel_eq]
  fin_cases hn <;> omega

theorem falconChannel_lt {n : Nat} (hn : n ∈ [3, 4, 6, 8]) (w : Nat) (c : Channel) : falconChannel n w c < 2 ^ n := by
  rw [falconChannel_eq hn]
  fin_cases hn <;> omega

/-- Settles O36: the decoded value of a channel is that of its nibble. -/
theorem palDecSteWritesColours : Obligations.PalDecSteWritesColours := by
  intro s hb hpb c n nibble v hr
  have hn : n ∈ [3, 4] := palDepth_mem hpb
  exact commandWrites_palDec (v := .ste) v rfl hb hpb (steChannel_lt hn) (fun k c => steChannel_eq _ _ c) hr

/-- Settles O37: the decoded value of a channel is the top of its 4-bit field. -/
theorem palDecTtWritesColours : Obligations.PalDecTtWritesColours := by
  intro s hb hpb c n nibble v hr
  have hn : n ∈ [3, 4] := palDepth_mem hpb
  exact commandWrites_palDec (v := .tt) v rfl hb hpb (ttChannel_lt hn) (fun k c => ttChannel_eq _ _ c) hr

/-- Settles O38: the decoded value of a channel is the top of its byte in the long. -/
theorem palDecFalconWritesColours : Obligations.PalDecFalconWritesColours := by
  intro s hb hpb c n byte v hr
  have hn : n ∈ [3, 4, 6, 8] := palDepth_mem_falcon hpb
  refine commandWrites_palDec (v := .falcon) v rfl hb hpb (falconChannel_lt hn) (fun k c => ?_) hr
  exact (falconChannel_eq hn _ c).trans (congrArg (· / 2 ^ (8 - n)) (memRead_byte s _ (falconByteIndex_lt c)))

/-! ### Decoding and then encoding an STE palette -/

theorem steNibble_steNibbleValue {n x : Nat} (hn : n ∈ [3, 4]) (hx : x < 16) :
    steNibble n (steNibbleValue n x) = x &&& (if n = 4 then 0xF else 0x7) := by
  revert x
  fin_cases hn <;> decide

/-- A mask of three equal nibbles cuts each nibble of a word. -/
theorem and_repeated_nibble (w : Nat) {a : Nat} (ha : a < 16) :
    w &&& (256 * a + 16 * a + a) =
      256 * (w / 2 ^ 8 % 2 ^ 4 &&& a) + 16 * (w / 2 ^ 4 % 2 ^ 4 &&& a) + (w / 2 ^ 0 % 2 ^ 4 &&& a) := by
  have hmask : ∀ a < 16, ∀ k ∈ [0, 4, 8], (256 * a + 16 * a + a) / 2 ^ k % 2 ^ 4 = a := by decide
  have hnibble : ∀ k ∈ [0, 4, 8], w / 2 ^ k % 2 ^ 4 &&& a = (w &&& (256 * a + 16 * a + a)) / 2 ^ k % 2 ^ 4 := by
    intro k hk
    rw [Nat.and_div_two_pow, Nat.and_mod_two_pow, hmask a ha k hk]
  have hle : w &&& (256 * a + 16 * a + a) ≤ 256 * a + 16 * a + a := Nat.and_le_right
  rw [hnibble 8 (by decide), hnibble 4 (by decide), hnibble 0 (by decide)]
  omega

/-- The STE word of a colour whose quantised channels are those of a word is that word, cut to the bits an encoder can
set (R77, R83). -/
theorem steWord_of_steChannel {n w : Nat} {colour : Channel → Nat} (hn : n ∈ [3, 4])
    (h : ∀ c, quantise n (colour c) = steChannel n w c) :
    steWord n colour = w &&& (if n = 4 then 0x0FFF else 0x0777) := by
  have hnibble : ∀ c, steNibble n (quantise n (colour c)) =
      w / 2 ^ (8 - 4 * channelIndex c) % 16 &&& (if n = 4 then 0xF else 0x7) := fun c => by
    rw [h, steChannel_eq, steNibble_steNibbleValue hn (Nat.mod_lt _ (by decide))]
  rw [steWord_eq hn fun c => (h c).symm ▸ steChannel_lt hn w c, hnibble, hnibble, hnibble]
  refine (and_repeated_nibble w ?_).symm.trans ?_
  · split <;> decide
  · split <;> rfl

/-- Settles O40: the encoder reads the upscaled channels that the decoder wrote, and quantises them back. -/
theorem stePaletteDecodeThenEncode : Obligations.StePaletteDecodeThenEncode := by
  intro s t u v hb hpb ht herr hmem hcfg hsrc hv herr' k hk
  have hn := palDepth_mem hpb
  have hn' := falconWidth_of_steWidth hn
  obtain rfl := written_of_exec_next (i := .palDecSte) rfl ht herr
  obtain rfl := written_of_exec_next (i := .palEncSte) rfl hv herr'
  have hbpp : cfgBpp u = cfgBpp s := by rw [cfgBpp, cfgBpp, hcfg]
  have hbits : cfgPalBits u = cfgPalBits s := by rw [cfgPalBits, cfgPalBits, hcfg]
  have hq : ∀ c, quantise (cfgPalBits s / 3) (srcChannel u k c) =
      steChannel (cfgPalBits s / 3) (memRead s (s.src.toNat + 2 * k) 2) c := fun c => by
    rw [srcChannel, memRead8, readByte_congr hmem, hsrc]
    refine (congrArg (quantise _) ?_).trans (quantise_upscale hn' (steChannel_lt hn _ c))
    exact memRead8_written_palDec (palDepth_pos (v := .ste) hpb) (steChannel_lt hn) hk c
  have hlt : ∀ c, quantise (cfgPalBits s / 3) (srcChannel u k c) < 2 ^ (cfgPalBits s / 3) :=
    quantise_srcChannel_lt _ u k
  have hwidth : cfgPalBits s / 3 = 4 ↔ cfgPalBits s = 12 := by
    simp only [List.mem_cons, List.not_mem_nil, or_false] at hpb
    omega
  calc memRead (written (palEncSte u) u) (u.dst.toNat + 2 * k) 2
      = steWord (cfgPalBits u / 3) (srcChannel u k) % 256 ^ 2 := memRead_written_palEnc (v := .ste) (hbpp ▸ hk)
    _ = steWord (cfgPalBits s / 3) (srcChannel u k) := by rw [hbits, Nat.mod_eq_of_lt (steWord_lt hn hlt)]
    _ = _ := by simp only [steWord_of_steChannel hn hq, hwidth]

end Sys2Proof.Machine
end

section
/-!
SUPPORT. The bitplane interleaver: its checks (O41), what each of its commands writes (O42, O43) and that each undoes the other
(O44). And the data error of the four commands that check indices (O49).
-/

namespace Sys2Proof.Machine

/-! ### The checks of a planar command -/

/-- Check 2 of R87: the truecolor depths have no planes. -/
def planarDepthCheck (s : State) : Check :=
  ⟨[16, 24, 32].contains (cfgBpp s), .configurationError, cfgBpp s⟩

theorem planarChecks_eq (s : State) :
    planarChecks s = [depthCheck pixelDepths (cfgBpp s), planarDepthCheck s, widthCheck s] := rfl

theorem planarDepthCheck_passes_iff {s : State} (h : PixelDepth (cfgBpp s)) :
    (planarDepthCheck s).fails = false ↔ cfgBpp s ≤ 8 := by
  simp only [planarDepthCheck, ← Bool.not_eq_true, List.contains_iff_mem]
  simp only [List.mem_cons, List.not_mem_nil, or_false] at h ⊢
  omega

/-- An index depth is a pixel depth of at most eight bits, and has at least one (R87). -/
theorem indexDepth_bounds {b : Nat} (h : IndexDepth b) : PixelDepth b ∧ 1 ≤ b ∧ b ≤ 8 := by
  simp only [IndexDepth, PixelDepth, List.mem_cons, List.not_mem_nil, or_false] at h ⊢
  omega

/-- Both planar commands are transforms that make the same checks. -/
theorem transformOf_planar {i : Instr} (s : State) (hi : i ∈ [.pixEncPlanar, .pixDecPlanar]) :
    ∃ tr, transformOf i s = some tr ∧ tr.config = planarChecks s := by
  simp only [List.mem_cons, List.not_mem_nil, or_false] at hi
  rcases hi with rfl | rfl
  · exact ⟨_, rfl, rfl⟩
  · exact ⟨_, rfl, rfl⟩

/-- Settles O41: the three checks one after the other, each with the condition under which it passes. -/
theorem planarChecksInOrder : Obligations.PlanarChecksInOrder := by
  intro i s hi b
  obtain ⟨tr, htr, hconfig⟩ := transformOf_planar s hi
  rw [planarChecks_eq] at hconfig
  have hdepth : (depthCheck pixelDepths (cfgBpp s)).fails = false ↔ PixelDepth b := depthCheck_passes_iff _ _
  refine ⟨fun h1 => ?_, fun h1 h2 => ?_, fun h12 h3 => ?_⟩
  · have hfail := Bool.of_not_eq_false (mt hdepth.1 h1)
    exact commandFails_config htr (hconfig ▸ firstFailure_cons_fails hfail)
  · have hfail := Bool.of_not_eq_false (mt (planarDepthCheck_passes_iff h1).1 (Nat.not_le.2 h2))
    refine commandFails_config htr (e := (planarDepthCheck s).error) ?_
    rw [hconfig, firstFailure_cons_passes (hdepth.2 h1), firstFailure_cons_fails hfail]
  · obtain ⟨h1, -, h2⟩ := indexDepth_bounds h12
    have hfail := Bool.of_not_eq_false (mt (widthCheck_passes_iff s).1 h3)
    refine commandFails_config htr (e := (widthCheck s).error) ?_
    rw [hconfig, firstFailure_cons_passes (hdepth.2 h1),
      firstFailure_cons_passes ((planarDepthCheck_passes_iff h1).2 h2), firstFailure_cons_fails hfail]

/-! ### Pixels and planes -/

/-- Numbers of sixteen bits that agree from the top bit down are equal. -/
theorem eq_of_testBit_planes {x y : Nat} (hx : x < 2 ^ 16) (hy : y < 2 ^ 16)
    (h : ∀ i < 16, x.testBit (15 - i) = y.testBit (15 - i)) : x = y := by
  refine Nat.eq_of_testBit_eq fun k => ?_
  by_cases hk : k < 16
  · have hbit := h (15 - k) (by omega)
    rwa [show 15 - (15 - k) = k by omega] at hbit
  · have hpow : 2 ^ 16 ≤ 2 ^ k := Nat.pow_le_pow_right (by decide) (Nat.not_lt.1 hk)
    rw [Nat.testBit_lt_two_pow (hx.trans_le hpow), Nat.testBit_lt_two_pow (hy.trans_le hpow)]

/-- The planes of a run give back its pixels, when these have no bit above the planes (R91). -/
theorem pixelOfPlanes_planeWord {b g i : Nat} {idx w : Nat → Nat} (hi : i < 16) (hlt : idx (16 * g + i) < 2 ^ b)
    (hw : ∀ j < b, w j = planeWord idx g j) : pixelOfPlanes b w i = idx (16 * g + i) := by
  refine Nat.eq_of_testBit_eq fun j => ?_
  rw [pixelOfPlanes_testBit]
  by_cases hj : j < b
  · rw [decide_eq_true hj, Bool.true_and, hw j hj, planeWord_testBit idx g j i hi]
  · have hpow : 2 ^ b ≤ 2 ^ j := Nat.pow_le_pow_right (by decide) (Nat.not_lt.1 hj)
    rw [decide_eq_false hj, Bool.false_and, Nat.testBit_lt_two_pow (hlt.trans_le hpow)]

/-- The pixels of a run give back its planes (R91). -/
theorem planeWord_pixelOfPlanes {b g j : Nat} {idx w : Nat → Nat} (hj : j < b) (hlt : w j < 2 ^ 16)
    (hidx : ∀ i < 16, idx (16 * g + i) = pixelOfPlanes b w i) : planeWord idx g j = w j := by
  refine eq_of_testBit_planes (planeWord_lt idx g j) hlt fun i hi => ?_
  rw [planeWord_testBit idx g j i hi, hidx i hi, pixelOfPlanes_testBit, decide_eq_true hj, Bool.true_and]

/-! ### What the planar commands write -/

/-- Plane word `j` of run `g` at SRC (R89). -/
def srcPlane (s : State) (g j : Nat) : Nat := memRead s (s.src.toNat + 2 * (g * cfgBpp s + j)) 2

theorem srcPlane_lt (s : State) (g j : Nat) : srcPlane s g j < 2 ^ 16 := memRead_lt s _ 2

/-- A plane of a run of the grid is one of the words that PIX_ENC_PLANAR writes. -/
theorem plane_lt_count {n b g j : Nat} (hg : g < n / 16) (hj : j < b) : g * b + j < n / 16 * b := by
  calc g * b + j < (g + 1) * b := by rw [Nat.succ_mul]; omega
    _ ≤ n / 16 * b := Nat.mul_le_mul_right b hg

/-- Item `g·b + j` is plane `j` of run `g` (R88). -/
theorem pixEncPlanar_item (s : State) (g : Nat) {j : Nat} (hj : j < cfgBpp s) :
    (pixEncPlanar Config.params s).item (g * cfgBpp s + j) = planeWord (srcIndex s) g j := by
  show planeWord (srcIndex s) ((g * cfgBpp s + j) / cfgBpp s) ((g * cfgBpp s + j) % cfgBpp s) = _
  rw [Nat.mul_comm, Nat.mul_add_div (by omega), Nat.mul_add_mod, Nat.div_eq_of_lt hj, Nat.mod_eq_of_lt hj, Nat.add_zero]

/-- Item `16g + i` is pixel `i` of run `g` (R89). -/
theorem pixDecPlanar_item (s : State) (g : Nat) {i : Nat} (hi : i < 16) :
    (pixDecPlanar s).item (16 * g + i) = pixelOfPlanes (cfgBpp s) (srcPlane s g) i := by
  show pixelOfPlanes (cfgBpp s) (srcPlane s ((16 * g + i) / 16)) ((16 * g + i) % 16) = _
  rw [Nat.mul_add_div (by decide), Nat.mul_add_mod, Nat.div_eq_of_lt hi, Nat.mod_eq_of_lt hi, Nat.add_zero]

/-- A plane word that PIX_ENC_PLANAR wrote, read back whole. -/
theorem memRead_written_pixEncPlanar {s : State} {g j : Nat} (hg : g < pixelCount s / 16) (hj : j < cfgBpp s) :
    memRead (written (pixEncPlanar Config.params s) s) (s.dst.toNat + 2 * (g * cfgBpp s + j)) 2 =
      planeWord (srcIndex s) g j := by
  refine (memRead_written (tr := pixEncPlanar Config.params s) s (plane_lt_count hg hj)).trans ?_
  rw [pixEncPlanar_item s g hj]
  exact Nat.mod_eq_of_lt (planeWord_lt _ g j)

/-- An index that PIX_DEC_PLANAR wrote. -/
theorem memRead8_written_pixDecPlanar {s : State} {g i : Nat} (hb : cfgBpp s ≤ 8) (hg : g < pixelCount s / 16)
    (hi : i < 16) :
    memRead8 (written (pixDecPlanar s) s) (s.dst.toNat + (16 * g + i)) =
      pixelOfPlanes (cfgBpp s) (srcPlane s g) i := by
  have hcount : 16 * g + i < (pixDecPlanar s).count := show _ < pixelCount s by omega
  have hlt : pixelOfPlanes (cfgBpp s) (srcPlane s g) i < 256 :=
    (pixelOfPlanes_lt _ _ i).trans_le (Nat.pow_le_pow_right (n := 2) (by decide) hb)
  have hread := memRead8_written (tr := pixDecPlanar s) s (k := 0) hcount (by decide : 0 < 1)
  rw [pixDecPlanar_item s g hi, show (pixDecPlanar s).width = 1 from rfl, Nat.one_mul] at hread
  simpa [Nat.mod_eq_of_lt hlt] using hread

/-- With an aligned width PIX_ENC_PLANAR writes one bit for each bit of its pixels. -/
theorem outLen_pixEncPlanar_bytes {s : State} (h : dimWidth s % 16 = 0) :
    outLen (pixEncPlanar Config.params s) = pixelCount s * cfgBpp s / 8 :=
  (outLen_pixEncPlanar h).trans (bitBytes_whole (pixelBits_whole h))

/-- A transform command with a legal configuration, usable buffers and good data ends in `written`. -/
theorem commandWrites_of_outLen {i : Instr} {s : State} {tr : Transform} {n : Nat} {post : State → Prop}
    (h : transformOf i s = some tr) (hc : firstFailure tr.config = none) (hout : outLen tr = n)
    (hr : RangesUsable s tr.inLen n) (hb : tr.badPixel = none) (hempty : tr.inLen = 0 → n < 2 ^ 32)
    (hp : post (written tr s)) : CommandWrites i s n post := by
  subst hout
  exact commandWrites_transform h hc hr hb hempty hp

/-- Settles O42: each plane word that the command writes is the interleaving of its run's pixels. -/
theorem pixEncPlanarInterleaves : Obligations.PixEncPlanarInterleaves := by
  intro s hb hw n b hr hidx
  have hempty : n = 0 → n * b / 8 < 2 ^ 32 := fun h0 => by simp [h0]
  refine commandWrites_of_outLen (tr := pixEncPlanar Config.params s) rfl ((planarChecks_pass_iff s).2 ⟨hb, hw⟩)
    (outLen_pixEncPlanar_bytes hw) hr ((firstBadIndex_eq_none_iff s _ _).2 hidx) hempty fun g j i hg hj hi => ?_
  rw [memRead_written_pixEncPlanar hg hj, planeWord_testBit _ g j i hi, srcIndex, Nat.add_assoc]

/-- Settles O43: each index that the command writes is the de-interleaving of its run's plane words. -/
theorem pixDecPlanarDeinterleaves : Obligations.PixDecPlanarDeinterleaves := by
  intro s hb hw n b hr
  obtain ⟨-, hb1, hb8⟩ := indexDepth_bounds hb
  have hle : n ≤ n * b := Nat.le_mul_of_pos_right n hb1
  have hempty : n * b / 8 = 0 → n < 2 ^ 32 := by omega
  refine commandWrites_of_outLen (tr := pixDecPlanar s) rfl ((planarChecks_pass_iff s).2 ⟨hb, hw⟩) (Nat.mul_one _) hr rfl
    hempty fun g i hg hi => ?_
  rw [Nat.add_assoc, memRead8_written_pixDecPlanar hb8 hg hi]
  refine ⟨pixelOfPlanes_lt _ _ i, fun j hj => ?_⟩
  rw [pixelOfPlanes_testBit, decide_eq_true hj, Bool.true_and, srcPlane]

/-! ### Round trips (R91) -/

/-- A transform command that ends without an error has passed its checks, the data check included. -/
theorem checks_of_exec_next {i : Instr} {s t : State} {tr : Transform} (h : transformOf i s = some tr)
    (ht : exec i s = .next t) (herr : err t = false) : firstFailure tr.config = none ∧ tr.badPixel = none := by
  rw [exec_eq_runTransform h] at ht
  rcases runTransform_next ht with ⟨e, -, rfl⟩ | ⟨q, -, -, rfl⟩ | ⟨hc, hb, -⟩
  · simp at herr
  · simp at herr
  · rw [firstFailure_append, Option.or_eq_none_iff] at hc
    exact ⟨hc.1, hb⟩

theorem cfgBpp_congr {s u : State} (h : u.cfg = s.cfg) : cfgBpp u = cfgBpp s := by rw [cfgBpp, cfgBpp, h]

theorem pixelCount_congr {s u : State} (h : u.dim = s.dim) : pixelCount u = pixelCount s := by
  rw [pixelCount, pixelCount, dimWidth, dimWidth, dimHeight, dimHeight, h]

/-- A byte of memory from its number. -/
theorem readByte_eq_of_memRead8_eq {s t : State} {a c : Nat} (h : memRead8 t a = memRead8 s c) :
    readByte t a = readByte s c := BitVec.eq_of_toNat_eq h

/-- Decoding the planes that PIX_ENC_PLANAR wrote gives back its grid. -/
theorem planar_encode_then_decode {s u : State} (hmem : u.mem = (written (pixEncPlanar Config.params s) s).mem)
    (hcfg : u.cfg = s.cfg) (hdim : u.dim = s.dim) (hsrc : u.src = s.dst) (hb : cfgBpp s ≤ 8) {g i : Nat}
    (hg : g < pixelCount s / 16) (hi : i < 16) (hlt : srcIndex s (16 * g + i) < 2 ^ cfgBpp s) :
    memRead8 (written (pixDecPlanar u) u) (u.dst.toNat + (16 * g + i)) = srcIndex s (16 * g + i) := by
  have hbpp := cfgBpp_congr hcfg
  have hplane : ∀ j < cfgBpp s, srcPlane u g j = planeWord (srcIndex s) g j := fun j hj => by
    rw [srcPlane, memRead_congr hmem, hsrc, hbpp, memRead_written_pixEncPlanar hg hj]
  rw [memRead8_written_pixDecPlanar (hbpp ▸ hb) (pixelCount_congr hdim ▸ hg) hi, hbpp]
  exact pixelOfPlanes_planeWord hi hlt hplane

/-- Encoding the grid that PIX_DEC_PLANAR wrote gives back its planes, byte by byte. -/
theorem planar_decode_then_encode {s u : State} (hmem : u.mem = (written (pixDecPlanar s) s).mem)
    (hcfg : u.cfg = s.cfg) (hdim : u.dim = s.dim) (hsrc : u.src = s.dst) (hb : cfgBpp s ≤ 8) {g j k : Nat}
    (hg : g < pixelCount s / 16) (hj : j < cfgBpp s) (hk : k < 2) :
    memRead8 (written (pixEncPlanar Config.params u) u) (u.dst.toNat + (2 * (g * cfgBpp s + j) + k)) =
      memRead8 s (s.src.toNat + (2 * (g * cfgBpp s + j) + k)) := by
  have hbpp := cfgBpp_congr hcfg
  have hpixel : ∀ i < 16, srcIndex u (16 * g + i) = pixelOfPlanes (cfgBpp s) (srcPlane s g) i := fun i hi => by
    rw [srcIndex, memRead8, readByte_congr hmem, hsrc]
    exact memRead8_written_pixDecPlanar hb hg hi
  have hword : (pixEncPlanar Config.params u).item (g * cfgBpp s + j) = srcPlane s g j := by
    rw [← hbpp, pixEncPlanar_item u g (hbpp ▸ hj)]
    exact planeWord_pixelOfPlanes hj (srcPlane_lt s g j) hpixel
  have hcount : g * cfgBpp s + j < (pixEncPlanar Config.params u).count := by
    show _ < pixelCount u / 16 * cfgBpp u
    rw [pixelCount_congr hdim, hbpp]
    exact plane_lt_count hg hj
  rw [← Nat.add_assoc, ← Nat.add_assoc]
  refine (memRead8_written (tr := pixEncPlanar Config.params u) u hcount hk).trans ?_
  rw [hword]
  exact memRead_byte s _ hk

/-- Every byte of the planes lies in a plane word of a run. -/
theorem exists_plane_byte {n b a : Nat} (hn : n % 16 = 0) (ha : a < n * b / 8) :
    ∃ g j k, g < n / 16 ∧ j < b ∧ k < 2 ∧ a = 2 * (g * b + j) + k := by
  obtain ⟨m, rfl⟩ := Nat.dvd_of_mod_eq_zero hn
  rw [Nat.mul_assoc] at ha
  have hword : a / 2 < m * b := by omega
  have hb : 0 < b := Nat.pos_of_ne_zero fun h0 => by simp [h0] at hword
  refine ⟨a / 2 / b, a / 2 % b, a % 2, ?_, Nat.mod_lt _ hb, Nat.mod_lt _ (by decide), ?_⟩
  · rw [Nat.mul_div_cancel_left m (by decide)]
    exact (Nat.div_lt_iff_lt_mul hb).2 hword
  · rw [Nat.div_add_mod', Nat.div_add_mod]

/-- Settles O44: both commands have passed their checks, so each ends in `written`, and the second one reads what the first one
wrote. -/
theorem planarRoundTrip : Obligations.PlanarRoundTrip := by
  intro s t u v hmem hcfg hdim hsrc herr herr'
  refine ⟨fun ht hv p hp => ?_, fun ht hv a ha => ?_⟩
  · obtain ⟨hc, hbad⟩ := checks_of_exec_next (i := .pixEncPlanar) rfl ht herr
    obtain ⟨hb, hw⟩ := (planarChecks_pass_iff s).1 hc
    obtain ⟨m, hm⟩ := pixelCount_runs hw
    obtain rfl := written_of_exec_next (i := .pixEncPlanar) rfl ht herr
    obtain rfl := written_of_exec_next (i := .pixDecPlanar) rfl hv herr'
    have hlt : srcIndex s p < 2 ^ cfgBpp s := (firstBadIndex_eq_none_iff s _ _).1 hbad p hp
    refine ⟨readByte_eq_of_memRead8_eq ?_, hlt⟩
    rw [← Nat.div_add_mod p 16] at hlt ⊢
    exact planar_encode_then_decode hmem hcfg hdim hsrc (indexDepth_bounds hb).2.2 (by omega) (Nat.mod_lt _ (by decide)) hlt
  · obtain ⟨hb, hw⟩ := (planarChecks_pass_iff s).1 (checks_of_exec_next (i := .pixDecPlanar) rfl ht herr).1
    obtain ⟨m, hm⟩ := pixelCount_runs hw
    obtain rfl := written_of_exec_next (i := .pixDecPlanar) rfl ht herr
    obtain rfl := written_of_exec_next (i := .pixEncPlanar) rfl hv herr'
    obtain ⟨g, j, k, hg, hj, hk, rfl⟩ := exists_plane_byte (by omega) ha
    exact readByte_eq_of_memRead8_eq (planar_decode_then_encode hmem hcfg hdim hsrc (indexDepth_bounds hb).2.2 hg hj hk)

/-! ### The data error (R117) -/

/-- A transform command with a legal configuration, usable buffers and an offending pixel reports the pixel, and leaves
unspecified no byte but those of its output range. -/
theorem exec_of_badPixel {i : Instr} {s : State} {tr : Transform} {n q : Nat} (h : transformOf i s = some tr)
    (hc : firstFailure tr.config = none) (hout : outLen tr = n) (hr : RangesUsable s tr.inLen n)
    (hb : tr.badPixel = some q) :
    ∃ t, exec i s = .next t ∧ Failed t 6 q ∧ SameRegisters s t ∧ SameOutside s t s.dst.toNat n := by
  subst hout
  refine ⟨_, (exec_eq_runTransform h).trans (runTransform_data_fails hc hr hb), failed_raise _ _,
    sameRegisters_raise_unspec _ s _ _, fun x hx => ?_⟩
  rw [readByte_raise, readByte_unspec_outside hx]

/-- With an aligned width PIX_ENC_PACKED writes one bit for each bit of its pixels. -/
theorem outLen_pixEncPacked_bytes {s : State} (hb : cfgBpp s ∈ [1, 2, 4]) (h : dimWidth s % 16 = 0) :
    outLen (pixEncPacked s) = pixelCount s * cfgBpp s / 8 :=
  (outLen_pixEncPacked hb h).trans (bitBytes_whole (pixelBits_whole h))

/-- The fixed checks pass at an index depth with one byte a chunk (R96, R97). -/
theorem fixedChecks_pass_indexed {s : State} (hb : IndexDepth (cfgBpp s)) (hk : cfgBpc s = 1) :
    firstFailure (fixedChecks s) = none := by
  have hpair : legalFixedPair (cfgBpp s) (sext8 (cfgBpc s)) = true := by
    rw [hk, legalFixedPair, if_pos (List.contains_iff_mem.2 hb)]
    rfl
  have hdepth : (depthCheck pixelDepths (cfgBpp s)).fails = false :=
    (depthCheck_passes_iff _ _).2 (indexDepth_bounds hb).1
  rw [fixedChecks, hpair, firstFailure_cons_passes hdepth]
  rfl

/-- At an index depth the spec's fixed commands check every index (R101, R102). -/
theorem fixedBadPixel_indexed {s : State} (hb : cfgBpp s ≤ 8) :
    fixedBadPixel Config.params s = firstBadIndex s (pixelCount s) (cfgBpp s) := if_pos ⟨hb, rfl⟩

theorem gridBytes_indexed {b : Nat} (hb : b ≤ 8) : gridBytes b = 1 := if_pos hb

theorem chunkBytes_indexed {b : Nat} (hb : b ≤ 8) : chunkBytes b = 1 := if_pos hb

/-- At an index depth both fixed commands read and write one byte a pixel and check every index. -/
theorem transformOf_fixed_indexed {i : Instr} {s : State} (hi : i = .pixEncFixed ∨ i = .pixDecFixed)
    (hb : cfgBpp s ≤ 8) :
    ∃ tr, transformOf i s = some tr ∧ tr.config = fixedChecks s ∧ tr.inLen = pixelCount s ∧
      outLen tr = pixelCount s ∧ tr.badPixel = firstBadIndex s (pixelCount s) (cfgBpp s) := by
  rcases hi with rfl | rfl
  · refine ⟨_, rfl, rfl, ?_, ?_, fixedBadPixel_indexed hb⟩
    · show gridBytes (cfgBpp s) * pixelCount s = _
      rw [gridBytes_indexed hb, Nat.one_mul]
    · show pixelCount s * chunkBytes (cfgBpp s) = _
      rw [chunkBytes_indexed hb, Nat.mul_one]
  · refine ⟨_, rfl, rfl, ?_, ?_, fixedBadPixel_indexed hb⟩
    · show chunkBytes (cfgBpp s) * pixelCount s = _
      rw [chunkBytes_indexed hb, Nat.one_mul]
    · show pixelCount s * gridBytes (cfgBpp s) = _
      rw [gridBytes_indexed hb, Nat.mul_one]

/-- Settles O49: each of the four commands looks for the first offending index once its checks have passed. -/
theorem indexOutOfRangeNamesTheFirstPixel : Obligations.IndexOutOfRangeNamesTheFirstPixel := by
  intro i s p n b out hcase hr hp hbad hmin
  have hfirst : firstBadIndex s n b = some p := (firstBadIndex_eq_some_iff s n b p).2 ⟨hp, hbad, hmin⟩
  rcases hcase with ⟨rfl, hb, hw⟩ | ⟨rfl, hb, hw⟩ | ⟨hi, hb, hk⟩
  · exact exec_of_badPixel (tr := pixEncPlanar Config.params s) rfl ((planarChecks_pass_iff s).2 ⟨hb, hw⟩)
      (outLen_pixEncPlanar_bytes hw) hr hfirst
  · exact exec_of_badPixel (tr := pixEncPacked s) rfl ((packedChecks_pass_iff s).2 ⟨hb, hw⟩)
      (outLen_pixEncPacked_bytes hb hw) hr hfirst
  · obtain ⟨tr, htr, hconfig, hin, hlen, hpixel⟩ := transformOf_fixed_indexed hi (indexDepth_bounds hb).2.2
    have hout : out = n := if_pos hi
    exact exec_of_badPixel htr (hconfig ▸ fixedChecks_pass_indexed hb hk) (hlen.trans hout.symm) (hin ▸ hr)
      (hpixel.trans hfirst)

end Sys2Proof.Machine
end

section
/-!
SUPPORT. The packed sub-byte codec: its checks (O45), what each of its commands writes (O46, O47), that each undoes the other, and
when packing meets a data error (O48).
-/

namespace Sys2Proof.Machine

/-! ### The checks of a packed command -/

/-- Check 2 of R92: only one, two and four bits share a byte. -/
def packedDepthCheck (s : State) : Check :=
  ⟨!([1, 2, 4].contains (cfgBpp s)), .configurationError, cfgBpp s⟩

theorem packedChecks_eq (s : State) :
    packedChecks s = [depthCheck pixelDepths (cfgBpp s), packedDepthCheck s, widthCheck s] := rfl

theorem packedDepthCheck_passes_iff (s : State) : (packedDepthCheck s).fails = false ↔ cfgBpp s ∈ [1, 2, 4] := by
  rw [packedDepthCheck, Bool.not_eq_false', List.contains_iff_mem]

/-- A packed depth is a pixel depth of at most four bits, and has at least one (R92). -/
theorem packedDepth_bounds {b : Nat} (h : b ∈ [1, 2, 4]) : PixelDepth b ∧ 1 ≤ b ∧ b ≤ 4 := by
  simp only [PixelDepth, List.mem_cons, List.not_mem_nil, or_false] at h ⊢
  omega

/-- Both packed commands are transforms that make the same checks. -/
theorem transformOf_packed {i : Instr} (s : State) (hi : i ∈ [.pixEncPacked, .pixDecPacked]) :
    ∃ tr, transformOf i s = some tr ∧ tr.config = packedChecks s := by
  simp only [List.mem_cons, List.not_mem_nil, or_false] at hi
  rcases hi with rfl | rfl
  · exact ⟨_, rfl, rfl⟩
  · exact ⟨_, rfl, rfl⟩

/-- Settles O45: the three checks one after the other, each with the condition under which it passes. -/
theorem packedChecksInOrder : Obligations.PackedChecksInOrder := by
  intro i s hi b
  obtain ⟨tr, htr, hconfig⟩ := transformOf_packed s hi
  rw [packedChecks_eq] at hconfig
  have hdepth : (depthCheck pixelDepths (cfgBpp s)).fails = false ↔ PixelDepth b := depthCheck_passes_iff _ _
  have hpacked := packedDepthCheck_passes_iff s
  refine ⟨fun h1 => ?_, fun h1 h2 => ?_, fun h12 h3 => ?_⟩
  · have hfail := Bool.of_not_eq_false (mt hdepth.1 h1)
    exact commandFails_config htr (hconfig ▸ firstFailure_cons_fails hfail)
  · have hfail := Bool.of_not_eq_false fun hpass => h2.not_ge (packedDepth_bounds (hpacked.1 hpass)).2.2
    refine commandFails_config htr (e := (packedDepthCheck s).error) ?_
    rw [hconfig, firstFailure_cons_passes (hdepth.2 h1), firstFailure_cons_fails hfail]
  · have hfail := Bool.of_not_eq_false (mt (widthCheck_passes_iff s).1 h3)
    refine commandFails_config htr (e := (widthCheck s).error) ?_
    rw [hconfig, firstFailure_cons_passes (hdepth.2 (packedDepth_bounds h12).1),
      firstFailure_cons_passes (hpacked.2 h12), firstFailure_cons_fails hfail]

/-! ### Pixels and chunks -/

/-- Pixel `m` of chunk `k` is a pixel of the grid, when the chunk is one of the `n·b/8` bytes of the grid. -/
theorem chunkPixel_lt {n b k m : Nat} (hb : b ∈ [1, 2, 4]) (hk : k < n * b / 8) (hm : m < 8 / b) :
    k * (8 / b) + m < n := by
  simp only [List.mem_cons, List.not_mem_nil, or_false] at hb
  rcases hb with rfl | rfl | rfl <;> omega

/-- Every pixel of a grid in whole runs of sixteen is a pixel of one of its chunks. -/
theorem exists_chunkPixel {n b p : Nat} (hb : b ∈ [1, 2, 4]) (hn : n % 16 = 0) (hp : p < n) :
    ∃ k m, k < n * b / 8 ∧ m < 8 / b ∧ p = k * (8 / b) + m := by
  have hk : p / (8 / b) < n * b / 8 := by
    simp only [List.mem_cons, List.not_mem_nil, or_false] at hb
    rcases hb with rfl | rfl | rfl <;> omega
  have hppc : 0 < 8 / b := Nat.div_pos ((packedDepth_bounds hb).2.2.trans (by decide)) (packedDepth_bounds hb).2.1
  exact ⟨p / (8 / b), p % (8 / b), hk, Nat.mod_lt _ hppc, (Nat.div_add_mod' p (8 / b)).symm⟩

/-- Every bit of a byte lies in one of its pixels. -/
theorem exists_chunkPixel_bit {b i : Nat} (hb : b ∈ [1, 2, 4]) (hi : i < 8) :
    ∃ m j, m < 8 / b ∧ j < b ∧ i = j + (8 - b * (m + 1)) := by
  refine ⟨(7 - i) / b, i % b, ?_⟩
  simp only [List.mem_cons, List.not_mem_nil, or_false] at hb
  rcases hb with rfl | rfl | rfl <;> omega

/-- Bytes with the same pixels are equal (R95). -/
theorem eq_of_chunkPixels {b x y : Nat} (hb : b ∈ [1, 2, 4]) (hx : x < 2 ^ 8) (hy : y < 2 ^ 8)
    (h : ∀ m < 8 / b, x / 2 ^ (8 - b * (m + 1)) % 2 ^ b = y / 2 ^ (8 - b * (m + 1)) % 2 ^ b) : x = y := by
  refine Nat.eq_of_testBit_eq fun i => ?_
  by_cases hi : i < 8
  · obtain ⟨m, j, hm, hj, rfl⟩ := exists_chunkPixel_bit hb hi
    simpa only [testBit_div_mod, hj, decide_true, Bool.true_and] using congrArg (Nat.testBit · j) (h m hm)
  · have hpow : 2 ^ 8 ≤ 2 ^ i := Nat.pow_le_pow_right (by decide) (Nat.not_lt.1 hi)
    rw [Nat.testBit_lt_two_pow (hx.trans_le hpow), Nat.testBit_lt_two_pow (hy.trans_le hpow)]

/-! ### What the packed commands write -/

/-- A byte that a transform of one-byte items wrote. -/
theorem memRead8_written_byte {tr : Transform} (s : State) (hwidth : tr.width = 1) {i : Nat} (hi : i < tr.count) :
    memRead8 (written tr s) (s.dst.toNat + i) = tr.item i % 256 := by
  simpa [hwidth] using memRead8_written s hi (hwidth ▸ Nat.one_pos : 0 < tr.width)

/-- A byte that PIX_ENC_PACKED wrote holds the pixels of its chunk (R93). -/
theorem memRead8_written_pixEncPacked {s : State} {k m : Nat} (hb : cfgBpp s ∈ [1, 2, 4]) (hw : dimWidth s % 16 = 0)
    (hidx : ∀ m < 8 / cfgBpp s, srcIndex s (k * (8 / cfgBpp s) + m) < 2 ^ cfgBpp s)
    (hk : k < pixelCount s * cfgBpp s / 8) (hm : m < 8 / cfgBpp s) :
    memRead8 (written (pixEncPacked s) s) (s.dst.toNat + k) / 2 ^ (8 - cfgBpp s * (m + 1)) % 2 ^ cfgBpp s =
      srcIndex s (k * (8 / cfgBpp s) + m) := by
  have hcount : k < (pixEncPacked s).count := by
    rwa [← Nat.mul_one (pixEncPacked s).count, show _ * 1 = _ from outLen_pixEncPacked_bytes hb hw]
  obtain ⟨hlt, hpixel⟩ := packedByte_eq _ (srcIndex s) k (by simpa using hb) hidx
  rw [memRead8_written_byte s rfl hcount, show (pixEncPacked s).item k = packedByte (cfgBpp s) (srcIndex s) k from rfl,
    Nat.mod_eq_of_lt hlt, hpixel m hm]

/-- Item `k·ppc + m` is pixel `m` of byte `k` (R94). -/
theorem pixDecPacked_item (s : State) (k : Nat) {m : Nat} (hm : m < 8 / cfgBpp s) :
    (pixDecPacked s).item (k * (8 / cfgBpp s) + m) =
      memRead8 s (s.src.toNat + k) / 2 ^ (8 - cfgBpp s * (m + 1)) % 2 ^ cfgBpp s := by
  rw [← packedPixel_eq]
  show packedPixel (cfgBpp s) (memRead8 s (s.src.toNat + (k * (8 / cfgBpp s) + m) / (8 / cfgBpp s)))
    ((k * (8 / cfgBpp s) + m) % (8 / cfgBpp s)) = _
  rw [Nat.mul_comm, Nat.mul_add_div (by omega), Nat.mul_add_mod, Nat.div_eq_of_lt hm, Nat.mod_eq_of_lt hm, Nat.add_zero]

/-- An index that PIX_DEC_PACKED wrote. -/
theorem memRead8_written_pixDecPacked {s : State} {k m : Nat} (hb : cfgBpp s ∈ [1, 2, 4])
    (hk : k < pixelCount s * cfgBpp s / 8) (hm : m < 8 / cfgBpp s) :
    memRead8 (written (pixDecPacked s) s) (s.dst.toNat + (k * (8 / cfgBpp s) + m)) =
      memRead8 s (s.src.toNat + k) / 2 ^ (8 - cfgBpp s * (m + 1)) % 2 ^ cfgBpp s := by
  have hpow : 2 ^ cfgBpp s ≤ 2 ^ 4 := Nat.pow_le_pow_right (by decide) (packedDepth_bounds hb).2.2
  have hlt := Nat.mod_lt (memRead8 s (s.src.toNat + k) / 2 ^ (8 - cfgBpp s * (m + 1))) (Nat.two_pow_pos (cfgBpp s))
  rw [memRead8_written_byte (tr := pixDecPacked s) s rfl (chunkPixel_lt hb hk hm), pixDecPacked_item s k hm]
  exact Nat.mod_eq_of_lt (by omega)

/-- Settles O46: each byte that the command writes packs the pixels of its chunk. -/
theorem pixEncPackedPacks : Obligations.PixEncPackedPacks := by
  intro s hb hw n b hr hidx
  have hempty : n = 0 → n * b / 8 < 2 ^ 32 := fun h0 => by simp [h0]
  refine commandWrites_of_outLen (tr := pixEncPacked s) rfl ((packedChecks_pass_iff s).2 ⟨hb, hw⟩)
    (outLen_pixEncPacked_bytes hb hw) hr ((firstBadIndex_eq_none_iff s _ _).2 hidx) hempty fun k m hk hm => ?_
  rw [memRead8_written_pixEncPacked hb hw (fun m hm => hidx _ (chunkPixel_lt hb hk hm)) hk hm, srcIndex, Nat.add_assoc]

/-- Settles O47: each index that the command writes is a pixel of its byte. -/
theorem pixDecPackedUnpacks : Obligations.PixDecPackedUnpacks := by
  intro s hb hw n b hr
  have hle : n ≤ n * b := Nat.le_mul_of_pos_right n (packedDepth_bounds hb).2.1
  have hempty : n * b / 8 = 0 → n < 2 ^ 32 := by omega
  refine commandWrites_of_outLen (tr := pixDecPacked s) rfl ((packedChecks_pass_iff s).2 ⟨hb, hw⟩) (Nat.mul_one _) hr rfl
    hempty fun k m hk hm => ?_
  rw [Nat.add_assoc, memRead8_written_pixDecPacked hb hk hm]

/-! ### Round trips and the data error of packing (R95) -/

/-- The second command of a chain reads at its SRC what the first one wrote at its DST. -/
theorem srcIndex_written {s u : State} {tr : Transform} (hmem : u.mem = (written tr s).mem) (hsrc : u.src = s.dst)
    (p : Nat) : srcIndex u p = memRead8 (written tr s) (s.dst.toNat + p) := by
  rw [srcIndex, memRead8, readByte_congr hmem, hsrc, memRead8]

/-- Unpacking the bytes that PIX_ENC_PACKED wrote gives back its grid. -/
theorem packed_encode_then_decode {s u : State} (hmem : u.mem = (written (pixEncPacked s) s).mem)
    (hcfg : u.cfg = s.cfg) (hdim : u.dim = s.dim) (hsrc : u.src = s.dst) (hb : cfgBpp s ∈ [1, 2, 4])
    (hw : dimWidth s % 16 = 0) (hidx : ∀ p < pixelCount s, srcIndex s p < 2 ^ cfgBpp s) {k m : Nat}
    (hk : k < pixelCount s * cfgBpp s / 8) (hm : m < 8 / cfgBpp s) :
    memRead8 (written (pixDecPacked u) u) (u.dst.toNat + (k * (8 / cfgBpp s) + m)) =
      srcIndex s (k * (8 / cfgBpp s) + m) := by
  rw [← memRead8_written_pixEncPacked hb hw (fun m hm => hidx _ (chunkPixel_lt hb hk hm)) hk hm,
    ← srcIndex_written hmem hsrc, srcIndex]
  rw [← cfgBpp_congr hcfg] at hb hk hm ⊢
  rw [← pixelCount_congr hdim] at hk
  exact memRead8_written_pixDecPacked hb hk hm

/-- Packing the grid that PIX_DEC_PACKED wrote gives back its bytes. -/
theorem packed_decode_then_encode {s u : State} (hmem : u.mem = (written (pixDecPacked s) s).mem)
    (hcfg : u.cfg = s.cfg) (hdim : u.dim = s.dim) (hsrc : u.src = s.dst) (hb : cfgBpp s ∈ [1, 2, 4])
    (hw : dimWidth u % 16 = 0) {k : Nat} (hk : k < pixelCount s * cfgBpp s / 8) :
    memRead8 (written (pixEncPacked u) u) (u.dst.toNat + k) = memRead8 s (s.src.toNat + k) := by
  have hpixel : ∀ m < 8 / cfgBpp s, srcIndex u (k * (8 / cfgBpp s) + m) =
      memRead8 s (s.src.toNat + k) / 2 ^ (8 - cfgBpp s * (m + 1)) % 2 ^ cfgBpp s := fun m hm =>
    (srcIndex_written hmem hsrc _).trans (memRead8_written_pixDecPacked hb hk hm)
  refine eq_of_chunkPixels hb (memRead8_lt _ _) (memRead8_lt _ _) fun m hm => ?_
  rw [← hpixel m hm]
  have hidx : ∀ m < 8 / cfgBpp s, srcIndex u (k * (8 / cfgBpp s) + m) < 2 ^ cfgBpp s := fun m hm => by
    rw [hpixel m hm]
    exact Nat.mod_lt _ (Nat.two_pow_pos _)
  rw [← cfgBpp_congr hcfg] at hb hk hm hidx ⊢
  rw [← pixelCount_congr hdim] at hk
  exact memRead8_written_pixEncPacked hb hw hidx hk hm

/-- A transform command that answers a state, its checks passed, has had usable buffers: R41 refuses any other. -/
theorem rangesUsable_of_runTransform_next {tr : Transform} {s t : State}
    (hc : firstFailure (tr.config ++ lengthChecks Config.params s tr.inLen (outLen tr)) = none)
    (ht : runTransform Config.params tr s = .next t) : RangesUsable s tr.inLen (outLen tr) := by
  have hplain : ¬(touchesWindow s s.src.toNat tr.inLen = true ∨ touchesWindow s s.dst.toNat (outLen tr) = true) := by
    intro hwindow
    rw [runTransform_refused hc hwindow] at ht
    cases ht
  rw [firstFailure_append, Option.or_eq_none_iff] at hc
  obtain ⟨henough, hsrcTop, hdstTop, hapart⟩ := (lengthChecks_pass_iff _ _ _).1 hc.2
  exact ⟨henough, hsrcTop, hdstTop, hapart, Bool.of_not_eq_true fun h => hplain (.inl h),
    Bool.of_not_eq_true fun h => hplain (.inr h)⟩

theorem errorCode_eq_six_iff (e : ErrorKind) : errorCode e = 6 ↔ e = .indexOutOfRange := by cases e <;> decide

/-- A transform command ends in IndexOutOfRange exactly when it has an offending pixel and nothing else stops it (R118). -/
theorem exec_indexOutOfRange_iff {i : Instr} {s : State} {tr : Transform} (h : transformOf i s = some tr) :
    (∃ t, exec i s = .next t ∧ err t = true ∧ errCode t = 6) ↔
      firstFailure tr.config = none ∧ RangesUsable s tr.inLen (outLen tr) ∧ tr.badPixel ≠ none := by
  rw [exec_eq_runTransform h]
  constructor
  · rintro ⟨t, ht, herr, hcode⟩
    rcases runTransform_next ht with ⟨e, he, rfl⟩ | ⟨q, hc, hq, rfl⟩ | ⟨-, -, rfl⟩
    · rw [errCode_raise, errorCode_eq_six_iff] at hcode
      exact absurd hcode (check_kinds h he)
    · refine ⟨?_, rangesUsable_of_runTransform_next hc ht, by simp [hq]⟩
      rw [firstFailure_append, Option.or_eq_none_iff] at hc
      exact hc.1
    · simp at herr
  · rintro ⟨hc, hr, hbad⟩
    obtain ⟨q, hq⟩ := Option.ne_none_iff_exists'.1 hbad
    exact ⟨_, runTransform_data_fails hc hr hq, err_raise _ _, errCode_raise _ _⟩

theorem firstBadIndex_ne_none_iff (s : State) (n b : Nat) :
    firstBadIndex s n b ≠ none ↔ ∃ p, p < n ∧ 2 ^ b ≤ srcIndex s p := by
  simp [firstBadIndex_eq_none_iff]

/-- PIX_ENC_PACKED ends in IndexOutOfRange exactly when some index has a bit above its pixel and no earlier check fails (R95). -/
theorem pixEncPacked_indexOutOfRange_iff (s : State) :
    (∃ t, exec .pixEncPacked s = .next t ∧ err t = true ∧ errCode t = 6) ↔
      cfgBpp s ∈ [1, 2, 4] ∧ dimWidth s % 16 = 0 ∧ RangesUsable s (pixelCount s) (pixelCount s * cfgBpp s / 8) ∧
        ∃ p, p < pixelCount s ∧ 2 ^ cfgBpp s ≤ memRead8 s (s.src.toNat + p) := by
  have hdata : (pixEncPacked s).badPixel ≠ none ↔
      ∃ p, p < pixelCount s ∧ 2 ^ cfgBpp s ≤ memRead8 s (s.src.toNat + p) := firstBadIndex_ne_none_iff s _ _
  have hconfig : firstFailure (pixEncPacked s).config = none ↔ cfgBpp s ∈ [1, 2, 4] ∧ dimWidth s % 16 = 0 :=
    packedChecks_pass_iff s
  have hin : (pixEncPacked s).inLen = pixelCount s := rfl
  rw [exec_indexOutOfRange_iff (tr := pixEncPacked s) rfl, hdata, hconfig, hin, and_assoc]
  refine and_congr_right fun hb => and_congr_right fun hw => ?_
  rw [outLen_pixEncPacked_bytes hb hw]

/-- Settles O48: in a round trip both commands have passed their checks, so each ends in `written`, and the second one reads what
the first one wrote. -/
theorem packedRoundTrip : Obligations.PackedRoundTrip := by
  refine ⟨fun s t u v hmem hcfg hdim hsrc herr herr' => ⟨fun ht hv p hp => ?_, fun ht hv a ha => ?_⟩,
    pixEncPacked_indexOutOfRange_iff⟩
  · obtain ⟨hc, hbad⟩ := checks_of_exec_next (i := .pixEncPacked) rfl ht herr
    obtain ⟨hb, hw⟩ := (packedChecks_pass_iff s).1 hc
    obtain ⟨r, hr⟩ := pixelCount_runs hw
    obtain rfl := written_of_exec_next (i := .pixEncPacked) rfl ht herr
    obtain rfl := written_of_exec_next (i := .pixDecPacked) rfl hv herr'
    obtain ⟨k, m, hk, hm, rfl⟩ := exists_chunkPixel hb (by omega) hp
    have hidx := (firstBadIndex_eq_none_iff s _ _).1 hbad
    exact readByte_eq_of_memRead8_eq (packed_encode_then_decode hmem hcfg hdim hsrc hb hw hidx hk hm)
  · obtain ⟨hb, -⟩ := (packedChecks_pass_iff s).1 (checks_of_exec_next (i := .pixDecPacked) rfl ht herr).1
    obtain ⟨-, hw⟩ := (packedChecks_pass_iff u).1 (checks_of_exec_next (i := .pixEncPacked) rfl hv herr').1
    obtain rfl := written_of_exec_next (i := .pixDecPacked) rfl ht herr
    obtain rfl := written_of_exec_next (i := .pixEncPacked) rfl hv herr'
    exact readByte_eq_of_memRead8_eq (packed_decode_then_encode hmem hcfg hdim hsrc hb hw ha)

end Sys2Proof.Machine
end

section
/-!
SUPPORT. The fixed-chunky packer: its checks (O50), the copy of an indexed grid (O51), what each of its commands writes at a
truecolor depth (O52, O53), and that encoding undoes decoding (O54).
-/

namespace Sys2Proof.Machine

/-! ### The checks of a fixed command -/

/-- The legal pairs of R96, of BPP and the raw BPC byte. -/
abbrev FixedPair (b k : Nat) : Prop :=
  (IndexDepth b ∧ k = 1) ∨ (b = 16 ∧ k = 2) ∨ (b = 24 ∧ k = 3) ∨ (b = 32 ∧ k = 4)

/-- Check 2 of R97: BPP and BPC are a legal pair. -/
def fixedPairCheck (s : State) : Check :=
  ⟨!legalFixedPair (cfgBpp s) (sext8 (cfgBpc s)), .configurationError, (cfgBpc s <<< 8) ||| cfgBpp s⟩

theorem fixedChecks_eq (s : State) : fixedChecks s = [depthCheck pixelDepths (cfgBpp s), fixedPairCheck s] := rfl

/-- The pair is looked up with BPC as a signed number, but every legal BPC is its own raw byte. -/
theorem legalFixedPair_sext8_iff (b : Nat) {k : Nat} (hk : k < 256) :
    legalFixedPair b (sext8 k) = true ↔ FixedPair b k := by
  have hindexed : [1, 2, 4, 6, 8].contains b = true ↔ IndexDepth b := List.contains_iff_mem
  unfold legalFixedPair sext8
  simp only [Bool.ite_eq_true_distrib, decide_eq_true_eq, Bool.false_eq_true, if_false_right, hindexed, FixedPair,
    IndexDepth, List.mem_cons, List.not_mem_nil, or_false]
  split_ifs <;> omega

theorem fixedPairCheck_passes_iff (s : State) :
    (fixedPairCheck s).fails = false ↔ FixedPair (cfgBpp s) (cfgBpc s) := by
  rw [fixedPairCheck, Bool.not_eq_false', legalFixedPair_sext8_iff _ (cfgBpc_lt s)]

theorem fixedPairCheck_info (s : State) : (fixedPairCheck s).error.info = cfgBpc s * 256 + cfgBpp s := by
  rw [fixedPairCheck, ← Nat.shiftLeft_add_eq_or_of_lt (cfgBpp_lt s), Nat.shiftLeft_eq]

theorem pixelDepth_of_fixedPair {b k : Nat} (h : FixedPair b k) : PixelDepth b := by
  simp only [FixedPair, IndexDepth, PixelDepth, List.mem_cons, List.not_mem_nil, or_false] at h ⊢
  omega

/-- The fixed checks pass exactly at a legal pair (R97). -/
theorem fixedChecks_pass_iff (s : State) :
    firstFailure (fixedChecks s) = none ↔ FixedPair (cfgBpp s) (cfgBpc s) := by
  rw [fixedChecks_eq, firstFailure_cons_eq_none_iff, firstFailure_cons_eq_none_iff, depthCheck_passes_iff,
    fixedPairCheck_passes_iff, and_iff_left firstFailure_nil]
  exact and_iff_right_of_imp pixelDepth_of_fixedPair

/-- Both fixed commands are transforms that make the same checks. -/
theorem transformOf_fixed {i : Instr} (s : State) (hi : i ∈ [.pixEncFixed, .pixDecFixed]) :
    ∃ tr, transformOf i s = some tr ∧ tr.config = fixedChecks s := by
  simp only [List.mem_cons, List.not_mem_nil, or_false] at hi
  rcases hi with rfl | rfl
  · exact ⟨_, rfl, rfl⟩
  · exact ⟨_, rfl, rfl⟩

/-- Settles O50: the two checks one after the other, each with the condition under which it passes. -/
theorem fixedChecksInOrder : Obligations.FixedChecksInOrder := by
  intro i s hi b k pairOk
  obtain ⟨tr, htr, hconfig⟩ := transformOf_fixed s hi
  rw [fixedChecks_eq] at hconfig
  have hdepth : (depthCheck pixelDepths (cfgBpp s)).fails = false ↔ PixelDepth b := depthCheck_passes_iff _ _
  have hpair : (fixedPairCheck s).fails = false ↔ pairOk := fixedPairCheck_passes_iff s
  refine ⟨fun h1 => ?_, fun h1 h2 => ?_⟩
  · have hfail := Bool.of_not_eq_false (mt hdepth.1 h1)
    exact commandFails_config htr (hconfig ▸ firstFailure_cons_fails hfail)
  · have hfail := Bool.of_not_eq_false (mt hpair.1 h2)
    show CommandFails i s 1 (cfgBpc s * 256 + cfgBpp s)
    rw [← fixedPairCheck_info]
    refine commandFails_config htr (e := (fixedPairCheck s).error) ?_
    rw [hconfig, firstFailure_cons_passes (hdepth.2 h1), firstFailure_cons_fails hfail]

/-! ### Indexed grids -/

/-- At an index depth both fixed commands write the index of each pixel as one byte. -/
theorem items_fixed_indexed {i : Instr} {s : State} {tr : Transform} (h : transformOf i s = some tr)
    (hi : i ∈ [.pixEncFixed, .pixDecFixed]) (hb : cfgBpp s ≤ 8) :
    tr.width = 1 ∧ tr.count = pixelCount s ∧ ∀ p, tr.item p = srcIndex s p := by
  simp only [List.mem_cons, List.not_mem_nil, or_false] at hi
  rcases hi with rfl | rfl <;> cases h
  · exact ⟨chunkBytes_indexed hb, rfl, fun p => if_pos hb⟩
  · exact ⟨gridBytes_indexed hb, rfl, fun p => if_pos hb⟩

/-- Settles O51: with every index in range each command ends in `written`, whose items are the indices. -/
theorem fixedIndexedCopies : Obligations.FixedIndexedCopies := by
  intro i s hi hb hk hr hidx
  have hb8 := (indexDepth_bounds hb).2.2
  obtain ⟨tr, htr, hconfig, hin, hout, hbad⟩ := transformOf_fixed_indexed (by simpa using hi) hb8
  obtain ⟨hwidth, hcount, hitem⟩ := items_fixed_indexed htr hi hb8
  have hempty : tr.inLen = 0 → pixelCount s < 2 ^ 32 := by omega
  refine commandWrites_of_outLen htr (hconfig ▸ fixedChecks_pass_indexed hb hk) hout (hin ▸ hr)
    (hbad.trans ((firstBadIndex_eq_none_iff s _ _).2 hidx)) hempty fun p hp => readByte_eq_of_memRead8_eq ?_
  rw [memRead8_written_byte s hwidth (hcount ▸ hp), hitem]
  exact Nat.mod_eq_of_lt (memRead8_lt s _)

/-! ### Truecolor grids -/

/-- With a legal truecolor configuration the checks pass, a pixel has four bytes in its grid and `k` in its chunk, and there is
no data check (R96, R97, R101). -/
theorem fixed_truecolor {s : State} {k : Nat} (hb : cfgBpp s = 8 * k) (hk : cfgBpc s = k) (hk24 : 2 ≤ k ∧ k ≤ 4) :
    firstFailure (fixedChecks s) = none ∧ gridBytes (cfgBpp s) = 4 ∧ chunkBytes (cfgBpp s) = k ∧
      fixedBadPixel Config.params s = none := by
  obtain ⟨h2, h4⟩ := hk24
  have hpair : FixedPair (cfgBpp s) (cfgBpc s) := .inr (by omega)
  exact ⟨(fixedChecks_pass_iff s).2 hpair, hb ▸ gridBytes_wide h2, hb ▸ chunkBytes_wide h2,
    if_neg fun h => absurd h.1 (by omega)⟩

/-- PIX_ENC_FIXED with a legal truecolor configuration and usable buffers ends in `written`. -/
theorem commandWrites_pixEncFixed {s : State} {k : Nat} {post : State → Prop} (hb : cfgBpp s = 8 * k)
    (hk : cfgBpc s = k) (hk24 : 2 ≤ k ∧ k ≤ 4) (hr : RangesUsable s (4 * pixelCount s) (k * pixelCount s))
    (hp : post (written (pixEncFixed Config.params s) s)) : CommandWrites .pixEncFixed s (k * pixelCount s) post := by
  obtain ⟨hc, hgrid, hchunk, hbad⟩ := fixed_truecolor hb hk hk24
  have hin : (pixEncFixed Config.params s).inLen = 4 * pixelCount s := congrArg (· * pixelCount s) hgrid
  have hout : outLen (pixEncFixed Config.params s) = k * pixelCount s :=
    (congrArg (pixelCount s * ·) hchunk).trans (Nat.mul_comm _ _)
  refine commandWrites_of_outLen rfl hc hout (hin ▸ hr) hbad (fun h0 => ?_) hp
  rw [show pixelCount s = 0 by omega]
  exact Nat.two_pow_pos 32

/-- PIX_DEC_FIXED with a legal truecolor configuration and usable buffers ends in `written`. -/
theorem commandWrites_pixDecFixed {s : State} {k : Nat} {post : State → Prop} (hb : cfgBpp s = 8 * k)
    (hk : cfgBpc s = k) (hk24 : 2 ≤ k ∧ k ≤ 4) (hr : RangesUsable s (k * pixelCount s) (4 * pixelCount s))
    (hp : post (written (pixDecFixed Config.params s) s)) : CommandWrites .pixDecFixed s (4 * pixelCount s) post := by
  obtain ⟨hc, hgrid, hchunk, hbad⟩ := fixed_truecolor hb hk hk24
  have hin : (pixDecFixed Config.params s).inLen = k * pixelCount s := congrArg (· * pixelCount s) hchunk
  have hout : outLen (pixDecFixed Config.params s) = 4 * pixelCount s :=
    (congrArg (pixelCount s * ·) hgrid).trans (Nat.mul_comm _ _)
  refine commandWrites_of_outLen rfl hc hout (hin ▸ hr) hbad (fun h0 => ?_) hp
  have hle : pixelCount s ≤ k * pixelCount s := Nat.le_mul_of_pos_left _ (by omega)
  omega

/-! ### The chunks as numbers -/

/-- With the spec's parameters a channel is reduced to its top bits (R98, D17). -/
theorem reduce565_eq (k c : Nat) : reduce565 Config.params k c = c / 2 ^ (8 - k) := Nat.shiftRight_eq_div_pow _ _

theorem rgb565Word_eq {r g b : Nat} (hg : g < 256) (hb : b < 256) :
    rgb565Word Config.params r g b = 2048 * (r / 8) + 32 * (g / 4) + b / 8 := by
  have hupper : (r / 8) <<< 11 ||| (g / 4) <<< 5 = (64 * (r / 8) + g / 4) <<< 5 := by
    rw [← Nat.shiftLeft_add_eq_or_of_lt (by rw [Nat.shiftLeft_eq]; omega)]
    simp only [Nat.shiftLeft_eq]
    omega
  rw [rgb565Word, reduce565_eq, reduce565_eq, reduce565_eq]
  show (r / 8) <<< 11 ||| (g / 4) <<< 5 ||| b / 8 = _
  rw [hupper, ← Nat.shiftLeft_add_eq_or_of_lt (by omega), Nat.shiftLeft_eq]
  omega

theorem srcSample_lt (s : State) (q c : Nat) : srcSample s q c < 256 := memRead8_lt s _

theorem fixedChunk_16 {s : State} (hb : cfgBpp s = 16) (q : Nat) :
    fixedChunk Config.params s q =
      2048 * (srcSample s q 0 / 8) + 32 * (srcSample s q 1 / 4) + srcSample s q 2 / 8 := by
  rw [← rgb565Word_eq (srcSample_lt s q 1) (srcSample_lt s q 2)]
  simp only [fixedChunk, hb]
  rfl

theorem fixedChunk_24 {s : State} (hb : cfgBpp s = 24) (q : Nat) :
    fixedChunk Config.params s q = 65536 * srcSample s q 0 + 256 * srcSample s q 1 + srcSample s q 2 := by
  refine Eq.trans ?_ (rgbItem_eq (out := fun c => srcSample s q (channelIndex c)) (srcSample_lt s q 1) (srcSample_lt s q 2))
  simp only [fixedChunk, hb]
  rfl

/-- The alpha byte of a 32-bit chunk: the sample's own, or opaque where the samples carry none (R99). -/
def chunkAlpha (s : State) (q : Nat) : Nat := if cfgSrcAlpha s = 1 then srcSample s q 3 else 255

theorem chunkAlpha_lt (s : State) (q : Nat) : chunkAlpha s q < 256 := by
  unfold chunkAlpha
  split
  · exact srcSample_lt s q 3
  · decide

theorem fixedChunk_32 {s : State} (hb : cfgBpp s = 32) (q : Nat) :
    fixedChunk Config.params s q =
      16777216 * chunkAlpha s q + 65536 * srcSample s q 0 + 256 * srcSample s q 1 + srcSample s q 2 := by
  rw [← rgbaItem_eq (srcSample_lt s q 0) (srcSample_lt s q 1) (srcSample_lt s q 2)]
  simp only [fixedChunk, hb]
  rfl

/-- A byte of a chunk that PIX_ENC_FIXED wrote. -/
theorem memRead8_written_pixEncFixed {s : State} {k q j : Nat} (hchunk : chunkBytes (cfgBpp s) = k)
    (hq : q < pixelCount s) (hj : j < k) :
    memRead8 (written (pixEncFixed Config.params s) s) (s.dst.toNat + k * q + j) =
      fixedChunk Config.params s q / 256 ^ (k - 1 - j) % 256 := by
  subst hchunk
  exact memRead8_written (tr := pixEncFixed Config.params s) s hq hj

/-- A 16-bit chunk that PIX_ENC_FIXED wrote is an RGB565 word. -/
theorem memRead_written_pixEncFixed_16 {s : State} {q : Nat} (hb : cfgBpp s = 16) (hq : q < pixelCount s) :
    memRead (written (pixEncFixed Config.params s) s) (s.dst.toNat + 2 * q) 2 =
      2048 * (srcSample s q 0 / 8) + 32 * (srcSample s q 1 / 4) + srcSample s q 2 / 8 := by
  have hr := srcSample_lt s q 0
  have hg := srcSample_lt s q 1
  have hblue := srcSample_lt s q 2
  have hwidth : (pixEncFixed Config.params s).width = 2 := by
    show chunkBytes (cfgBpp s) = 2
    rw [hb]
    rfl
  have hword := memRead_written (tr := pixEncFixed Config.params s) s hq
  rw [hwidth, show (pixEncFixed Config.params s).item q = _ from fixedChunk_16 hb q] at hword
  exact hword.trans (Nat.mod_eq_of_lt (by omega))

/-- The bytes of a 24-bit chunk that PIX_ENC_FIXED wrote are R, G and B (R101). -/
theorem memRead8_written_pixEncFixed_24 {s : State} {q c : Nat} (hb : cfgBpp s = 24) (hq : q < pixelCount s) (hc : c < 3) :
    memRead8 (written (pixEncFixed Config.params s) s) (s.dst.toNat + 3 * q + c) = srcSample s q c := by
  have hr := srcSample_lt s q 0
  have hg := srcSample_lt s q 1
  have hblue := srcSample_lt s q 2
  rw [memRead8_written_pixEncFixed (hb ▸ rfl) hq hc, fixedChunk_24 hb]
  interval_cases c <;> omega

/-- The bytes of a 32-bit chunk that PIX_ENC_FIXED wrote are A, R, G and B (R101). -/
theorem memRead8_written_pixEncFixed_32 {s : State} {q : Nat} (hb : cfgBpp s = 32) (hq : q < pixelCount s) :
    memRead8 (written (pixEncFixed Config.params s) s) (s.dst.toNat + 4 * q) = chunkAlpha s q ∧
      ∀ c < 3, memRead8 (written (pixEncFixed Config.params s) s) (s.dst.toNat + 4 * q + 1 + c) = srcSample s q c := by
  have ha := chunkAlpha_lt s q
  have hr := srcSample_lt s q 0
  have hg := srcSample_lt s q 1
  have hblue := srcSample_lt s q 2
  have hbyte {j : Nat} (hj : j < 4) := memRead8_written_pixEncFixed (k := 4) (hb ▸ rfl) hq hj
  rw [fixedChunk_32 hb] at hbyte
  refine ⟨(hbyte (j := 0) (by decide)).trans (by omega), fun c hc => ?_⟩
  rw [Nat.add_assoc, hbyte (by omega)]
  interval_cases c <;> omega

/-- Settles O52: each chunk that the command writes, as a word at 16 bits and byte by byte at 24 and 32. -/
theorem pixEncFixedTruecolor : Obligations.PixEncFixedTruecolor := fun _ =>
  ⟨fun hb hk hr => commandWrites_pixEncFixed hb hk (by decide) hr fun _ hp => memRead_written_pixEncFixed_16 hb hp,
    fun hb hk hr => commandWrites_pixEncFixed hb hk (by decide) hr fun _ _ hp hc => memRead8_written_pixEncFixed_24 hb hp hc,
    fun hb hk hr => commandWrites_pixEncFixed hb hk (by decide) hr fun _ hp => memRead8_written_pixEncFixed_32 hb hp⟩

/-! ### The samples of a decoded grid -/

theorem memRead_two (s : State) (a : Nat) : memRead s a 2 = 256 * memRead8 s a + memRead8 s (a + 1) := by
  simp only [memRead, Nat.add_zero]
  omega

/-- The samples of a pixel that PIX_DEC_FIXED wrote are the bytes of its item, R first (R102). -/
theorem memRead8_written_pixDecFixed {s : State} {q r g b a : Nat} (hbpp : gridBytes (cfgBpp s) = 4)
    (hq : q < pixelCount s) (hitem : fixedPixel s q = rgbaItem r g b a) (hr : r < 256) (hg : g < 256) (hb : b < 256)
    (ha : a < 256) :
    memRead8 (written (pixDecFixed Config.params s) s) (s.dst.toNat + 4 * q) = r ∧
      memRead8 (written (pixDecFixed Config.params s) s) (s.dst.toNat + 4 * q + 1) = g ∧
      memRead8 (written (pixDecFixed Config.params s) s) (s.dst.toNat + 4 * q + 2) = b ∧
      memRead8 (written (pixDecFixed Config.params s) s) (s.dst.toNat + 4 * q + 3) = a := by
  have hwidth : (pixDecFixed Config.params s).width = 4 := hbpp
  have hbyte {c : Nat} (hc : c < 4) :=
    memRead8_written (tr := pixDecFixed Config.params s) s hq (hwidth ▸ hc : c < (pixDecFixed Config.params s).width)
  rw [hwidth, show (pixDecFixed Config.params s).item q = _ from hitem, rgbaItem_eq hg hb ha] at hbyte
  exact ⟨(hbyte (c := 0) (by decide)).trans (by omega), (hbyte (c := 1) (by decide)).trans (by omega),
    (hbyte (c := 2) (by decide)).trans (by omega), (hbyte (c := 3) (by decide)).trans (by omega)⟩

/-- At 16 bits the fields of the chunk are upscaled, and the sample is opaque (R100). -/
theorem fixedPixel_16 {s : State} (hb : cfgBpp s = 16) {q w : Nat} (hw : memRead s (s.src.toNat + 2 * q) 2 = w) :
    fixedPixel s q = rgbaItem (upscale 5 (w / 2048)) (upscale 6 (w / 32 % 64)) (upscale 5 (w % 32)) 255 := by
  have htop : w / 2048 % 32 = w / 2048 := by
    have hlt : w < 65536 := hw ▸ memRead_lt s _ 2
    omega
  rw [← htop]
  simp only [fixedPixel, hb, hw, slice]
  norm_num

/-- At 24 bits the sample is the chunk with an opaque alpha (R102). -/
theorem fixedPixel_24 {s : State} (hb : cfgBpp s = 24) (q : Nat) :
    fixedPixel s q = rgbaItem (memRead8 s (s.src.toNat + 3 * q)) (memRead8 s (s.src.toNat + 3 * q + 1))
      (memRead8 s (s.src.toNat + 3 * q + 2)) 255 := by
  simp only [fixedPixel, hb]
  rfl

/-- At 32 bits the sample is the chunk with its first byte, the alpha, moved to the end (R102). -/
theorem fixedPixel_32 {s : State} (hb : cfgBpp s = 32) (q : Nat) :
    fixedPixel s q = rgbaItem (memRead8 s (s.src.toNat + 4 * q + 1)) (memRead8 s (s.src.toNat + 4 * q + 2))
      (memRead8 s (s.src.toNat + 4 * q + 3)) (memRead8 s (s.src.toNat + 4 * q)) := by
  simp only [fixedPixel, hb]
  rfl

/-- The samples of a 16-bit chunk `w`. -/
theorem memRead8_written_pixDecFixed_16 {s : State} {q w : Nat} (hb : cfgBpp s = 16) (hq : q < pixelCount s)
    (hw : memRead s (s.src.toNat + 2 * q) 2 = w) :
    memRead8 (written (pixDecFixed Config.params s) s) (s.dst.toNat + 4 * q) = upscale 5 (w / 2048) ∧
      memRead8 (written (pixDecFixed Config.params s) s) (s.dst.toNat + 4 * q + 1) = upscale 6 (w / 32 % 64) ∧
      memRead8 (written (pixDecFixed Config.params s) s) (s.dst.toNat + 4 * q + 2) = upscale 5 (w % 32) ∧
      memRead8 (written (pixDecFixed Config.params s) s) (s.dst.toNat + 4 * q + 3) = 255 := by
  have hlt : w < 65536 := hw ▸ memRead_lt s _ 2
  exact memRead8_written_pixDecFixed (hb ▸ rfl) hq (fixedPixel_16 hb hw) (upscale_lt (by decide) (by omega))
    (upscale_lt (by decide) (by omega)) (upscale_lt (by decide) (by omega)) (by decide)

/-- The samples of a 24-bit chunk. -/
theorem memRead8_written_pixDecFixed_24 {s : State} {q : Nat} (hb : cfgBpp s = 24) (hq : q < pixelCount s) :
    (∀ c < 3, memRead8 (written (pixDecFixed Config.params s) s) (s.dst.toNat + 4 * q + c) =
        memRead8 s (s.src.toNat + 3 * q + c)) ∧
      memRead8 (written (pixDecFixed Config.params s) s) (s.dst.toNat + 4 * q + 3) = 255 := by
  obtain ⟨hr, hg, hblue, ha⟩ := memRead8_written_pixDecFixed (hb ▸ rfl) hq (fixedPixel_24 hb q) (memRead8_lt s _)
    (memRead8_lt s _) (memRead8_lt s _) (by decide)
  refine ⟨fun c hc => ?_, ha⟩
  interval_cases c
  · exact hr
  · exact hg
  · exact hblue

/-- The samples of a 32-bit chunk. -/
theorem memRead8_written_pixDecFixed_32 {s : State} {q : Nat} (hb : cfgBpp s = 32) (hq : q < pixelCount s) :
    (∀ c < 3, memRead8 (written (pixDecFixed Config.params s) s) (s.dst.toNat + 4 * q + c) =
        memRead8 s (s.src.toNat + 4 * q + (c + 1))) ∧
      memRead8 (written (pixDecFixed Config.params s) s) (s.dst.toNat + 4 * q + 3) =
        memRead8 s (s.src.toNat + 4 * q) := by
  obtain ⟨hr, hg, hblue, ha⟩ := memRead8_written_pixDecFixed (hb ▸ rfl) hq (fixedPixel_32 hb q) (memRead8_lt s _)
    (memRead8_lt s _) (memRead8_lt s _) (memRead8_lt s _)
  refine ⟨fun c hc => ?_, ha⟩
  interval_cases c
  · exact hr
  · exact hg
  · exact hblue

/-- Settles O53: the samples that the command writes, depth by depth. -/
theorem pixDecFixedTruecolor : Obligations.PixDecFixedTruecolor := fun s =>
  ⟨fun hb hk hr => commandWrites_pixDecFixed hb hk (by decide) hr fun _ hp =>
      memRead8_written_pixDecFixed_16 hb hp (memRead_two s _),
    fun hb hk hr => commandWrites_pixDecFixed hb hk (by decide) hr fun _ hp => memRead8_written_pixDecFixed_24 hb hp,
    fun hb hk hr => commandWrites_pixDecFixed hb hk (by decide) hr fun _ hp => memRead8_written_pixDecFixed_32 hb hp⟩

/-! ### Decoding and then encoding (R103) -/

theorem cfgSrcAlpha_congr {s u : State} (h : u.cfg = s.cfg) : cfgSrcAlpha u = cfgSrcAlpha s := by
  rw [cfgSrcAlpha, cfgSrcAlpha, h]

/-- The top bits of an upscaled five- or six-bit field are the field. -/
theorem upscale_top_bits {n v : Nat} (hn : n ∈ [5, 6]) (hv : v < 2 ^ n) : upscale n v / 2 ^ (8 - n) = v := by
  unfold upscale
  fin_cases hn <;> omega

/-- The second command of a chain reads as its samples what the first one wrote at its DST. -/
theorem srcSample_written {s u : State} {tr : Transform} (hmem : u.mem = (written tr s).mem) (hsrc : u.src = s.dst)
    (q c : Nat) : srcSample u q c = memRead8 (written tr s) (s.dst.toNat + 4 * q + c) := by
  rw [Nat.add_assoc, ← srcIndex_written hmem hsrc, srcIndex, ← Nat.add_assoc]
  rfl

section DecodeThenEncode

variable {s u : State} {q : Nat} (hmem : u.mem = (written (pixDecFixed Config.params s) s).mem) (hcfg : u.cfg = s.cfg)
  (hsrc : u.src = s.dst) (hq : q < pixelCount s)
include hmem hcfg hsrc hq

theorem fixedChunk_decoded_indexed (hb : cfgBpp s ≤ 8) :
    fixedChunk Config.params u q = memRead s (s.src.toNat + 1 * q) 1 := by
  obtain ⟨hwidth, -, hitem⟩ := items_fixed_indexed (i := .pixDecFixed) (s := s) rfl (by decide) hb
  calc fixedChunk Config.params u q = srcIndex u q := if_pos (cfgBpp_congr hcfg ▸ hb)
    _ = srcIndex s q % 256 := by rw [srcIndex_written hmem hsrc, memRead8_written_byte s hwidth hq, hitem]
    _ = memRead s (s.src.toNat + 1 * q) 1 := by
      rw [srcIndex, Nat.mod_eq_of_lt (memRead8_lt s _), Nat.one_mul, memRead, memRead, Nat.zero_mul, Nat.zero_add,
        Nat.add_zero]

theorem fixedChunk_decoded_16 (hb : cfgBpp s = 16) :
    fixedChunk Config.params u q = memRead s (s.src.toNat + 2 * q) 2 := by
  have hlt := memRead_lt s (s.src.toNat + 2 * q) 2
  obtain ⟨hr, hg, hblue, -⟩ := memRead8_written_pixDecFixed_16 hb hq rfl
  generalize memRead s (s.src.toNat + 2 * q) 2 = w at *
  have htop : upscale 5 (w / 2048) / 8 = w / 2048 := upscale_top_bits (n := 5) (by decide) (by omega)
  have hmiddle : upscale 6 (w / 32 % 64) / 4 = w / 32 % 64 := upscale_top_bits (n := 6) (by decide) (by omega)
  have hlow : upscale 5 (w % 32) / 8 = w % 32 := upscale_top_bits (n := 5) (by decide) (by omega)
  rw [fixedChunk_16 ((cfgBpp_congr hcfg).trans hb)]
  simp only [srcSample_written hmem hsrc, Nat.add_zero, hr, hg, hblue, htop, hmiddle, hlow]
  omega

theorem fixedChunk_decoded_24 (hb : cfgBpp s = 24) :
    fixedChunk Config.params u q = memRead s (s.src.toNat + 3 * q) 3 := by
  obtain ⟨hcolor, -⟩ := memRead8_written_pixDecFixed_24 hb hq
  rw [fixedChunk_24 ((cfgBpp_congr hcfg).trans hb)]
  simp only [srcSample_written hmem hsrc, hcolor 0 (by decide), hcolor 1 (by decide), hcolor 2 (by decide), memRead]
  omega

theorem fixedChunk_decoded_32 (hb : cfgBpp s = 32) (halpha : cfgSrcAlpha s = 1) :
    fixedChunk Config.params u q = memRead s (s.src.toNat + 4 * q) 4 := by
  obtain ⟨hcolor, ha⟩ := memRead8_written_pixDecFixed_32 hb hq
  rw [fixedChunk_32 ((cfgBpp_congr hcfg).trans hb), chunkAlpha, cfgSrcAlpha_congr hcfg, if_pos halpha]
  simp only [srcSample_written hmem hsrc, hcolor 0 (by decide), hcolor 1 (by decide), hcolor 2 (by decide), ha]
  simp only [memRead, Nat.add_zero, Nat.zero_add, Nat.reduceAdd]
  omega

/-- The chunk encoded from the samples that PIX_DEC_FIXED wrote is the chunk it read. -/
theorem fixedChunk_decoded (hpair : FixedPair (cfgBpp s) (cfgBpc s)) (halpha : cfgBpp s = 32 → cfgSrcAlpha s = 1) :
    fixedChunk Config.params u q =
      memRead s (s.src.toNat + chunkBytes (cfgBpp s) * q) (chunkBytes (cfgBpp s)) := by
  rcases hpair with ⟨hb, -⟩ | ⟨hb, -⟩ | ⟨hb, -⟩ | ⟨hb, -⟩
  · have hb8 := (indexDepth_bounds hb).2.2
    rw [chunkBytes_indexed hb8]
    exact fixedChunk_decoded_indexed hmem hcfg hsrc hq hb8
  · rw [hb]
    exact fixedChunk_decoded_16 hmem hcfg hsrc hq hb
  · rw [hb]
    exact fixedChunk_decoded_24 hmem hcfg hsrc hq hb
  · rw [hb]
    exact fixedChunk_decoded_32 hmem hcfg hsrc hq hb (halpha hb)

end DecodeThenEncode

/-- Settles O54: both commands end in `written`, and byte `a` is byte `a % k` of chunk `a / k`, which the second one encodes
from the samples the first one decoded. -/
theorem fixedDecodeThenEncode : Obligations.FixedDecodeThenEncode := by
  intro s t u v halpha ht herr hmem hcfg hdim hsrc hv herr' a ha
  have hpair := (fixedChecks_pass_iff s).1 (checks_of_exec_next (i := .pixDecFixed) rfl ht herr).1
  obtain rfl := written_of_exec_next (i := .pixDecFixed) rfl ht herr
  obtain rfl := written_of_exec_next (i := .pixEncFixed) rfl hv herr'
  obtain ⟨k, hk⟩ : ∃ k, chunkBytes (cfgBpp s) = k := ⟨_, rfl⟩
  have ha' : a < k * pixelCount s := hk ▸ ha
  have hpos : 0 < k := Nat.pos_of_ne_zero fun h0 => by simp [h0] at ha'
  have hq : a / k < pixelCount s := Nat.div_lt_of_lt_mul ha'
  have hj : a % k < k := Nat.mod_lt _ hpos
  refine readByte_eq_of_memRead8_eq ?_
  rw [← Nat.div_add_mod a k, ← Nat.add_assoc, ← Nat.add_assoc,
    memRead8_written_pixEncFixed (cfgBpp_congr hcfg ▸ hk) (pixelCount_congr hdim ▸ hq) hj,
    fixedChunk_decoded hmem hcfg hsrc hq hpair halpha, hk, memRead_byte s _ hj]

end Sys2Proof.Machine
end

section
/-!
SUPPORT. The container header: its checks (O56), what HDR_ENC writes (O55), what HDR_DEC reads, checks and loads (O57, O58), the
round trip of R111 (O59) and the sizes of a container's parts (O60). And NOP (O27).
-/

namespace Sys2Proof.Machine

/-! ### NOP -/

/-- Settles O27: NOP is the end of a command with a length of 0 and nothing before it. -/
theorem nopOnlyClearsTheStatus : Obligations.NopOnlyClearsTheStatus :=
  ⟨by decide, fun _ => rfl⟩

/-! ### The checks of a header (R105) -/

/-- The format that a raw BPC byte names (R104). -/
theorem pixelFormat_sext8 {bpc : Nat} (h : bpc < 256) :
    pixelFormat (sext8 bpc) =
      if bpc = 255 then some .packed else if bpc = 0 then some .planar else if bpc ≤ 4 then some (.fixed bpc)
      else none := by
  obtain rfl | hlow | hother : bpc = 255 ∨ bpc ≤ 4 ∨ (bpc ≠ 255 ∧ 4 < bpc) := by omega
  · rfl
  · interval_cases bpc <;> rfl
  · have hsext : sext8 bpc < -1 ∨ 4 < sext8 bpc := by
      unfold sext8
      split <;> omega
    unfold pixelFormat
    repeat rw [if_neg (by omega)]

/-- Check 2 of R105: BPC names a format, and the format allows the depth. -/
def headerFormatCheck (bpp bpc : Nat) : Check :=
  ⟨!((pixelFormat (sext8 bpc)).any fun f => formatAllows f bpp), .configurationError, (bpc <<< 8) ||| bpp⟩

/-- Check 3 of R105: the palette kind fits the depth. -/
def headerKindCheck (bpp palKind : Nat) : Check :=
  ⟨(decide (palKind ≠ 0) && decide (8 < bpp)) || (decide (palKind = 1) && decide (4 < bpp)),
    .configurationError, (palKind <<< 16) ||| bpp⟩

/-- Check 4 of R105: in a planar or packed format the width is aligned. -/
def headerWidthCheck (bpc width : Nat) : Check :=
  ⟨(decide (pixelFormat (sext8 bpc) = some .planar) || decide (pixelFormat (sext8 bpc) = some .packed)) &&
    decide (width % 16 ≠ 0), .dimensionNotAligned, width⟩

theorem headerChecks_zero (bpc palKind width : Nat) : headerChecks 0 bpc palKind width = [] := rfl

theorem headerChecks_eq {bpp : Nat} (h : bpp ≠ 0) (bpc palKind width : Nat) :
    headerChecks bpp bpc palKind width =
      [depthCheck pixelDepths bpp, headerFormatCheck bpp bpc, headerKindCheck bpp palKind, headerWidthCheck bpc width] :=
  if_neg h

theorem headerFormatCheck_passes_iff (bpp : Nat) {bpc : Nat} (h : bpc < 256) :
    (headerFormatCheck bpp bpc).fails = false ↔ HeaderFormat bpp bpc := by
  have hfixed := legalFixedPair_sext8_iff bpp h
  rw [headerFormatCheck, Bool.not_eq_false', pixelFormat_sext8 h]
  split_ifs with hpacked hplanar hsmall
  · simp [formatAllows, HeaderFormat, hpacked]
  · simp [formatAllows, HeaderFormat, hplanar]
  · rw [show sext8 bpc = bpc from if_neg (by omega)] at hfixed
    rw [Option.any_some, formatAllows, hfixed]
    simp only [FixedPair, HeaderFormat, hpacked, hplanar, false_and, false_or, and_comm]
  · simp only [Option.any_none, Bool.false_eq_true, HeaderFormat, false_iff]
    omega

theorem headerKindCheck_passes_iff (bpp palKind : Nat) :
    (headerKindCheck bpp palKind).fails = false ↔ ¬HeaderKindBad bpp palKind := by
  simp [headerKindCheck, HeaderKindBad]

theorem headerWidthCheck_passes_iff {bpc : Nat} (h : bpc < 256) (width : Nat) :
    (headerWidthCheck bpc width).fails = false ↔ ¬HeaderWidthBad bpc width := by
  have hplanar : pixelFormat (sext8 bpc) = some .planar ↔ bpc = 0 := by
    rw [pixelFormat_sext8 h]
    split_ifs <;> simp <;> omega
  have hpacked : pixelFormat (sext8 bpc) = some .packed ↔ bpc = 0xFF := by
    rw [pixelFormat_sext8 h]
    split_ifs <;> simp <;> omega
  simp [headerWidthCheck, hplanar, hpacked, HeaderWidthBad]

/-- A header passes the checks of R105 exactly when it is valid. -/
theorem headerChecks_pass_iff (bpp : Nat) {bpc : Nat} (h : bpc < 256) (palKind width : Nat) :
    firstFailure (headerChecks bpp bpc palKind width) = none ↔ HeaderValid bpp bpc palKind width := by
  by_cases hb : bpp = 0
  · simp [hb, headerChecks_zero, HeaderValid]
  · simp only [headerChecks_eq hb, firstFailure_cons_eq_none_iff, firstFailure_nil, and_true, depthCheck_passes_iff,
      headerFormatCheck_passes_iff bpp h, headerKindCheck_passes_iff, headerWidthCheck_passes_iff h, HeaderValid, hb,
      false_or]
    rfl

theorem headerFormatCheck_info {bpp : Nat} (h : bpp < 256) (bpc : Nat) :
    (headerFormatCheck bpp bpc).error.info = bpc * 256 + bpp := by
  rw [headerFormatCheck, ← Nat.shiftLeft_add_eq_or_of_lt h, Nat.shiftLeft_eq]

theorem headerKindCheck_info {bpp : Nat} (h : bpp < 256) (palKind : Nat) :
    (headerKindCheck bpp palKind).error.info = palKind * 65536 + bpp := by
  rw [headerKindCheck, ← Nat.shiftLeft_add_eq_or_of_lt (by omega), Nat.shiftLeft_eq]

/-- The first failing check of R105 gives the error of an invalid header. -/
theorem headerChecks_fail {bpp bpc palKind width code info : Nat} (hbpp : bpp < 256) (hbpc : bpc < 256)
    (h : HeaderError bpp bpc palKind width code info) :
    ∃ e, firstFailure (headerChecks bpp bpc palKind width) = some e ∧ errorCode e.kind = code ∧ e.info = info := by
  have hdepth : (depthCheck pixelDepths bpp).fails = false ↔ PixelDepth bpp := depthCheck_passes_iff _ _
  have hformat := headerFormatCheck_passes_iff bpp hbpc
  have hkind := headerKindCheck_passes_iff bpp palKind
  have hwidth := headerWidthCheck_passes_iff hbpc width
  obtain ⟨hb, herror⟩ := h
  rw [headerChecks_eq hb]
  rcases herror with ⟨h1, rfl, rfl⟩ | ⟨h1, h2, rfl, rfl⟩ | ⟨h1, h2, h3, rfl, rfl⟩ | ⟨h1, h2, h3, h4, rfl, rfl⟩
  · have hfail := Bool.of_not_eq_false (mt hdepth.1 h1)
    exact ⟨_, firstFailure_cons_fails hfail, rfl, rfl⟩
  · have hfail := Bool.of_not_eq_false (mt hformat.1 h2)
    refine ⟨(headerFormatCheck bpp bpc).error, ?_, rfl, headerFormatCheck_info hbpp bpc⟩
    rw [firstFailure_cons_passes (hdepth.2 h1), firstFailure_cons_fails hfail]
  · have hfail := Bool.of_not_eq_false fun hpass => hkind.1 hpass h3
    refine ⟨(headerKindCheck bpp palKind).error, ?_, rfl, headerKindCheck_info hbpp palKind⟩
    rw [firstFailure_cons_passes (hdepth.2 h1), firstFailure_cons_passes (hformat.2 h2), firstFailure_cons_fails hfail]
  · have hfail := Bool.of_not_eq_false fun hpass => hwidth.1 hpass h4
    refine ⟨(headerWidthCheck bpc _).error, ?_, rfl, rfl⟩
    rw [firstFailure_cons_passes (hdepth.2 h1), firstFailure_cons_passes (hformat.2 h2),
      firstFailure_cons_passes (hkind.2 h3), firstFailure_cons_fails hfail]

/-- Settles O56: the configuration checks of HDR_ENC are those of its header. -/
theorem hdrEncReportsTheFirstFailingCheck : Obligations.HdrEncReportsTheFirstFailingCheck := by
  refine ⟨fun s code info h => ?_, fun bpp bpc kind width h => headerChecks_pass_iff bpp h kind width⟩
  obtain ⟨e, he, rfl, rfl⟩ := headerChecks_fail (cfgBpp_lt s) (cfgBpc_lt s) h
  exact commandFails_config (tr := hdrEnc s) rfl he

/-! ### What HDR_ENC writes -/

/-- The header of R63 with the register values of `s` lies at `a` in the memory of `t`. -/
structure HeaderAt (s t : State) (a : Nat) : Prop where
  magic : memRead t a 4 = magicUimg
  version : memRead t (a + 4) 2 = versionField s
  palKind : memRead t (a + 6) 2 = cfgPalKind s
  bpp : memRead8 t (a + 8) = cfgBpp s
  bpc : memRead8 t (a + 9) = cfgBpc s
  reserved : memRead8 t (a + 10) = 0
  dims : cfgBpp s ≠ 0 → memRead t (a + 11) 2 = dimWidth s ∧ memRead t (a + 13) 2 = dimHeight s

theorem headerLen_eq (bpp : Nat) : headerLen bpp = if bpp = 0 then 11 else 15 := rfl

theorem headerLen_bounds (bpp : Nat) : 11 ≤ headerLen bpp ∧ headerLen bpp ≤ 15 := by
  rw [headerLen_eq]
  split <;> omega

theorem headerLen_lt (bpp : Nat) : headerLen bpp < 2 ^ 32 := (headerLen_bounds bpp).2.trans_lt (by decide)

theorem outLen_hdrEnc (s : State) : outLen (hdrEnc s) = headerLen (cfgBpp s) := Nat.mul_one _

theorem beBytes_two (v : Nat) : beBytes 2 v = [v / 256 % 256, v % 256] := by
  simp [beBytes, List.range_succ]

theorem versionField_eq (s : State) : versionField s = s.version.toNat % 65536 := by simp [versionField, slice]

theorem versionField_lt (s : State) : versionField s < 65536 := versionField_eq s ▸ Nat.mod_lt _ (by decide)

theorem cfgPalKind_lt (s : State) : cfgPalKind s < 4 := by unfold cfgPalKind slice; omega

theorem dimWidth_lt (s : State) : dimWidth s < 65536 := by unfold dimWidth slice; omega

theorem dimHeight_lt (s : State) : dimHeight s < 65536 := by unfold dimHeight slice; omega

/-- The eleven bytes that every header has, and the four that a header with pixels ends in (R63). -/
theorem headerBytes_eq (s : State) :
    headerBytes s =
      [0x55, 0x49, 0x4D, 0x47, versionField s / 256 % 256, versionField s % 256, cfgPalKind s / 256 % 256,
        cfgPalKind s % 256, cfgBpp s, cfgBpc s, 0] ++
      (if cfgBpp s = 0 then []
        else [dimWidth s / 256 % 256, dimWidth s % 256, dimHeight s / 256 % 256, dimHeight s % 256]) := by
  simp only [headerBytes, beBytes_two]
  rfl

/-- A byte of the header that HDR_ENC wrote. -/
theorem memRead8_written_hdrEnc {s : State} {k v : Nat} (hk : k < headerLen (cfgBpp s)) (hv : v < 256)
    (hbyte : (headerBytes s).getD k 0 = v) : memRead8 (written (hdrEnc s) s) (s.dst.toNat + k) = v := by
  rw [memRead8_written_byte (tr := hdrEnc s) s rfl hk, show (hdrEnc s).item k = _ from hbyte, Nat.mod_eq_of_lt hv]

/-- A field of two bytes of the header that HDR_ENC wrote. -/
theorem memRead_two_written_hdrEnc {s : State} {k v : Nat} (hk : k + 1 < headerLen (cfgBpp s)) (hv : v < 65536)
    (hhigh : (headerBytes s).getD k 0 = v / 256 % 256) (hlow : (headerBytes s).getD (k + 1) 0 = v % 256) :
    memRead (written (hdrEnc s) s) (s.dst.toNat + k) 2 = v := by
  rw [memRead_two, memRead8_written_hdrEnc (Nat.lt_of_succ_lt hk) (by omega) hhigh, Nat.add_assoc,
    memRead8_written_hdrEnc hk (by omega) hlow]
  omega

theorem memRead_four (s : State) (a : Nat) : memRead s a 4 = 65536 * memRead s a 2 + memRead s (a + 2) 2 := by
  simp only [memRead, Nat.add_assoc, Nat.add_zero, Nat.reduceAdd]
  omega

theorem headerAt_written_hdrEnc (s : State) : HeaderAt s (written (hdrEnc s) s) s.dst.toNat := by
  have hlen := (headerLen_bounds (cfgBpp s)).1
  have hbytes := headerBytes_eq s
  constructor
  case magic =>
    have hupper := memRead_two_written_hdrEnc (s := s) (k := 0) (v := 0x5549) (by omega) (by decide) (by simp [hbytes])
      (by simp [hbytes])
    have hlower := memRead_two_written_hdrEnc (s := s) (k := 2) (v := 0x4D47) (by omega) (by decide) (by simp [hbytes])
      (by simp [hbytes])
    rw [Nat.add_zero] at hupper
    rw [memRead_four, hupper, hlower]
    rfl
  case version => exact memRead_two_written_hdrEnc (by omega) (versionField_lt s) (by simp [hbytes]) (by simp [hbytes])
  case palKind =>
    exact memRead_two_written_hdrEnc (by omega) ((cfgPalKind_lt s).trans (by decide)) (by simp [hbytes]) (by simp [hbytes])
  case bpp => exact memRead8_written_hdrEnc (by omega) (cfgBpp_lt s) (by simp [hbytes])
  case bpc => exact memRead8_written_hdrEnc (by omega) (cfgBpc_lt s) (by simp [hbytes])
  case reserved => exact memRead8_written_hdrEnc (by omega) (by decide) (by simp [hbytes])
  case dims =>
    intro hb
    rw [if_neg hb] at hbytes
    have hlen : headerLen (cfgBpp s) = 15 := if_neg hb
    exact ⟨memRead_two_written_hdrEnc (by omega) (dimWidth_lt s) (by simp [hbytes]) (by simp [hbytes]),
      memRead_two_written_hdrEnc (by omega) (dimHeight_lt s) (by simp [hbytes]) (by simp [hbytes])⟩

/-- Settles O55: a valid header passes the checks of HDR_ENC, and the command then ends in `written`. -/
theorem hdrEncWritesTheHeader : Obligations.HdrEncWritesTheHeader := by
  intro s hvalid len hr
  obtain ⟨hmagic, hversion, hkind, hbpp, hbpc, hreserved, hdims⟩ := headerAt_written_hdrEnc s
  have hchecks := (headerChecks_pass_iff _ (cfgBpc_lt s) _ _).2 hvalid
  exact commandWrites_of_outLen (tr := hdrEnc s) rfl hchecks (outLen_hdrEnc s) hr rfl (fun _ => headerLen_lt _)
    ⟨hmagic, hversion.trans (versionField_eq s), hkind, hbpp, hbpc, hreserved, hdims⟩

/-! ### What HDR_DEC answers -/

/-- The state HDR_DEC leaves when nothing fails: a header in CFG, VERSION and DIM, and its length in RESULT_LEN (R108). -/
def loaded (h : HeaderFields) (s : State) : State := finish (headerLen h.bpp) (loadHeader s h)

theorem exec_hdrDec_of_firstChecks {s : State} {e : CmdError}
    (h : firstFailure (hdrDecFirstChecks Config.params s) = some e) : exec .hdrDec s = .next (raise e s) := by
  simp only [exec, execHdrDec, execHdrDecWith, h]

/-- With an input in plain memory that is long enough for a magic, HDR_DEC reads the header and checks it. -/
theorem exec_hdrDec_of_readable {s : State} (htop : s.src.toNat + min s.srcLen.toNat 15 ≤ 2 ^ 32)
    (hplain : touchesWindow s s.src.toNat (min s.srcLen.toNat 15) = false) (hlen : 4 ≤ s.srcLen.toNat) :
    exec .hdrDec s =
      .next ((firstFailure (hdrDecChecks s)).elim (loaded (readHeader s) s) fun e => raise e s) := by
  simp only [exec, execHdrDec, execHdrDecWith, (hdrDecFirstChecks_pass_iff s).2 ⟨htop, hlen⟩, hdrDecLen, hplain]
  cases firstFailure (hdrDecChecks s) <;> rfl

/-- Check 3 of R108: the input begins with the magic. -/
def hdrDecMagicCheck (s : State) : Check :=
  ⟨decide (memRead s s.src.toNat 4 ≠ magicUimg), .badMagic, memRead s s.src.toNat 4⟩

/-- Check 4 of R108: the input holds what every header has. -/
def hdrDecShortCheck (s : State) : Check := ⟨decide (s.srcLen.toNat < 11), .truncatedInput, 11⟩

/-- Check 5 of R108: the input holds the dimensions of a header with pixels. -/
def hdrDecDimsCheck (s : State) : Check :=
  ⟨decide ((readHeader s).bpp ≠ 0) && decide (s.srcLen.toNat < 15), .truncatedInput, 15⟩

theorem hdrDecChecks_eq (s : State) :
    hdrDecChecks s = hdrDecMagicCheck s :: hdrDecShortCheck s :: hdrDecDimsCheck s ::
      headerChecks (readHeader s).bpp (readHeader s).bpc (readHeader s).palKind (readHeader s).width := rfl

theorem hdrDecMagicCheck_passes_iff (s : State) :
    (hdrDecMagicCheck s).fails = false ↔ memRead s s.src.toNat 4 = 0x55494D47 := by
  rw [hdrDecMagicCheck, decide_eq_false_iff_not, not_not, magicUimg]

theorem hdrDecShortCheck_passes_iff (s : State) : (hdrDecShortCheck s).fails = false ↔ 11 ≤ s.srcLen.toNat := by
  simp [hdrDecShortCheck]

theorem hdrDecDimsCheck_passes_iff (s : State) :
    (hdrDecDimsCheck s).fails = false ↔ ((readHeader s).bpp ≠ 0 → 15 ≤ s.srcLen.toNat) := by
  simp [hdrDecDimsCheck]

theorem readHeader_palKind (s : State) : (readHeader s).palKind = memRead s (s.src.toNat + 6) 2 % 4 := by
  simp [readHeader, slice]

/-- Settles O58: each check of R108 in its place, with the condition under which it passes. -/
theorem hdrDecChecksInOrder : Obligations.HdrDecChecksInOrder := by
  intro s code info a len magic b w kind
  have hmagic : (hdrDecMagicCheck s).fails = false ↔ magic = 0x55494D47 := hdrDecMagicCheck_passes_iff s
  have hshort := hdrDecShortCheck_passes_iff s
  have hdims : (hdrDecDimsCheck s).fails = false ↔ (b ≠ 0 → 15 ≤ s.srcLen.toNat) := hdrDecDimsCheck_passes_iff s
  refine ⟨fun htop => ?_, fun htop hlen => ?_, fun htop hplain hlen => ?_⟩
  · have hsrc : a < 2 ^ 32 := s.src.isLt
    have hfail : beyondTop Config.params a len = true := (beyondTop_eq_true_iff a len).2 ⟨by omega, htop⟩
    exact commandFails_raise (exec_hdrDec_of_firstChecks (firstFailure_cons_fails hfail))
  · have hpass : beyondTop Config.params a len = false := (beyondTop_eq_false_iff _ a len).2 (.inr htop)
    refine commandFails_raise (e := ⟨.truncatedInput, 4⟩) (exec_hdrDec_of_firstChecks ?_)
    exact (firstFailure_cons_passes hpass).trans (firstFailure_cons_fails (decide_eq_true hlen))
  · have hraise {e : CmdError} (he : firstFailure (hdrDecChecks s) = some e) : exec .hdrDec s = .next (raise e s) := by
      rw [exec_hdrDec_of_readable htop hplain hlen, he, Option.elim_some]
    rw [hdrDecChecks_eq] at hraise
    refine ⟨fun h1 => ?_, fun h1 h2 => ?_, fun h1 h2 h3 h4 => ?_, fun h1 h2 h3 => ?_⟩
    · have hfail := Bool.of_not_eq_false (mt hmagic.1 h1)
      exact commandFails_raise (hraise (firstFailure_cons_fails hfail))
    · have hfail := Bool.of_not_eq_false (mt hshort.1 (Nat.not_le.2 h2))
      refine commandFails_raise (e := (hdrDecShortCheck s).error) (hraise ?_)
      rw [firstFailure_cons_passes (hmagic.2 h1), firstFailure_cons_fails hfail]
    · have hfail := Bool.of_not_eq_false fun hpass => Nat.not_le.2 h4 (hdims.1 hpass h3)
      refine commandFails_raise (e := (hdrDecDimsCheck s).error) (hraise ?_)
      rw [firstFailure_cons_passes (hmagic.2 h1), firstFailure_cons_passes (hshort.2 h2), firstFailure_cons_fails hfail]
    · have hkind : kind = (readHeader s).palKind := (readHeader_palKind s).symm
      rw [hkind] at h3
      obtain ⟨e, he, rfl, rfl⟩ := headerChecks_fail (memRead8_lt s _) (memRead8_lt s _) h3
      refine commandFails_raise (hraise ?_)
      rw [firstFailure_cons_passes (hmagic.2 h1), firstFailure_cons_passes (hshort.2 (by omega)),
        firstFailure_cons_passes (hdims.2 fun _ => h2)]
      exact he

/-- HDR_DEC on a valid header at SRC loads it. -/
theorem exec_hdrDec_of_valid {s : State} (htop : s.src.toNat + min s.srcLen.toNat 15 ≤ 2 ^ 32)
    (hplain : touchesWindow s s.src.toNat (min s.srcLen.toNat 15) = false)
    (hmagic : memRead s s.src.toNat 4 = 0x55494D47) (hlen : headerLen (readHeader s).bpp ≤ s.srcLen.toNat)
    (hchecks : firstFailure
      (headerChecks (readHeader s).bpp (readHeader s).bpc (readHeader s).palKind (readHeader s).width) = none) :
    exec .hdrDec s = .next (loaded (readHeader s) s) := by
  have hshort : 11 ≤ s.srcLen.toNat := (headerLen_bounds _).1.trans hlen
  have hdims : (readHeader s).bpp ≠ 0 → 15 ≤ s.srcLen.toNat := fun hb => by rwa [headerLen_eq, if_neg hb] at hlen
  rw [exec_hdrDec_of_readable htop hplain (by omega), hdrDecChecks_eq,
    firstFailure_cons_passes ((hdrDecMagicCheck_passes_iff s).2 hmagic),
    firstFailure_cons_passes ((hdrDecShortCheck_passes_iff s).2 hshort),
    firstFailure_cons_passes ((hdrDecDimsCheck_passes_iff s).2 hdims), hchecks, Option.elim_none]

/-! ### What HDR_DEC loads -/

theorem slice_testBit (v hi lo i : Nat) :
    (slice v hi lo).testBit i = (decide (i < hi + 1 - lo) && v.testBit (lo + i)) := by
  rw [slice, Nat.testBit_mod_two_pow, Nat.testBit_div_two_pow, Nat.add_comm i]

/-- A header's fields fit the registers they are loaded into (R63). -/
structure HeaderFields.Fit (h : HeaderFields) : Prop where
  version : h.version < 65536
  palKind : h.palKind < 4
  bpp : h.bpp < 256
  bpc : h.bpc < 256
  width : h.width < 65536
  height : h.height < 65536

theorem readHeader_fit (s : State) : (readHeader s).Fit where
  version := memRead_lt s _ 2
  palKind := readHeader_palKind s ▸ Nat.mod_lt _ (by decide)
  bpp := memRead8_lt s _
  bpc := memRead8_lt s _
  width := by
    show (if _ then _ else _) < _
    split
    · decide
    · exact memRead_lt s _ 2
  height := by
    show (if _ then _ else _) < _
    split
    · decide
    · exact memRead_lt s _ 2

theorem testBit_of_width {n x i : Nat} (hx : x < 2 ^ n) (hi : n ≤ i) : x.testBit i = false :=
  Nat.testBit_lt_two_pow (hx.trans_le (Nat.pow_le_pow_right (by decide) hi))

/-- The CFG that a header loads, bit by bit: the mask drops the bits of the three fields, and no field has a bit above its width. -/
theorem cfgWithHeader_testBit {h : HeaderFields} (hfit : h.Fit) (cfg : Word) (j : Nat) (hj : j < 32) :
    (cfgWithHeader cfg h).toNat.testBit j =
      if j < 8 then h.bpp.testBit j else if j < 16 then h.bpc.testBit (j - 8)
      else if 24 ≤ j ∧ j < 26 then h.palKind.testBit (j - 24) else cfg.toNat.testBit j := by
  have hmask : ∀ j < 32, (0xFCFF0000#32).getLsbD j = decide (16 ≤ j ∧ (j < 24 ∨ 26 ≤ j)) := by decide
  have hbpp : 8 ≤ j → h.bpp.testBit j = false := testBit_of_width hfit.bpp
  have hbpc : 16 ≤ j → h.bpc.testBit (j - 8) = false := fun hj => testBit_of_width (n := 8) hfit.bpc (by omega)
  have hkind : 26 ≤ j → h.palKind.testBit (j - 24) = false := fun hj =>
    testBit_of_width (n := 2) hfit.palKind (by omega)
  rw [BitVec.testBit_toNat, cfgWithHeader, BitVec.getLsbD_or, BitVec.getLsbD_and, hmask j hj, BitVec.getLsbD_ofNat,
    Nat.testBit_or, Nat.testBit_or, Nat.testBit_shiftLeft, Nat.testBit_shiftLeft, ← BitVec.testBit_toNat]
  split_ifs <;> grind

theorem slice_eq_of_testBit {v hi lo x : Nat} (hx : x < 2 ^ (hi + 1 - lo))
    (h : ∀ i < hi + 1 - lo, v.testBit (lo + i) = x.testBit i) : slice v hi lo = x := by
  refine Nat.eq_of_testBit_eq fun i => ?_
  rw [slice_testBit]
  by_cases hi' : i < hi + 1 - lo
  · rw [decide_eq_true hi', Bool.true_and, h i hi']
  · rw [decide_eq_false hi', Bool.false_and, testBit_of_width hx (Nat.not_lt.1 hi')]

/-- The fields of CFG that are not in the header are kept (R109). -/
theorem slice_cfgWithHeader_kept {h : HeaderFields} (hfit : h.Fit) (cfg : Word) {hi lo : Nat}
    (hkept : 16 ≤ lo ∧ hi < 24 ∨ 26 ≤ lo ∧ hi < 32) :
    slice (cfgWithHeader cfg h).toNat hi lo = slice cfg.toNat hi lo := by
  refine slice_eq_of_testBit (Nat.mod_lt _ (Nat.two_pow_pos _)) fun i hi' => ?_
  rw [cfgWithHeader_testBit hfit cfg _ (by omega), if_neg (by omega), if_neg (by omega), if_neg (by omega), slice_testBit,
    decide_eq_true hi', Bool.true_and]

section Loaded

variable {h : HeaderFields} (hfit : h.Fit) (s : State)
include hfit

theorem cfgBpp_loaded : cfgBpp (loaded h s) = h.bpp :=
  slice_eq_of_testBit hfit.bpp fun i hi => by
    rw [show (loaded h s).cfg = cfgWithHeader s.cfg h from rfl, cfgWithHeader_testBit hfit s.cfg _ (by omega),
      if_pos (by omega), Nat.zero_add]

theorem cfgBpc_loaded : cfgBpc (loaded h s) = h.bpc :=
  slice_eq_of_testBit hfit.bpc fun i hi => by
    rw [show (loaded h s).cfg = cfgWithHeader s.cfg h from rfl, cfgWithHeader_testBit hfit s.cfg _ (by omega),
      if_neg (by omega), if_pos (by omega), Nat.add_sub_cancel_left]

theorem cfgPalKind_loaded : cfgPalKind (loaded h s) = h.palKind :=
  slice_eq_of_testBit hfit.palKind fun i hi => by
    rw [show (loaded h s).cfg = cfgWithHeader s.cfg h from rfl, cfgWithHeader_testBit hfit s.cfg _ (by omega),
      if_neg (by omega), if_neg (by omega), if_pos (by omega), Nat.add_sub_cancel_left]

theorem cfgPalBits_loaded : cfgPalBits (loaded h s) = cfgPalBits s :=
  slice_cfgWithHeader_kept hfit s.cfg (.inl (by decide))

theorem cfgSrcAlpha_loaded : cfgSrcAlpha (loaded h s) = cfgSrcAlpha s :=
  slice_cfgWithHeader_kept hfit s.cfg (.inr (by decide))

theorem version_loaded : (loaded h s).version.toNat = h.version :=
  (BitVec.toNat_ofNat _ _).trans (Nat.mod_eq_of_lt (hfit.version.trans (by decide)))

theorem dim_loaded : (loaded h s).dim.toNat = 65536 * h.height + h.width := by
  have hheight := hfit.height
  have hwidth := hfit.width
  rw [show (loaded h s).dim = BitVec.ofNat 32 (h.height <<< 16 ||| h.width) from rfl, BitVec.toNat_ofNat,
    ← Nat.shiftLeft_add_eq_or_of_lt hwidth, Nat.shiftLeft_eq]
  omega

end Loaded

/-- Settles O57: the command ends in `loaded`, whose fields are those of the header. -/
theorem hdrDecLoadsTheHeader : Obligations.HdrDecLoadsTheHeader := by
  intro s a b w h kind htop hplain hmagic hshort hdims hvalid
  have hfit := readHeader_fit s
  have hkind : kind = (readHeader s).palKind := (readHeader_palKind s).symm
  have hlen : headerLen b ≤ s.srcLen.toNat := by
    rw [headerLen_eq]
    split
    · exact hshort
    · exact hdims ‹_›
  rw [hkind] at hvalid ⊢
  have hchecks := (headerChecks_pass_iff _ hfit.bpc _ _).2 hvalid
  refine ⟨loaded (readHeader s) s, exec_hdrDec_of_valid htop hplain hmagic hlen hchecks,
    succeeded_finish _ _ (headerLen_lt b), ?_, rfl, cfgBpp_loaded hfit s,
    cfgBpc_loaded hfit s, cfgPalKind_loaded hfit s, cfgPalBits_loaded hfit s, cfgSrcAlpha_loaded hfit s,
    version_loaded hfit s, dim_loaded hfit s⟩
  constructor <;> rfl

/-! ### The round trip of R111 -/

theorem memRead8_congr {s t : State} (h : t.mem = s.mem) (a : Nat) : memRead8 t a = memRead8 s a := by
  rw [memRead8, memRead8, readByte_congr h]

theorem headerAt_congr {s t u : State} {a : Nat} (hmem : u.mem = t.mem) (h : HeaderAt s t a) : HeaderAt s u a where
  magic := (memRead_congr hmem _ _).trans h.magic
  version := (memRead_congr hmem _ _).trans h.version
  palKind := (memRead_congr hmem _ _).trans h.palKind
  bpp := (memRead8_congr hmem _).trans h.bpp
  bpc := (memRead8_congr hmem _).trans h.bpc
  reserved := (memRead8_congr hmem _).trans h.reserved
  dims hb := ⟨(memRead_congr hmem _ _).trans (h.dims hb).1, (memRead_congr hmem _ _).trans (h.dims hb).2⟩

/-- What HDR_DEC reads where the header of `s` lies. -/
theorem readHeader_of_headerAt {s u : State} (h : HeaderAt s u u.src.toNat) :
    readHeader u =
      { version := versionField s, palKind := cfgPalKind s, bpp := cfgBpp s, bpc := cfgBpc s,
        width := if cfgBpp s = 0 then 0 else dimWidth s, height := if cfgBpp s = 0 then 0 else dimHeight s } := by
  have hkind : slice (cfgPalKind s) 1 0 = cfgPalKind s :=
    (Nat.mod_eq_of_lt (Nat.div_one _ ▸ cfgPalKind_lt s)).trans (Nat.div_one _)
  simp only [readHeader, h.version, h.palKind, hkind, h.bpp, h.bpc]
  by_cases hb : cfgBpp s = 0
  · simp only [hb, if_true]
  · simp only [hb, if_false, h.dims hb]

theorem resultLen_written_hdrEnc (s : State) :
    (written (hdrEnc s) s).resultLen = BitVec.ofNat 32 (headerLen (cfgBpp s)) := by
  rw [written, outLen_hdrEnc, finish_resultLen, lenFits_headerLen, if_pos rfl]

theorem resultLen_loaded (h : HeaderFields) (s : State) :
    (loaded h s).resultLen = BitVec.ofNat 32 (headerLen h.bpp) := by
  rw [loaded, finish_resultLen, lenFits_headerLen, if_pos rfl]

theorem err_loaded (h : HeaderFields) (s : State) : err (loaded h s) = false := err_finish _ _

theorem versionField_loaded {h : HeaderFields} (hfit : h.Fit) (s : State) : versionField (loaded h s) = h.version := by
  rw [versionField_eq, version_loaded hfit, Nat.mod_eq_of_lt hfit.version]

theorem dim_eq (s : State) : s.dim.toNat = 65536 * dimHeight s + dimWidth s := by
  have hdim := s.dim.isLt
  simp only [dimHeight, dimWidth, slice]
  omega

/-- HDR_DEC reads, checks and loads the header that HDR_ENC wrote. -/
theorem exec_hdrDec_of_headerAt {s u : State} (hat : HeaderAt s u u.src.toNat)
    (hchecks : firstFailure (hdrEnc s).config = none) (hlen : headerLen (cfgBpp s) ≤ u.srcLen.toNat)
    (htop : u.src.toNat + min u.srcLen.toNat 15 ≤ 2 ^ 32) (hwindows : u.windows = []) :
    exec .hdrDec u = .next (loaded (readHeader u) u) := by
  refine exec_hdrDec_of_valid htop (touchesWindow_nil hwindows _ _) hat.magic ?_ ?_ <;>
    rw [readHeader_of_headerAt hat]
  · exact hlen
  · by_cases hb : cfgBpp s = 0
    · simp only [hb, headerChecks_zero, firstFailure_nil]
    · simp only [hb, if_false]
      exact hchecks

/-- Settles O59: HDR_ENC leaves its header where HDR_DEC reads it, and the fields loaded are those of the header. -/
theorem headerRoundTrip : Obligations.HeaderRoundTrip := by
  refine ⟨by decide, fun s t u ht herr hmem hsrc hlen htop hwindows => ?_⟩
  obtain ⟨hchecks, -⟩ := checks_of_exec_next (i := .hdrEnc) rfl ht herr
  obtain rfl := written_of_exec_next (i := .hdrEnc) rfl ht herr
  have hat : HeaderAt s u u.src.toNat := hsrc ▸ headerAt_congr hmem (headerAt_written_hdrEnc s)
  have hread := readHeader_of_headerAt hat
  have hfit := readHeader_fit u
  rw [resultLen_written_hdrEnc] at hlen ⊢
  rw [BitVec.toNat_ofNat, Nat.mod_eq_of_lt (headerLen_lt _)] at hlen
  refine ⟨_, exec_hdrDec_of_headerAt hat hchecks hlen htop hwindows, err_loaded _ u, ?_⟩
  rw [resultLen_loaded, cfgBpp_loaded hfit, cfgBpc_loaded hfit, cfgPalKind_loaded hfit, versionField_loaded hfit]
  have hdim := dim_loaded hfit u
  rw [hread] at hdim ⊢
  refine ⟨rfl, rfl, rfl, rfl, rfl, BitVec.eq_of_toNat_eq (hdim.trans ?_)⟩
  by_cases hb : cfgBpp s = 0
  · simp only [hb, if_true]
    rfl
  · simp only [hb, if_false, dim_eq]

/-! ### The sizes of a container's parts (R110) -/

/-- A transform command that ends without an error reports its output length; `hempty` is for a command that reads nothing. -/
theorem resultLen_of_exec_next {i : Instr} {s t : State} {tr : Transform} {n : Nat} (h : transformOf i s = some tr)
    (ht : exec i s = .next t) (herr : err t = false) (hout : outLen tr = n) (hempty : tr.inLen = 0 → n < 2 ^ 32) :
    t.resultLen.toNat = n := by
  subst hout
  rw [exec_eq_runTransform h] at ht
  rcases runTransform_next ht with ⟨e, -, rfl⟩ | ⟨q, -, -, rfl⟩ | ⟨hc, -, rfl⟩
  · simp at herr
  · simp at herr
  · rw [firstFailure_append, Option.or_eq_none_iff, lengthChecks_pass_iff] at hc
    exact (succeeded_finish _ _ (by omega)).resultLen

theorem resultLen_palEnc {i : Instr} {s t : State} {v : PalVariant} {word : Nat → (Channel → Nat) → Nat}
    (h : transformOf i s = some (palEncTransform v word s)) (ht : exec i s = .next t) (herr : err t = false) :
    t.resultLen.toNat = 2 ^ cfgBpp s * palWordBytes v :=
  resultLen_of_exec_next h ht herr rfl fun h0 => absurd h0 (Nat.mul_pos (by decide) (Nat.two_pow_pos _)).ne'

theorem gridBytes_ne_zero (b : Nat) : gridBytes b ≠ 0 := by
  unfold gridBytes
  split <;> decide

/-- A legal pair of R96 names the fixed format of its chunk. -/
theorem format_of_fixedPair {b k : Nat} {f : PixelFormat} (h : FixedPair b k) (hf : pixelFormat (sext8 k) = some f) :
    b ≠ 0 ∧ f = .fixed (chunkBytes b) := by
  rcases h with ⟨hb, rfl⟩ | ⟨rfl, rfl⟩ | ⟨rfl, rfl⟩ | ⟨rfl, rfl⟩ <;> cases hf
  · obtain ⟨-, h1, h8⟩ := indexDepth_bounds hb
    exact ⟨by omega, by rw [chunkBytes_indexed h8]⟩
  all_goals exact ⟨by decide, rfl⟩

/-- Settles O60: each command reports the length of its output, and its checks fix the format that R110 asks about. -/
theorem containerPartSizes : Obligations.ContainerPartSizes := by
  intro s t i f ht herr hf
  have hempty {m : Nat} (h0 : pixelCount s = 0) : pixelCount s * m < 2 ^ 32 ∧ pixelCount s * m / 8 < 2 ^ 32 := by simp [h0]
  refine ⟨?hdrEnc, ?palEncSte, ?palEncTt, ?palEncFalcon, ?pixEncPlanar, ?pixEncPacked, ?pixEncFixed⟩
  case hdrEnc =>
    rintro rfl
    exact resultLen_of_exec_next (tr := hdrEnc s) rfl ht herr (outLen_hdrEnc s) fun _ => headerLen_lt _
  case palEncSte =>
    rintro rfl
    exact resultLen_palEnc (v := .ste) rfl ht herr
  case palEncTt =>
    rintro rfl
    exact resultLen_palEnc (v := .tt) rfl ht herr
  case palEncFalcon =>
    rintro rfl
    exact resultLen_palEnc (v := .falcon) rfl ht herr
  case pixEncPlanar =>
    rintro rfl rfl
    obtain ⟨hdepth, hw⟩ := (planarChecks_pass_iff s).1 (checks_of_exec_next (i := .pixEncPlanar) rfl ht herr).1
    have hb : cfgBpp s ≠ 0 := Nat.ne_of_gt (indexDepth_bounds hdepth).2.1
    exact (resultLen_of_exec_next (i := .pixEncPlanar) rfl ht herr (outLen_pixEncPlanar_bytes hw)
      fun h0 => (hempty h0).2).trans (if_neg hb).symm
  case pixEncPacked =>
    rintro rfl rfl
    obtain ⟨hdepth, hw⟩ := (packedChecks_pass_iff s).1 (checks_of_exec_next (i := .pixEncPacked) rfl ht herr).1
    have hb : cfgBpp s ≠ 0 := fun h0 => absurd (h0 ▸ hdepth) (by decide)
    exact (resultLen_of_exec_next (i := .pixEncPacked) rfl ht herr (outLen_pixEncPacked_bytes hdepth hw)
      fun h0 => (hempty h0).2).trans (if_neg hb).symm
  case pixEncFixed =>
    rintro rfl
    have hpair := (fixedChecks_pass_iff s).1 (checks_of_exec_next (i := .pixEncFixed) rfl ht herr).1
    obtain ⟨hb, rfl⟩ := format_of_fixedPair hpair hf
    exact (resultLen_of_exec_next (i := .pixEncFixed) rfl ht herr rfl fun h0 =>
      (hempty ((Nat.mul_eq_zero.1 h0).resolve_left (gridBytes_ne_zero _))).1).trans (if_neg hb).symm

end Sys2Proof.Machine
end

section
/-!
SUPPORT. How every command ends (60_exceptions): the engine's turn and the idle block (O3, O5), that every command ends (O19), what
an error leaves (O20), and the errors of the depth (O21) and of the lengths and ranges (O22).
-/

namespace Sys2Proof.Machine

/-! ### The engine's turn (R115, R127) -/

/-- The engine's step on a word of the opcode map, whoever gave it the turn (R115). -/
theorem engineStep_decoded {s : State} {w : Word} {i : Instr} (hp : s.pend = some w) (hd : decode w = some i) :
    engineStep exec s = exec i s :=
  (engineStep_some hp).trans (runWord_some hd)

/-- Settles O3: at each turn the step is the engine's, and the engine runs what PEND decodes to. -/
theorem stepRunsThePendingCommand : Obligations.StepRunsThePendingCommand := fun s _ _ hb hp hd =>
  ⟨fun h => ((step_nil h).trans (if_pos hb)).trans (engineStep_decoded hp hd),
    fun rest h => ((step_engine h).trans (if_pos hb)).trans (engineStep_decoded (s := { s with agenda := rest }) hp hd),
    fun _ h => ((step_wait h).trans (if_pos hb)).trans (engineStep_decoded hp hd)⟩

/-- Settles O5: with the host's events used up only the engine could move, and it moves only while BUSY = 1. -/
theorem idleBlockHoldsItsState : Obligations.IdleBlockHoldsItsState := fun _ hb h =>
  (step_nil h).trans (if_neg (Bool.eq_false_iff.1 hb))

/-! ### Every command ends (R115, R116) -/

theorem transformOf_eq_none_iff (i : Instr) (s : State) :
    transformOf i s = none ↔ i = .nop ∨ i = .bfPack ∨ i = .bfUnpack ∨ i = .hdrDec := by
  cases i <;> simp [transformOf]

theorem exec_bfPack_answers (s : State) : ∃ t, exec .bfPack s = .next t := by
  cases h : firstIllegalDesc Config.params s with
  | none => exact ⟨_, exec_bfPack_of_legal ((firstIllegalDesc_eq_none_iff s).1 h)⟩
  | some k => exact ⟨_, exec_bfPack_of_firstIllegalDesc h⟩

theorem exec_bfUnpack_answers (s : State) : ∃ t, exec .bfUnpack s = .next t := by
  cases h : firstIllegalDesc Config.params s with
  | none => exact ⟨_, exec_bfUnpack_of_legal ((firstIllegalDesc_eq_none_iff s).1 h)⟩
  | some k => exact ⟨_, exec_bfUnpack_of_firstIllegalDesc h⟩

/-- Where the platform has no side-effect window, every command answers a next state. -/
theorem exec_answers {s : State} (h : s.windows = []) (i : Instr) : ∃ t, exec i s = .next t := by
  cases htr : transformOf i s with
  | some tr =>
    rw [exec_eq_runTransform htr]
    exact runTransform_answers h _ tr
  | none =>
    rcases (transformOf_eq_none_iff i s).1 htr with rfl | rfl | rfl | rfl
    · exact ⟨_, rfl⟩
    · exact exec_bfPack_answers s
    · exact exec_bfUnpack_answers s
    · exact execHdrDec_answers h

/-- A command that answers ends in one of two ways: an error of R117 or the clean end of R116. -/
theorem exec_raises_or_finishes {i : Instr} {s t : State} (h : exec i s = .next t) :
    (∃ e u, t = raise e u) ∨ ∃ n u, t = finish n u := by
  rcases exec_cases h with ⟨e, -, ht⟩ | ⟨_, _, -, -, -, ht⟩ | ⟨_, -, -, -, ht⟩ | ⟨-, ht⟩ | ⟨-, _, ht⟩ | ⟨-, _, ht⟩ |
    ⟨-, -, ht⟩
  · exact .inl ⟨e, _, ht⟩
  · exact .inl ⟨_, _, ht⟩
  all_goals exact .inr ⟨_, _, ht⟩

/-- Settles O19: every command answers, and both ends of a command leave BUSY = 0 and DONE = 1. -/
theorem everyCommandEnds : Obligations.EveryCommandEnds := by
  intro i s hwindows
  obtain ⟨t, ht⟩ := exec_answers hwindows i
  refine ⟨t, ht, ?_⟩
  rcases exec_raises_or_finishes ht with ⟨e, u, rfl⟩ | ⟨n, u, rfl⟩
  · exact ⟨busy_raise e u, done_raise e u, rfl, fun herr => absurd herr (by simp)⟩
  · exact ⟨busy_finish n u, done_finish n u, rfl, fun _ => ⟨rfl, rfl⟩⟩

/-! ### What an error leaves (R117) -/

theorem errorCode_bounds (e : ErrorKind) : 1 ≤ errorCode e ∧ errorCode e ≤ 10 := by cases e <;> decide

/-- A command that ends in an error has raised it in its start state, or, where the error is a data error, once its output range
was made unspecified. -/
theorem exec_error_cases {i : Instr} {s t : State} (h : exec i s = .next t) (herr : err t = true) :
    (∃ e, e.kind ≠ .indexOutOfRange ∧ t = raise e s) ∨
    (∃ tr q, transformOf i s = some tr ∧ t = raise ⟨.indexOutOfRange, q⟩ (unspec s s.dst.toNat (outLen tr))) := by
  rcases exec_cases h with herror | ⟨tr, q, htr, -, -, ht⟩ | ⟨_, -, -, -, rfl⟩ | ⟨-, rfl⟩ | ⟨-, _, rfl⟩ | ⟨-, _, rfl⟩ |
    ⟨-, -, rfl⟩
  · exact .inl herror
  · exact .inr ⟨tr, q, htr, ht⟩
  all_goals exact absurd herr (by simp)

/-- Settles O20: an error raised in the start state leaves its memory, and a data error leaves the frame of its transform. -/
theorem errorsChangeNothingElse : Obligations.ErrorsChangeNothingElse := by
  intro i s t h herr
  have hcode (e : CmdError) (u : State) : ∃ c, 1 ≤ c ∧ c ≤ 10 ∧ errCode (raise e u) = c ∧
      (raise e u).status.toNat = 6 + 256 * c :=
    ⟨errorCode e.kind, (errorCode_bounds _).1, (errorCode_bounds _).2, errCode_raise e u, statusError_toNat e.kind⟩
  rcases exec_error_cases h herr with ⟨e, hkind, rfl⟩ | ⟨tr, q, htr, rfl⟩
  · refine ⟨rfl, hcode e s, sameRegisters_raise e s, rfl, fun _ => rfl, fun hsix => ?_⟩
    rw [errCode_raise, errorCode_eq_six_iff] at hsix
    exact absurd hsix hkind
  · obtain ⟨hregs, hmem⟩ := memoryCommandFrame i s _ tr htr h
    exact ⟨rfl, hcode _ _, hregs, rfl, fun hsix => absurd (errCode_raise _ _) hsix, fun _ => ⟨tr, htr, hmem⟩⟩

/-! ### The order of the checks (R118) -/

/-- Settles O21: the depth check stands first in every list of checks that has one, and no list of depths holds 3, 5 or 7. -/
theorem unsupportedDepthComesFirst : Obligations.UnsupportedDepthComesFirst := by
  intro i s hi hb
  have hfamily : i ∈ [.palEncSte, .palEncTt, .palEncFalcon, .palDecSte, .palDecTt, .palDecFalcon] ∨
      i ∈ [.pixEncPlanar, .pixDecPlanar] ∨ i ∈ [.pixEncPacked, .pixDecPacked] ∨ i ∈ [.pixEncFixed, .pixDecFixed] ∨
      i = .hdrEnc := by
    revert hi
    cases i <;> decide
  have hpal : cfgBpp s ∉ paletteDepths := (by decide : ∀ b ∈ [3, 5, 7], b ∉ paletteDepths) _ hb
  have hpix : cfgBpp s ≠ 0 ∧ ¬PixelDepth (cfgBpp s) := (by decide : ∀ b ∈ [3, 5, 7], b ≠ 0 ∧ ¬PixelDepth b) _ hb
  rcases hfamily with h | h | h | h | rfl
  · exact (paletteChecksInOrder i s h).1 hpal
  · exact (planarChecksInOrder i s h).1 hpix.2
  · exact (packedChecksInOrder i s h).1 hpix.2
  · exact (fixedChecksInOrder i s h).1 hpix.2
  · exact hdrEncReportsTheFirstFailingCheck.1 s _ _ ⟨hpix.1, .inl ⟨hpix.2, rfl, rfl⟩⟩

/-- The first length check: SRC_LEN reaches the input length (R24). -/
def truncatedCheck (s : State) (inLen : Nat) : Check := ⟨decide (s.srcLen.toNat < inLen), .truncatedInput, inLen⟩

/-- A range check: a nonempty range at `a` lies below the top of memory (R42). `which` is 1 for the input, 2 for the output. -/
def topCheck (a n which : Nat) : Check := ⟨beyondTop Config.params a n, .addressRange, which⟩

/-- The last length check: the input and the output share no byte (R43). -/
def overlapCheck (s : State) (inLen outLen : Nat) : Check :=
  ⟨rangesMeet s.src.toNat inLen s.dst.toNat outLen, .bufferOverlap, 0⟩

theorem lengthChecks_eq (s : State) (inLen outLen : Nat) :
    lengthChecks Config.params s inLen outLen =
      [truncatedCheck s inLen, topCheck s.src.toNat inLen 1, topCheck s.dst.toNat outLen 2, overlapCheck s inLen outLen] :=
  rfl

theorem truncatedCheck_passes_iff (s : State) (inLen : Nat) :
    (truncatedCheck s inLen).fails = false ↔ inLen ≤ s.srcLen.toNat := by
  simp [truncatedCheck]

theorem topCheck_fails_iff (a n which : Nat) : (topCheck a n which).fails = true ↔ n ≠ 0 ∧ 2 ^ 32 < a + n :=
  beyondTop_eq_true_iff a n

theorem overlapCheck_fails {s : State} {inLen outLen a : Nat} (hsrc : s.src.toNat ≤ a ∧ a < s.src.toNat + inLen)
    (hdst : s.dst.toNat ≤ a ∧ a < s.dst.toNat + outLen) : (overlapCheck s inLen outLen).fails = true :=
  (rangesMeet_eq_true_iff _ _ _ _).2 (by omega)

/-- Settles O22: the four checks one after the other, each with the condition under which it passes. -/
theorem lengthErrorsInOrder : Obligations.LengthErrorsInOrder := by
  intro i s tr htr hc srcOver dstOver
  have hlen := truncatedCheck_passes_iff s tr.inLen
  have hsrc : (topCheck s.src.toNat tr.inLen 1).fails = true ↔ srcOver := topCheck_fails_iff _ _ _
  have hdst : (topCheck s.dst.toNat (outLen tr) 2).fails = true ↔ dstOver := topCheck_fails_iff _ _ _
  have hchecks := lengthChecks_eq s tr.inLen (outLen tr)
  refine ⟨fun h1 => ?_, fun h1 h2 => ?_, fun h1 h2 h3 => ?_, fun h1 h2 h3 ⟨a, ha, ha'⟩ => ?_⟩
  · have hfail := Bool.of_not_eq_false (mt hlen.1 (Nat.not_le.2 h1))
    exact commandFails_length htr hc (hchecks ▸ firstFailure_cons_fails hfail)
  · refine commandFails_length htr hc (e := (topCheck s.src.toNat tr.inLen 1).error) ?_
    rw [hchecks, firstFailure_cons_passes (hlen.2 h1), firstFailure_cons_fails (hsrc.2 h2)]
  · refine commandFails_length htr hc (e := (topCheck s.dst.toNat (outLen tr) 2).error) ?_
    have hpass := Bool.of_not_eq_true (mt hsrc.1 h2)
    rw [hchecks, firstFailure_cons_passes (hlen.2 h1), firstFailure_cons_passes hpass,
      firstFailure_cons_fails (hdst.2 h3)]
  · refine commandFails_length htr hc (e := (overlapCheck s tr.inLen (outLen tr)).error) ?_
    have hpassSrc := Bool.of_not_eq_true (mt hsrc.1 h2)
    have hpassDst := Bool.of_not_eq_true (mt hdst.1 h3)
    rw [hchecks, firstFailure_cons_passes (hlen.2 h1), firstFailure_cons_passes hpassSrc,
      firstFailure_cons_passes hpassDst, firstFailure_cons_fails (overlapCheck_fails ha ha')]

end Sys2Proof.Machine
end

section
/-!
SUPPORT. Reset (70_reset_and_hazards R128): a reset of a running command once that command answers, the bytes it leaves, and the
statements about the reset state (O15, O17) and about a reset from any state (O16).
-/

namespace Sys2Proof.Machine

/-! ### The reset state -/

/-- Settles O15: the registers are 0 as they stand in the table, and the banks register by register. -/
theorem resetStateIsTheTable : Obligations.ResetStateIsTheTable :=
  ⟨rfl, rfl, rfl, rfl, rfl, rfl, rfl, rfl, rfl, rfl, rfl, bankGet_zero, bankGet_zero, rfl⟩

/-- Settles O17: the reset state is a reset with no byte of memory written, and the empty memory is canonical. -/
theorem invariantHoldsAtReset : Obligations.InvariantHoldsAtReset :=
  inv_resetWith (m := []) ⟨.nil, List.forall_mem_nil _⟩ State.reset 0

/-! ### A reset of a running command -/

/-- A reset abandons a running command that answers, and chooses each byte from the memory before and after it (R128). -/
theorem resetBlock_abandons {s u : State} {w : Word} (hb : busy s = true) (hp : s.pend = some w)
    (hu : runWord exec w s = .next u) :
    resetBlock exec s = .next (resetWith s (memMix u.draws s.mem u.mem) (u.draws + 1)) := by
  rw [resetBlock_running hb hp, hu]

/-- A reset of a running command that the model refuses is refused with the same name (log entry 9). -/
theorem resetBlock_refuses {s : State} {w : Word} {r : Refusal} (hb : busy s = true) (hp : s.pend = some w)
    (hr : runWord exec w s = .refused r) : resetBlock exec s = .refused r := by
  rw [resetBlock_running hb hp, hr]

/-- A byte after a reset that abandons a command is the old or the new one. An address that the new memory does not list keeps
its power-on value, which is then the new one. -/
theorem readByte_resetWith_memMix (s u : State) (draw draws a : Nat) :
    readByte (resetWith s (memMix draw s.mem u.mem) draws) a = readByte s a ∨
      readByte (resetWith s (memMix draw s.mem u.mem) draws) a = readByte u a := by
  simp only [readByte, resetWith_mem, memGet_memMix]
  split
  · exact .inr rfl
  · cases memGet u.mem a with
    | none => exact .inr rfl
    | some _ => exact .inl rfl

/-- A pending word answers where the platform has no window, where it is illegal, and where its command answers. -/
theorem runWord_answers {s : State} {w : Word}
    (h : s.windows = [] ∨ decode w = none ∨ ∃ i u, decode w = some i ∧ exec i s = .next u) :
    ∃ u, runWord exec w s = .next u := by
  cases hd : decode w with
  | none => exact ⟨_, runWord_none hd⟩
  | some i =>
    rw [runWord_some hd]
    rcases h with hwindows | hnone | ⟨j, u, hj, hu⟩
    · exact exec_answers hwindows i
    · cases hd.symm.trans hnone
    · obtain rfl := Option.some.inj (hd.symm.trans hj)
      exact ⟨u, hu⟩

/-- A reset answers unless the model refuses the running command. It keeps memory where no command runs, and else mixes the memory
before and after the command. -/
theorem resetBlock_answers {s : State}
    (h : ∀ w, busy s = true → s.pend = some w → ∃ u, runWord exec w s = .next u) :
    ∃ m d, resetBlock exec s = .next (resetWith s m d) ∧
      (busy s = false ∨ s.pend = none → m = s.mem) ∧
      ∀ w, busy s = true → s.pend = some w →
        ∃ u, runWord exec w s = .next u ∧ m = memMix u.draws s.mem u.mem := by
  by_cases hidle : busy s = false ∨ s.pend = none
  · refine ⟨s.mem, s.draws, resetBlock_idle hidle, fun _ => rfl, fun w hb hp => ?_⟩
    simp [hb, hp] at hidle
  · rw [not_or, Bool.not_eq_false] at hidle
    obtain ⟨hb, hpend⟩ := hidle
    obtain ⟨w, hp⟩ := Option.ne_none_iff_exists'.1 hpend
    obtain ⟨u, hu⟩ := h w hb hp
    refine ⟨_, _, resetBlock_abandons hb hp hu, fun hidle => ?_, fun w' _ hp' => ?_⟩
    · simp [hb, hp] at hidle
    · obtain rfl := Option.some.inj (hp.symm.trans hp')
      exact ⟨u, hu, rfl⟩

/-! ### A reset from any state -/

/-- Settles O16: the step is a reset with the event taken off the agenda. An illegal word only raises its error, so both bytes
to choose from are the old one. -/
theorem resetFromAnyState : Obligations.ResetFromAnyState := by
  intro s rest hagenda
  rw [step_reset hagenda]
  refine ⟨fun h => ?_, fun w i r hb hp hd hr => resetBlock_refuses hb hp ((runWord_some hd).trans hr)⟩
  have hruns : ∀ w, busy s = true → s.pend = some w → ∃ u, runWord exec w { s with agenda := rest } = .next u := by
    intro w hb hp
    apply runWord_answers
    simp only [hb, hp, Option.some.injEq] at h
    rcases h with h | h | hwindows | ⟨_, rfl, hnone⟩ | ⟨_, i, u, rfl, hd, hu⟩
    · cases h
    · cases h
    · exact .inl hwindows
    · exact .inr (.inl hnone)
    · exact .inr (.inr ⟨i, u, hd, hu⟩)
  obtain ⟨m, d, hreset, hidle, hrun⟩ := resetBlock_answers (s := { s with agenda := rest }) hruns
  refine ⟨_, hreset, rfl, rfl, rfl, rfl, rfl, rfl, rfl, rfl, rfl, rfl, rfl, bankGet_zero, bankGet_zero, rfl, rfl, rfl, rfl,
    hidle, fun w hp hd a => ?_, fun w i u hb hp hd hu a => ?_⟩
  · cases hb : busy s with
    | false => exact readByte_congr (hidle (.inl hb)) a
    | true =>
      obtain ⟨u, hu, rfl⟩ := hrun w hb hp
      rw [runWord_none hd] at hu
      cases hu
      exact (or_self _).mp (readByte_resetWith_memMix { s with agenda := rest } _ _ d a)
  · obtain ⟨v, hv, rfl⟩ := hrun w hb hp
    rw [runWord_some hd, hu] at hv
    cases hv
    exact readByte_resetWith_memMix { s with agenda := rest } u _ d a

end Sys2Proof.Machine
end
